-- ==== Sys2Proof/Word.lean ====
section
/-! DEFINITION. The bit patterns the spec names: bytes as a host sees them, 16-bit elements, 32-bit registers. -/

namespace Sys2Proof

/-- One byte of the host's view of data memory (20_memory.md R61). -/
abbrev Byte := BitVec 8

/-- A pattern of the half-precision format H, and every element of data memory (40_numerics.md R121, 20_memory.md R60). -/
abbrev Half := BitVec 16

/-- A pattern of the accumulator format A (40_numerics.md R122). -/
abbrev Accum := BitVec 32

/-- A register value or a command word (10_state.md R21, R26; 30_encoding.md R90). -/
abbrev Word := BitVec 32

end Sys2Proof
end

