-- ==== Sys2Proof/Config.lean ====
section
/-! DEFINITION. The parameters of the hardware (00_scope.md R9). Each is a constant at the value R9 gives; the one that R9 leaves OPEN is an opaque constant. -/

namespace Sys2Proof

/-- Which transform the MFCC extractor embeds (00_scope.md R9, 49_mfcc_extractor.md R270). -/
inductive MfccBackend where
  | real
  | complex
deriving DecidableEq, Repr, Inhabited

/-- What step 3 of the MFCC computes of a bin (00_scope.md R9, 49_mfcc_extractor.md R278). -/
inductive MfccSpectrum where
  | magnitude
  | power
deriving DecidableEq, Repr

/-- The order of the two bytes of an element in the host's byte view (00_scope.md R9, 20_memory.md R61). -/
inductive ByteOrder where
  | little
  | big
deriving DecidableEq, Repr

namespace Config

/-- `NMAX` of R9: largest complex transform length, and the length of both master tables. -/
def nmax : Nat := 4096

/-- `CFFT_LENGTHS` of R9. -/
def cfftLengths : List Nat := [2, 4, 8, 16, 32, 64, 128, 256, 512, 1024, 2048, 4096]

/-- `RFFT_LENGTHS` of R9. -/
def rfftLengths : List Nat := [32, 64, 128, 256, 512, 1024, 2048, 4096]

/-- The smallest member of `CFFT_LENGTHS` (45_complex_fft_engine.md R203). -/
def cfftMinLength : Nat := 2

/-- The smallest member of `RFFT_LENGTHS` (46_real_fft_adapter.md R232). -/
def rfftMinLength : Nat := 32

/-- `MFCC_BACKEND` of R9. DESIGN CHOICE, safe: OPEN in the spec, so opaque here; nothing can be proved of its
value and every claim holds for both builds (log entry 10). -/
opaque mfccBackend : MfccBackend

/-- `MFCC_SPECTRUM` of R9. -/
def mfccSpectrum : MfccSpectrum := .magnitude

/-- `LOG_FLOOR` of R9: 2^-14, the smallest normal half-precision number. -/
def logFloor : Half := 0x0400#16

/-- `N_INST` of R9: number of instance slots. -/
def nInst : Nat := 8

/-- `DMEM_WORDS` of R9: number of 16-bit elements of data memory. -/
def dmemWords : Nat := 65536

/-- `HOST_BYTE_ORDER` of R9. -/
def hostByteOrder : ByteOrder := .little

/-- `N_ENGINES` of R9: number of commands that can be in progress at once. -/
def nEngines : Nat := 1

end Config

end Sys2Proof
end

