-- ==== Sys2Proof/Syntax.lean ====
section
/-! DEFINITION. The ten commands of 30_encoding.md R92, one constructor per row of spec/opcode_table.json, and the reasons a command word is no command (R95). -/

namespace Sys2Proof

/-- A command with the operands its word carries: the slot number (`INST`, bits 15:8) and, where the row admits
them, the flags `IFFT` (bit 4) and `BITREV` (bit 5). Lengths and addresses come from the argument registers
(30_encoding.md R91, R94). -/
inductive Instr where
  /-- `CFFT_INIT`, `OPC` 0x1. -/
  | cfftInit (slot : BitVec 8)
  /-- `CFFT_R2_INIT`, `OPC` 0x2. -/
  | cfftR2Init (slot : BitVec 8)
  /-- `CFFT_R4_INIT`, `OPC` 0x3. -/
  | cfftR4Init (slot : BitVec 8)
  /-- `RFFT_INIT`, `OPC` 0x4. -/
  | rfftInit (slot : BitVec 8)
  /-- `MFCC_INIT`, `OPC` 0x5. -/
  | mfccInit (slot : BitVec 8)
  /-- `CFFT`, `OPC` 0x9. -/
  | cfft (slot : BitVec 8) (ifft bitrev : Bool)
  /-- `CFFT_R2`, `OPC` 0xA. -/
  | cfftR2 (slot : BitVec 8) (ifft bitrev : Bool)
  /-- `CFFT_R4`, `OPC` 0xB. -/
  | cfftR4 (slot : BitVec 8) (ifft bitrev : Bool)
  /-- `RFFT`, `OPC` 0xC. -/
  | rfft (slot : BitVec 8) (ifft : Bool)
  /-- `MFCC`, `OPC` 0xD. -/
  | mfcc (slot : BitVec 8)
deriving DecidableEq, Repr

/-- Why a word written to `CMD` is no command (30_encoding.md R95). -/
inductive DecodeError where
  /-- `RSV1` or `RSV0` is not zero, or a flag is set where R92 says it must be 0. -/
  | reservedBits
  /-- `OPC` is one of 0x0, 0x6, 0x7, 0x8, 0xE, 0xF. -/
  | reservedOpcode
  /-- `INST` is `N_INST` or more. -/
  | badSlot
deriving DecidableEq, Repr

/-- The slot number a command names (`INST`, 30_encoding.md R90). -/
def Instr.slot : Instr → BitVec 8
  | .cfftInit k => k
  | .cfftR2Init k => k
  | .cfftR4Init k => k
  | .rfftInit k => k
  | .mfccInit k => k
  | .cfft k _ _ => k
  | .cfftR2 k _ _ => k
  | .cfftR4 k _ _ => k
  | .rfft k _ => k
  | .mfcc k => k

/-- Whether a command is one of the five initialisation commands (bit 3 of `OPC` is 0, 30_encoding.md R90). -/
def Instr.isInit : Instr → Bool
  | .cfftInit _ => true
  | .cfftR2Init _ => true
  | .cfftR4Init _ => true
  | .rfftInit _ => true
  | .mfccInit _ => true
  | .cfft _ _ _ => false
  | .cfftR2 _ _ _ => false
  | .cfftR4 _ _ _ => false
  | .rfft _ _ => false
  | .mfcc _ => false

end Sys2Proof
end

