-- ==== Sys2Proof/WellFormed.lean ====
section
/-! DEFINITION. Which commands can be written: the slot number is below N_INST (30_encoding.md R90, R95). The flags that must be 0 are no fields of Instr, so no further check is needed. -/

namespace Sys2Proof

/-- The `INST` field "must be less than `N_INST`" (30_encoding.md R90). -/
def Instr.wellFormed (i : Instr) : Bool := decide (i.slot.toNat < Config.nInst)

end Sys2Proof
end

