-- ==== Sys2Proof/Decode.lean ====
section
/-! DEFINITION. The decoder of a command word (30_encoding.md R91, R95) and, after it, the encoder (R90, R92). -/

namespace Sys2Proof

/-- `OPC = w[3:0]` (30_encoding.md R91). -/
def fieldOpc (w : Word) : BitVec 4 := w.extractLsb' 0 4

/-- `IFFT = w[4]`. -/
def fieldIfft (w : Word) : Bool := w.getLsbD 4

/-- `BITREV = w[5]`. -/
def fieldBitrev (w : Word) : Bool := w.getLsbD 5

/-- `RSV0 = w[7:6]`. -/
def fieldRsv0 (w : Word) : BitVec 2 := w.extractLsb' 6 2

/-- `INST = w[15:8]`. -/
def fieldInst (w : Word) : BitVec 8 := w.extractLsb' 8 8

/-- `RSV1 = w[31:16]`. -/
def fieldRsv1 (w : Word) : BitVec 16 := w.extractLsb' 16 16

/-- The command that an opcode names, with the operands given, or none for a reserved opcode
(30_encoding.md R92; "Opcodes 0x0, 0x6, 0x7, 0x8, 0xE and 0xF are reserved"). -/
def instrOfOpcode (opc : BitVec 4) (k : BitVec 8) (ifft bitrev : Bool) : Option Instr :=
  match opc.toNat with
  | 0x1 => some (.cfftInit k)
  | 0x2 => some (.cfftR2Init k)
  | 0x3 => some (.cfftR4Init k)
  | 0x4 => some (.rfftInit k)
  | 0x5 => some (.mfccInit k)
  | 0x9 => some (.cfft k ifft bitrev)
  | 0xA => some (.cfftR2 k ifft bitrev)
  | 0xB => some (.cfftR4 k ifft bitrev)
  | 0xC => some (.rfft k ifft)
  | 0xD => some (.mfcc k)
  | _ => none

/-- The flags a command's row requires to be 0: those it has no operand for (30_encoding.md R92, columns `IFFT`
and `BITREV`). -/
def flagsAdmitted (i : Instr) (ifft bitrev : Bool) : Bool :=
  match i with
  | .cfftInit _ => !ifft && !bitrev
  | .cfftR2Init _ => !ifft && !bitrev
  | .cfftR4Init _ => !ifft && !bitrev
  | .rfftInit _ => !ifft && !bitrev
  | .mfccInit _ => !ifft && !bitrev
  | .cfft _ _ _ => true
  | .cfftR2 _ _ _ => true
  | .cfftR4 _ _ _ => true
  | .rfft _ _ => !bitrev
  | .mfcc _ => !ifft && !bitrev

/-- Decoding of a word written to `CMD`, the checks in the order of 30_encoding.md R95. -/
def decode (w : Word) : Except DecodeError Instr :=
  if fieldRsv1 w ≠ 0#16 ∨ fieldRsv0 w ≠ 0#2 then .error .reservedBits
  else
    match instrOfOpcode (fieldOpc w) (fieldInst w) (fieldIfft w) (fieldBitrev w) with
    | none => .error .reservedOpcode
    | some i =>
      if flagsAdmitted i (fieldIfft w) (fieldBitrev w) = false then .error .reservedBits
      else if i.wellFormed = false then .error .badSlot
      else .ok i

/-- The decoder on a row's bits as spec/opcode_table.json numbers them: a command is one 32-bit word, so the bits
above `nbits` are 0 and the word is decoded whole. -/
def decodeTableWord (nbits w : Nat) : Option Instr :=
  (decode (BitVec.ofNat 32 (w % 2 ^ nbits))).toOption

/-- A command word from its fields, `RSV1` and `RSV0` zero (30_encoding.md R90). -/
def commandWord (k : BitVec 8) (bitrev ifft : Bool) (opc : BitVec 4) : Word :=
  0#16 ++ (k ++ (0#2 ++ (BitVec.ofBool bitrev ++ (BitVec.ofBool ifft ++ opc))))

/-- The word of a command (30_encoding.md R90, R92). -/
def encode : Instr → Word
  | .cfftInit k => commandWord k false false 0x1#4
  | .cfftR2Init k => commandWord k false false 0x2#4
  | .cfftR4Init k => commandWord k false false 0x3#4
  | .rfftInit k => commandWord k false false 0x4#4
  | .mfccInit k => commandWord k false false 0x5#4
  | .cfft k ifft bitrev => commandWord k bitrev ifft 0x9#4
  | .cfftR2 k ifft bitrev => commandWord k bitrev ifft 0xA#4
  | .cfftR4 k ifft bitrev => commandWord k bitrev ifft 0xB#4
  | .rfft k ifft => commandWord k false ifft 0xC#4
  | .mfcc k => commandWord k false false 0xD#4

/-- One row of the opcode table: a word w selects the row when `w & mask = pattern` (30_encoding.md R92). -/
structure OpcodeRow where
  pattern : Word
  mask : Word
deriving DecidableEq, Repr

/-- The match and mask of a command's row (the second table of 30_encoding.md R92). -/
def opcodeRow : Instr → OpcodeRow
  | .cfftInit _ => ⟨0x00000001#32, 0xFFFF00FF#32⟩
  | .cfftR2Init _ => ⟨0x00000002#32, 0xFFFF00FF#32⟩
  | .cfftR4Init _ => ⟨0x00000003#32, 0xFFFF00FF#32⟩
  | .rfftInit _ => ⟨0x00000004#32, 0xFFFF00FF#32⟩
  | .mfccInit _ => ⟨0x00000005#32, 0xFFFF00FF#32⟩
  | .cfft _ _ _ => ⟨0x00000009#32, 0xFFFF00CF#32⟩
  | .cfftR2 _ _ _ => ⟨0x0000000A#32, 0xFFFF00CF#32⟩
  | .cfftR4 _ _ _ => ⟨0x0000000B#32, 0xFFFF00CF#32⟩
  | .rfft _ _ => ⟨0x0000000C#32, 0xFFFF00EF#32⟩
  | .mfcc _ => ⟨0x0000000D#32, 0xFFFF00FF#32⟩

end Sys2Proof
end

