-- ==== Sys2Proof/Machine/State.lean ====
section
/-! DEFINITION. The state of the machine (10_state.md R20 to R39), the reasons a step stops, and the state after reset. -/

namespace Sys2Proof.Machine

/-- The butterfly strategy of a complex instance (10_state.md R31). -/
inductive Tag where
  | general
  | radix2
  | radix4
deriving DecidableEq, Repr

/-- A complex instance (10_state.md R31). -/
structure ComplexInstance where
  tag : Tag
  fftLen : Nat
  twidCoefModifier : Nat
  bitRevFactor : Nat
  bitRevLength : Nat
  onebyfftLen : Half
deriving DecidableEq, Repr

/-- A real instance (10_state.md R32). -/
structure RealInstance where
  fftLenRFFT : Nat
  cfft : ComplexInstance
  rfftTwidModifier : Nat
deriving DecidableEq, Repr

/-- The one embedded backend of an MFCC instance: "a real instance when `MFCC_BACKEND = REAL`, a complex instance
with tag `GENERAL` when `MFCC_BACKEND = COMPLEX`" (10_state.md R33). -/
inductive Backend where
  | real (r : RealInstance)
  | complex (c : ComplexInstance)
deriving DecidableEq, Repr

/-- An MFCC instance (10_state.md R33): dimensions, five element addresses stored verbatim, and the backend. -/
structure MfccInstance where
  fftLen : Nat
  nbMelFilters : Nat
  nbDctOutputs : Nat
  dctCoefs : Nat
  filterPos : Nat
  filterLengths : Nat
  filterCoefs : Nat
  windowCoefs : Nat
  backend : Backend
deriving DecidableEq, Repr

/-- What an instance slot holds (10_state.md R30). -/
inductive Slot where
  | invalid
  | cfft (c : ComplexInstance)
  | rfft (r : RealInstance)
  | mfcc (m : MfccInstance)
deriving DecidableEq, Repr

/-- Data memory as the host's byte view shows it: element a is the bytes 2a and 2a+1 of the data window
(20_memory.md R61, R72). An unlisted byte has no value (10_state.md R39). Log entry 5. -/
abbrev Memory := List Host.Cell

/-- One host transaction (00_scope.md R8). Offsets and widths are in bytes; the well-formed ones are a 4-byte
access at an aligned register offset and a 2-byte access at an even byte offset of the data window. Log entries 1
and 16. -/
inductive HostTxn where
  /-- A read of a register of the register window (10_state.md R28). -/
  | regRead (offset width : Nat)
  /-- A write of a register of the register window; at offset 0 it performs a command (30_encoding.md R96). -/
  | regWrite (offset width : Nat) (value : Word)
  /-- A read of the data window (20_memory.md R73). -/
  | dataRead (byteOffset width : Nat)
  /-- A write of the data window (20_memory.md R73). -/
  | dataWrite (byteOffset width : Nat) (value : Half)
  /-- Reset, an input driven by the platform (70_reset_and_hazards.md R320). -/
  | reset
deriving DecidableEq, Repr

/-- What the last performed transaction returned to the host. Log entry 2. -/
inductive Response where
  | nothing
  | register (value : Word)
  | element (value : Half)
deriving DecidableEq, Repr

/-- The whole state: the four parts of 10_state.md R20, and two fields of the model's own, `pending` and
`response` (log entries 1 and 2). -/
structure State where
  /-- The argument registers `A[0]` to `A[7]` (10_state.md R21). -/
  args : Vector Word 8
  /-- `STATUS` (10_state.md R26). -/
  status : Word
  /-- The instance slots (10_state.md R30). -/
  slots : Vector Slot Config.nInst
  /-- Data memory (10_state.md R36). -/
  dmem : Memory
  /-- The MODEL's own: the host transactions not yet performed, first one first. -/
  pending : List HostTxn
  /-- The MODEL's own: what the last performed transaction returned. -/
  response : Response
deriving DecidableEq, Repr

/-- The contract violations of 60_exceptions.md R296. The hardware does not detect them and goes on in a way the
spec does not give; "a model makes it a fault of the model" (R297). Stopping is SAFE: no false claim about a next
state can be proved. -/
inductive Fault where
  /-- V1, raised by the decoder: reserved bits or a flag that must be 0. Safe. -/
  | reservedBits
  /-- V2, raised by the decoder: a reserved opcode. Safe. -/
  | reservedOpcode
  /-- V3, raised by the decoder, and by a meaning given an ill-formed command: a slot number of `N_INST` or more. Safe. -/
  | badSlot
  /-- V4, raised by the five execute commands: the slot is `INVALID`. Safe. -/
  | invalidInstance
  /-- V5, raised by the five execute commands: the slot holds an instance of another kind or tag. Safe. -/
  | kindMismatch
  /-- V6, raised by execute commands and host data accesses: beyond `DMEM_WORDS`. Safe. -/
  | outOfRange
  /-- V7 `Alias`, raised by `RFFT` and `MFCC`: two buffers overlap that must not. Safe. -/
  | bufferAlias
  /-- V8, raised by `MFCC`: a filter reaches beyond bin `fftLen`/2. Safe. -/
  | filterRange
  /-- V9, raised by execute commands and host reads: an element that nothing has written since reset. Safe. -/
  | unwrittenRead
  /-- V10, raised by `MFCC`: more filters than `fftLen`. Safe. -/
  | tooManyFilters
  /-- V12, raised by a host access that is not one aligned register word or one whole element. Safe. -/
  | badHostAccess
deriving DecidableEq, Repr

/-- Why the model has no meaning for a command. -/
inductive Refusal where
  /-- An instruction that has no meaning yet, by its mnemonic. Raised by no arm of this model. Safe. -/
  | notModelled (mnemonic : String)
deriving DecidableEq, Repr

/-- The outcome of a transaction or of a command. -/
abbrev Result := Host.Outcome State Fault Refusal

/-- The state after reset (10_state.md R39, 70_reset_and_hazards.md R320): registers 0, every slot `INVALID`, no
element of data memory with a value. `pending` empty and `response` nothing: DESIGN CHOICE, log entries 1 and 2. -/
def State.reset : State where
  args := Vector.replicate 8 0#32
  status := 0#32
  slots := Vector.replicate Config.nInst .invalid
  dmem := []
  pending := []
  response := .nothing

end Sys2Proof.Machine
end

