-- ==== Sys2Proof/Machine/Flags.lean ====
section
/-! DEFINITION. STATUS and its one flag ERR (10_state.md R26, R27; 60_exceptions.md R291). There is no other flag: no carry, no overflow, no floating-point exception flag (R27, 40_numerics.md R131). -/

namespace Sys2Proof.Machine

/-- The status code `SUCCESS` (10_state.md R26). -/
def statusSuccess : Word := 0#32

/-- The status code `ARGUMENT_ERROR` (10_state.md R26). -/
def statusArgumentError : Word := 1#32

/-- `STATUS.ERR`, bit 0: true when the most recent initialisation command failed (10_state.md R26). -/
def State.err (s : State) : Bool := s.status.getLsbD 0

end Sys2Proof.Machine
end

