-- ==== Sys2Proof/Machine/Ops.lean ====
section
/-! DEFINITION. The named operations over data memory, the registers and the slots, the loop of the pseudocode, and the one reported error. -/

namespace Sys2Proof.Machine

/-! ### Data memory (20_memory.md) -/

/-- The byte at a byte offset of the data window, none where nothing has been written (20_memory.md R61, R64). -/
def byteAt : Memory → Nat → Option Byte
  | [], _ => none
  | (k, v) :: rest, n => if k = n then some v else byteAt rest n

/-- A byte written at a byte offset, the list kept in rising order of its addresses. -/
def setByte : Memory → Nat → Byte → Memory
  | [], n, v => [(n, v)]
  | (k, w) :: rest, n, v =>
    if n < k then (n, v) :: (k, w) :: rest
    else if n = k then (n, v) :: rest
    else (k, w) :: setByte rest n v

/-- An element from the byte at its lower and the byte at its higher byte address (20_memory.md R61). -/
def elementOfBytes (lower higher : Byte) : Half :=
  match Config.hostByteOrder with
  | .little => higher ++ lower
  | .big => lower ++ higher

/-- The byte of an element that stands at its lower byte address (20_memory.md R61). -/
def lowerByte (v : Half) : Byte :=
  match Config.hostByteOrder with
  | .little => v.extractLsb' 0 8
  | .big => v.extractLsb' 8 8

/-- The byte of an element that stands at its higher byte address (20_memory.md R61). -/
def higherByte (v : Half) : Byte :=
  match Config.hostByteOrder with
  | .little => v.extractLsb' 8 8
  | .big => v.extractLsb' 0 8

/-- Element a of data memory, at byte offsets 2a and 2a+1 (20_memory.md R72); none when it has no value. -/
def elementAt (m : Memory) (a : Nat) : Option Half :=
  match byteAt m (2 * a), byteAt m (2 * a + 1) with
  | some lower, some higher => some (elementOfBytes lower higher)
  | _, _ => none

/-- Element a holds v; no other element changes. -/
def setElement (m : Memory) (a : Nat) (v : Half) : Memory :=
  setByte (setByte m (2 * a) (lowerByte v)) (2 * a + 1) (higherByte v)

/-- Whether element a has been written since reset (20_memory.md R64, 92_eei_decisions.md D37). -/
def written (m : Memory) (a : Nat) : Bool := (elementAt m a).isSome

/-- `MemRead(a)` (20_memory.md R64). -/
def memRead (m : Memory) (a : Nat) : Except Fault Half :=
  if a < Config.dmemWords then
    match elementAt m a with
    | some v => .ok v
    | none => .error .unwrittenRead
  else .error .outOfRange

/-- `MemWrite(a, v)` (20_memory.md R65). -/
def memWrite (m : Memory) (a : Nat) (v : Half) : Except Fault Memory :=
  if a < Config.dmemWords then .ok (setElement m a v) else .error .outOfRange

/-- Addresses strictly rising. -/
def risingCells : Memory → Bool
  | [] => true
  | [_] => true
  | (k, _) :: (l, w) :: rest => decide (k < l) && risingCells ((l, w) :: rest)

/-- The other byte offset of the element that a byte offset belongs to. -/
def otherByte (n : Nat) : Nat := if n % 2 = 0 then n + 1 else n - 1

/-- The canonical form of data memory: addresses strictly rising, inside the data window, and whole elements only
(both bytes of an element or neither). An unlisted byte has no value, so no entry repeats it. Log entry 5. -/
def Memory.wf (m : Memory) : Bool :=
  risingCells m && m.all (fun c => decide (c.1 < 2 * Config.dmemWords)) &&
    m.all (fun c => (byteAt m (otherByte c.1)).isSome)

/-! ### Loops of the pseudocode (00_scope.md, notation) -/

/-- `for i in 0 .. n-1`, in that order; no iteration when n = 0. A violation ends the loop and the command. -/
def forUpTo {α : Type} : Nat → (Nat → α → Except Fault α) → α → Except Fault α
  | 0, _, a => .ok a
  | n + 1, f, a => do
    let b ← forUpTo n f a
    f n b

/-! ### Registers and slots (10_state.md) -/

/-- `A[i]` as an unsigned integer (10_state.md R21). -/
def State.arg (s : State) (i : Fin 8) : Nat := s.args[i].toNat

/-- `A[i] <- v` (10_state.md R22, host only). -/
def State.setArg (s : State) (i : Fin 8) (v : Word) : State := { s with args := s.args.set i v }

/-- `STATUS <- v` (10_state.md R27, initialisation commands only). -/
def State.setStatus (s : State) (v : Word) : State := { s with status := v }

/-- `INST[k]`, none when there is no slot of that number (10_state.md R30). -/
def State.slotAt (s : State) (k : BitVec 8) : Option Slot := s.slots[k.toNat]?

/-- `INST[k] <- r` (10_state.md R34, initialisation commands only). -/
def State.setSlot (s : State) (k : BitVec 8) (r : Slot) : State :=
  { s with slots := s.slots.setIfInBounds k.toNat r }

/-- Data memory as a command or a host write left it. -/
def State.withDmem (s : State) (m : Memory) : State := { s with dmem := m }

/-- The end of a command or of a host write: its memory, or the violation that leaves it without a result
(60_exceptions.md R297). -/
def commit (s : State) (r : Except Fault Memory) : Result :=
  match r with
  | .ok m => .next (s.withDmem m)
  | .error e => .fault e

/-! ### The one reported error (60_exceptions.md)

There is no other exception, no trap entry and no return from one (R300 to R303): nothing is saved, no mode
changes and control goes nowhere. -/

/-- `raise ArgumentError` in a command on slot k: `INST[k] <- INVALID ; STATUS <- 1`, and nothing else changes
(60_exceptions.md R292). -/
def raiseArgumentError (s : State) (k : BitVec 8) : State := (s.setSlot k .invalid).setStatus statusArgumentError

/-- The end of an initialisation command on slot k: with an instance, the slot takes it and `STATUS` is 0; without
one, the length is unsupported and `ArgumentError` is raised (60_exceptions.md R291 to R293). A slot number of
`N_INST` or more is the violation `BadSlot` (30_encoding.md R95). -/
def finishInit (s : State) (k : BitVec 8) (made : Option Slot) : Result :=
  if k.toNat < Config.nInst then
    match made with
    | some r => .next ((s.setSlot k r).setStatus statusSuccess)
    | none => .next (raiseArgumentError s k)
  else .fault .badSlot

end Sys2Proof.Machine
end

