-- ==== Sys2Proof/Machine/Operands.lean ====
section
/-! DEFINITION. The operand forms: the argument registers by role (30_encoding.md R94), the addressing forms (20_memory.md R69), complex elements (R66) and buffers (R67). Addresses are unbounded naturals and never wrap (R68). -/

namespace Sys2Proof.Machine

/-! ### Addressing forms (20_memory.md R69) -/

/-- Real element i of a buffer. -/
def realElement (base i : Nat) : Nat := base + i

/-- The real part of complex element i of a buffer. -/
def complexRe (base i : Nat) : Nat := base + 2 * i

/-- The imaginary part of complex element i of a buffer. -/
def complexIm (base i : Nat) : Nat := base + 2 * i + 1

/-- Entry i of `filterPos` or of `filterLengths`. -/
def filterEntry (table i : Nat) : Nat := table + i

/-- Weight j of the filter whose run begins at offset `off` of the arena `filterCoefs`. -/
def filterCoefficient (filterCoefs off j : Nat) : Nat := filterCoefs + off + j

/-- The weight of log-energy i in output j: row-major, `nbMelFilters` to a row. -/
def dctCoefficient (dctCoefs nbMelFilters j i : Nat) : Nat := dctCoefs + j * nbMelFilters + i

/-! ### Complex elements (20_memory.md R66) -/

/-- A complex value: a pair of half-precision patterns. -/
structure Complex16 where
  re : Half
  im : Half
deriving DecidableEq, Repr

/-- `Cget(b, i)`: the real part is read first. -/
def cget (m : Memory) (b i : Nat) : Except Fault Complex16 := do
  let re ← memRead m (complexRe b i)
  let im ← memRead m (complexIm b i)
  .ok ⟨re, im⟩

/-- `Cput(b, i, z)`: the real part is written first. -/
def cput (m : Memory) (b i : Nat) (z : Complex16) : Except Fault Memory := do
  let m ← memWrite m (complexRe b i) z.re
  memWrite m (complexIm b i) z.im

/-! ### Buffers (20_memory.md R67) -/

/-- A buffer: the element addresses base .. base + length - 1. -/
structure Buffer where
  base : Nat
  length : Nat
deriving DecidableEq, Repr

/-- In range: base + length ≤ `DMEM_WORDS`. -/
def inRange (b : Buffer) : Bool := decide (b.base + b.length ≤ Config.dmemWords)

/-- Two buffers overlap when neither is empty and each begins before the other ends. -/
def overlap (b c : Buffer) : Bool :=
  decide (0 < b.length ∧ 0 < c.length ∧ b.base < c.base + c.length ∧ c.base < b.base + b.length)

/-- Whether an element address lies in a buffer. -/
def inBuffer (b : Buffer) (a : Nat) : Bool := decide (b.base ≤ a ∧ a < b.base + b.length)

/-- Whether the n elements from `base` on have all been written. -/
def allWritten (m : Memory) (base : Nat) : Nat → Bool
  | 0 => true
  | n + 1 => allWritten m base n && written m (base + n)

/-! ### The argument registers by role (30_encoding.md R94) -/

/-- `A[0]` of an initialisation command: the length, or `fftLen` of `MFCC_INIT`. -/
def lengthArg (s : State) : Nat := s.arg 0

/-- `A[0]` of an execute command: the in/out buffer, the input buffer or the input samples. -/
def inputArg (s : State) : Nat := s.arg 0

/-- `A[1]` of `RFFT` and `MFCC`: the output buffer. -/
def outputArg (s : State) : Nat := s.arg 1

/-- `A[2]` of `MFCC`: the scratch buffer. -/
def scratchArg (s : State) : Nat := s.arg 2

end Sys2Proof.Machine
end

