-- ==== Sys2Proof/Machine/BitReversal.lean ====
section
/-! DEFINITION. bit_reversal_permutation (42_bit_reversal_permutation.md): the function, the master table, the view of an instance and the reordering pass. -/

namespace Sys2Proof.Machine

/-- `bitrev_m(i)`: the m-bit binary representation of i read backwards (R165). -/
def bitrev : Nat → Nat → Nat
  | 0, _ => 0
  | m + 1, i => i % 2 * 2 ^ m + bitrev m (i / 2)

/-- `BRMASTER[i] = bitrev_12(i)` (R166); "a model may compute `bitrev_12` instead of holding a table". -/
def brMaster (i : Nat) : Nat := bitrev 12 i

/-- An instance's bit-reversal index table: `BR_N[i] = BRMASTER[i * bitRevFactor]` (R167). -/
def brView (c : ComplexInstance) (i : Nat) : Nat := brMaster (i * c.bitRevFactor)

/-- Complex elements i and j of the buffer at b exchanged, patterns moved unchanged (R168). -/
def exchange (b i j : Nat) (m : Memory) : Except Fault Memory := do
  let x ← cget m b i
  let y ← cget m b j
  let m ← cput m b i y
  cput m b j x

/-- `BitReverse(c, b)` (R168). -/
def bitReverse (c : ComplexInstance) (b : Nat) (m : Memory) : Except Fault Memory :=
  forUpTo c.bitRevLength
    (fun i m => if i < brView c i then exchange b i (brView c i) m else .ok m) m

end Sys2Proof.Machine
end

