-- ==== Sys2Proof/Machine/Numerics.lean ====
section
/-! DEFINITION. The numerics record NUM (40_numerics.md R120) with its default operations (R121 to R137): half precision, the accumulator, the correctly rounded square root and the natural logarithm. -/

namespace Sys2Proof.Machine

/-- An IEEE 754 interchange format: widths of the exponent and fraction fields (40_numerics.md R123). -/
structure FloatFormat where
  expBits : Nat
  fracBits : Nat
deriving DecidableEq, Repr

/-- H, binary16 (R121). -/
def formatH : FloatFormat := ⟨5, 10⟩

/-- A, binary32 (R122). -/
def formatA : FloatFormat := ⟨8, 23⟩

/-- The bias B = 2^(E-1) - 1 (R123). -/
def formatBias (f : FloatFormat) : Nat := 2 ^ (f.expBits - 1) - 1

/-- Every finite value of the format is an integer times 2^-scale, the spacing of its subnormals: scale = B - 1 + F
(R123: 24 for H, 149 for A). -/
def formatScale (f : FloatFormat) : Nat := formatBias f - 1 + f.fracBits

/-- The exponent field of infinities and NaNs. -/
def topExponent (f : FloatFormat) : Nat := 2 ^ f.expBits - 1

/-- The pattern of +infinity. -/
def infinityPattern (f : FloatFormat) : Nat := topExponent f * 2 ^ f.fracBits

/-- The canonical quiet NaN: `QNAN_H` = 0x7E00, `QNAN_A` = 0x7FC00000 (R125, R128). -/
def quietNaN (f : FloatFormat) : Nat := infinityPattern f + 2 ^ (f.fracBits - 1)

/-- The sign bit s of a pattern. -/
def signOf (f : FloatFormat) (p : Nat) : Bool := p.testBit (f.expBits + f.fracBits)

/-- The exponent field e of a pattern. -/
def expField (f : FloatFormat) (p : Nat) : Nat := p / 2 ^ f.fracBits % 2 ^ f.expBits

/-- The fraction field f of a pattern. -/
def fracField (f : FloatFormat) (p : Nat) : Nat := p % 2 ^ f.fracBits

/-- NaN: exponent field all ones and a non-zero fraction (R123). -/
def isNaN (f : FloatFormat) (p : Nat) : Bool := expField f p == topExponent f && fracField f p != 0

/-- An infinity: exponent field all ones and a zero fraction (R123). -/
def isInfinite (f : FloatFormat) (p : Nat) : Bool := expField f p == topExponent f && fracField f p == 0

/-- The magnitude of a finite pattern in units of 2^-scale: f for a subnormal, (2^F + f) * 2^(e-1) for a normal
(R123). Of an infinity it is larger than that of every finite pattern. -/
def magnitudeOf (f : FloatFormat) (p : Nat) : Nat :=
  if expField f p = 0 then fracField f p
  else (2 ^ f.fracBits + fracField f p) * 2 ^ (expField f p - 1)

/-- The value of a finite pattern in units of 2^-scale. -/
def scaledValue (f : FloatFormat) (p : Nat) : Int :=
  if signOf f p then -(magnitudeOf f p : Int) else (magnitudeOf f p : Int)

/-- A zero of either sign. -/
def isZero (f : FloatFormat) (p : Nat) : Bool := magnitudeOf f p == 0

/-- A pattern from its sign and its other bits. -/
def withSign (f : FloatFormat) (neg : Bool) (p : Nat) : Nat :=
  (if neg then 2 ^ (f.expBits + f.fracBits) else 0) + p

/-- The number of bits of n (0 for 0). -/
def bitLength (n : Nat) : Nat := if n = 0 then 0 else Nat.log2 n + 1

/-- n / 2^drop rounded to the nearest integer, ties to even. -/
def roundShift (n drop : Nat) : Nat :=
  let q := n / 2 ^ drop
  let r := n % 2 ^ drop
  if 2 ^ drop < 2 * r ∨ (2 * r = 2 ^ drop ∧ q % 2 = 1) then q + 1 else q

/-- How many low bits of a magnitude do not fit: all below the subnormal spacing, and all below the F+1
significant bits. -/
def droppedBits (f : FloatFormat) (mag extra : Nat) : Nat := max extra (bitLength mag - (f.fracBits + 1))

/-- `round_X` (R124) of the real number mag * 2^-(scale + extra), without its sign: round to nearest, ties to even,
gradual underflow, overflow to infinity. A rounded significand q kept above k dropped units has the pattern
k * 2^F + q, for a subnormal (k = 0), a normal and a carry into the next binade alike. -/
def roundMagnitude (f : FloatFormat) (mag extra : Nat) : Nat :=
  let drop := droppedBits f mag extra
  min (infinityPattern f) ((drop - extra) * 2 ^ f.fracBits + roundShift mag drop)

/-- `round_X` (R124) with the sign of the result; for mag = 0 the zero of that sign. -/
def roundTo (f : FloatFormat) (neg : Bool) (mag extra : Nat) : Nat := withSign f neg (roundMagnitude f mag extra)

/-- R125 `h_add` for a format: the special cases, then one rounding of the exact sum. -/
def floatAdd (f : FloatFormat) (x y : Nat) : Nat :=
  if isNaN f x || isNaN f y then quietNaN f
  else if isInfinite f x && isInfinite f y then
    if signOf f x = signOf f y then x else quietNaN f
  else if isInfinite f x then x
  else if isInfinite f y then y
  else
    let v := scaledValue f x + scaledValue f y
    let neg := if v = 0 then signOf f x && signOf f y else decide (v < 0)
    roundTo f neg v.natAbs 0

/-- R125 `h_mul` for a format: the special cases, then one rounding of the exact product. -/
def floatMul (f : FloatFormat) (x y : Nat) : Nat :=
  let z := signOf f x ^^ signOf f y
  if isNaN f x || isNaN f y then quietNaN f
  else if isInfinite f x && isZero f y || isZero f x && isInfinite f y then quietNaN f
  else if isInfinite f x || isInfinite f y then withSign f z (infinityPattern f)
  else roundTo f z (magnitudeOf f x * magnitudeOf f y) (formatScale f)

/-- R128, conversion of a pattern of format f to format g: NaN becomes the canonical NaN, infinities and zeros keep
their sign, a finite value is rounded once (exactly where g is the wider format). -/
def floatConvert (f g : FloatFormat) (x : Nat) : Nat :=
  if isNaN f x then quietNaN g
  else if isInfinite f x then withSign g (signOf f x) (infinityPattern g)
  else
    roundTo g (signOf f x) (magnitudeOf f x * 2 ^ (formatScale g - formatScale f))
      (formatScale f - formatScale g)

/-- Bit by bit: the largest r' = r + (bits below 2^k) with r' * r' ≤ n. -/
def isqrtFrom : Nat → Nat → Nat → Nat
  | 0, _, r => r
  | k + 1, n, r => isqrtFrom k n (if (r + 2 ^ k) * (r + 2 ^ k) ≤ n then r + 2 ^ k else r)

/-- The integer square root: the largest r with r * r ≤ n. -/
def isqrt (n : Nat) : Nat := isqrtFrom (Nat.log2 n / 2 + 1) n 0

/-- R130 `a_sqrt` for a format. The root of mag * 2^-scale is the root of mag * 2^scale in units of 2^-scale; its
integer part with one more bit that says whether it is inexact rounds as the exact root does. -/
def floatSqrt (f : FloatFormat) (x : Nat) : Nat :=
  if isNaN f x then quietNaN f
  else if isZero f x then x
  else if signOf f x then quietNaN f
  else if isInfinite f x then x
  else
    let n := magnitudeOf f x * 2 ^ formatScale f
    let r := isqrt n
    roundTo f false (2 * r + (if r * r = n then 0 else 1)) 1

/-- Fraction bits of the fixed-point logarithm. DESIGN CHOICE, log entry 8. -/
def lnPrecision : Nat := 192

/-- Terms of the series of the fixed-point logarithm. DESIGN CHOICE, log entry 8. -/
def lnTerms : Nat := 64

/-- The series z + z^3/3 + z^5/5 + ... from the term t = z^j on, with z^2 = a / b, each term truncated. -/
def atanhSeries : Nat → Nat → Nat → Nat → Nat → Nat
  | 0, _, _, _, _ => 0
  | k + 1, t, a, b, j => t / j + atanhSeries k (t * a / b) a b (j + 2)

/-- The inverse hyperbolic tangent of a / b, for 0 ≤ a / b ≤ 1/3, in units of 2^-lnPrecision, truncated. -/
def atanhFixed (a b : Nat) : Nat := atanhSeries lnTerms (a * 2 ^ lnPrecision / b) (a * a) (b * b) 1

/-- ln 2 = 2 artanh(1/3) in units of 2^-lnPrecision. -/
def ln2Fixed : Nat := 2 * atanhFixed 1 3

/-- The exponent e with mag / 2^e in [3/4, 3/2). -/
def lnExponent (mag : Nat) : Nat :=
  if 3 * 2 ^ Nat.log2 mag ≤ 2 * mag then Nat.log2 mag + 1 else Nat.log2 mag

/-- ln(mag * 2^-scale) in units of 2^-lnPrecision: (e - scale) ln 2 + 2 artanh((w - 1)/(w + 1)) with
w = mag / 2^e in [3/4, 3/2). -/
def lnFixed (mag scale : Nat) : Int :=
  let e := lnExponent mag
  let p := 2 ^ e
  let lnw : Int :=
    if p ≤ mag then 2 * (atanhFixed (mag - p) (mag + p) : Int) else -(2 * (atanhFixed (p - mag) (mag + p) : Int))
  ((e : Int) - (scale : Int)) * (ln2Fixed : Int) + lnw

/-- R130 `a_log` for a format. The logarithm of a finite positive value other than 1 is no multiple of any power of
two, so its enclosure in units of 2^-lnPrecision is rounded from its middle; that the width of the enclosure never
matters is DEDUCED, log entry 8. -/
def floatLog (f : FloatFormat) (x : Nat) : Nat :=
  if isNaN f x then quietNaN f
  else if isZero f x then withSign f true (infinityPattern f)
  else if signOf f x then quietNaN f
  else if isInfinite f x then x
  else if magnitudeOf f x = 2 ^ formatScale f then 0
  else
    let v := 2 * lnFixed (magnitudeOf f x) (formatScale f) + 1
    roundTo f (decide (v < 0)) v.natAbs (lnPrecision + 1 - formatScale f)

/-- R137 `h_lt` for a format: neither is NaN and the value of x is less than that of y. An infinity's magnitude
exceeds every finite one, and the two zeros have the same value. -/
def floatLt (f : FloatFormat) (x y : Nat) : Bool :=
  !isNaN f x && !isNaN f y && decide (scaledValue f x < scaledValue f y)

/-- The record `NUM` (R120): every floating-point operation of the block is one of these. -/
structure Num where
  hAdd : Half → Half → Half
  hSub : Half → Half → Half
  hMul : Half → Half → Half
  hNeg : Half → Half
  hLt : Half → Half → Bool
  hIsNaN : Half → Bool
  aOfH : Half → Accum
  hOfA : Accum → Half
  aAdd : Accum → Accum → Accum
  aMul : Accum → Accum → Accum
  aSqrt : Accum → Accum
  aLog : Accum → Accum

/-- `h_add` (R125). -/
def halfAdd (x y : Half) : Half := BitVec.ofNat 16 (floatAdd formatH x.toNat y.toNat)

/-- `h_neg`: the sign bit is flipped and nothing else, for every pattern (R126). -/
def halfNeg (x : Half) : Half := x ^^^ 0x8000#16

/-- `h_isnan` (R123). -/
def halfIsNaN (x : Half) : Bool := isNaN formatH x.toNat

/-- `h_sub`: NaN first, otherwise the sum with the negated operand (R125). -/
def halfSub (x y : Half) : Half :=
  if halfIsNaN x || halfIsNaN y then BitVec.ofNat 16 (quietNaN formatH) else halfAdd x (halfNeg y)

/-- `h_mul` (R125). -/
def halfMul (x y : Half) : Half := BitVec.ofNat 16 (floatMul formatH x.toNat y.toNat)

/-- `h_lt` (R137). -/
def halfLt (x y : Half) : Bool := floatLt formatH x.toNat y.toNat

/-- `a_of_h` (R128), exact. -/
def accOfHalf (x : Half) : Accum := BitVec.ofNat 32 (floatConvert formatH formatA x.toNat)

/-- `h_of_a` (R128), one rounding. -/
def halfOfAcc (x : Accum) : Half := BitVec.ofNat 16 (floatConvert formatA formatH x.toNat)

/-- `a_add` (R129). -/
def accAdd (x y : Accum) : Accum := BitVec.ofNat 32 (floatAdd formatA x.toNat y.toNat)

/-- `a_mul` (R129). -/
def accMul (x y : Accum) : Accum := BitVec.ofNat 32 (floatMul formatA x.toNat y.toNat)

/-- `a_sqrt` (R130). -/
def accSqrt (x : Accum) : Accum := BitVec.ofNat 32 (floatSqrt formatA x.toNat)

/-- `a_log` (R130). -/
def accLog (x : Accum) : Accum := BitVec.ofNat 32 (floatLog formatA x.toNat)

/-- The default `NUM`, which "the hardware specified here has" (R120). Log entry 7. -/
def num : Num where
  hAdd := halfAdd
  hSub := halfSub
  hMul := halfMul
  hNeg := halfNeg
  hLt := halfLt
  hIsNaN := halfIsNaN
  aOfH := accOfHalf
  hOfA := halfOfAcc
  aAdd := accAdd
  aMul := accMul
  aSqrt := accSqrt
  aLog := accLog

/-- `ZERO_H` (R136). -/
def zeroH : Half := 0x0000#16

/-- `ONE_H` (R136). -/
def oneH : Half := 0x3C00#16

/-- `HALF_H` (R136). -/
def halfH : Half := 0x3800#16

/-- `ZERO_A` (R136). -/
def zeroA : Accum := 0x00000000#32

/-- `ispow2(n)` (R139): n = 2^m for some m. -/
def isPow2 (n : Nat) : Bool := 2 ^ Nat.log2 n == n

end Sys2Proof.Machine
end

