-- ==== Sys2Proof/Machine/Twiddle.lean ====
section
/-! DEFINITION. twiddle_rom (41_twiddle_rom.md): the quarter-wave table of R152 as the spec prints it, the master table TW built from it (R153), and its strided reading (R155, R156). -/

namespace Sys2Proof.Machine

/-- R152, the lines headed 0 to 240. -/
def quarterRows0 : List Nat := [
  0x3C003C003C003C003C003C003C003C003C003C003C003C003C003C003C003BFF,
  0x3BFF3BFF3BFF3BFF3BFF3BFF3BFF3BFF3BFF3BFE3BFE3BFE3BFE3BFE3BFE3BFE,
  0x3BFE3BFD3BFD3BFD3BFD3BFD3BFD3BFC3BFC3BFC3BFC3BFC3BFB3BFB3BFB3BFB,
  0x3BFA3BFA3BFA3BFA3BF93BF93BF93BF93BF83BF83BF83BF83BF73BF73BF73BF6,
  0x3BF63BF63BF63BF53BF53BF53BF43BF43BF43BF33BF33BF23BF23BF23BF13BF1,
  0x3BF13BF03BF03BEF3BEF3BEF3BEE3BEE3BED3BED3BED3BEC3BEC3BEB3BEB3BEA,
  0x3BEA3BE93BE93BE83BE83BE73BE73BE63BE63BE53BE53BE43BE43BE33BE33BE2,
  0x3BE23BE13BE13BE03BE03BDF3BDF3BDE3BDD3BDD3BDC3BDC3BDB3BDA3BDA3BD9,
  0x3BD93BD83BD73BD73BD63BD63BD53BD43BD43BD33BD23BD23BD13BD03BD03BCF,
  0x3BCE3BCE3BCD3BCC3BCB3BCB3BCA3BC93BC93BC83BC73BC63BC63BC53BC43BC3,
  0x3BC33BC23BC13BC03BC03BBF3BBE3BBD3BBC3BBC3BBB3BBA3BB93BB83BB73BB7,
  0x3BB63BB53BB43BB33BB23BB23BB13BB03BAF3BAE3BAD3BAC3BAB3BAB3BAA3BA9,
  0x3BA83BA73BA63BA53BA43BA33BA23BA13BA03B9F3B9E3B9E3B9D3B9C3B9B3B9A,
  0x3B993B983B973B963B953B943B933B923B913B903B8F3B8E3B8C3B8B3B8A3B89,
  0x3B883B873B863B853B843B833B823B813B803B7F3B7D3B7C3B7B3B7A3B793B78,
  0x3B773B763B743B733B723B713B703B6F3B6E3B6C3B6B3B6A3B693B683B673B65]

/-- R152, the lines headed 256 to 496. -/
def quarterRows1 : List Nat := [
  0x3B643B633B623B603B5F3B5E3B5D3B5C3B5A3B593B583B573B553B543B533B52,
  0x3B503B4F3B4E3B4C3B4B3B4A3B493B473B463B453B433B423B413B3F3B3E3B3D,
  0x3B3B3B3A3B393B373B363B353B333B323B303B2F3B2E3B2C3B2B3B2A3B283B27,
  0x3B253B243B223B213B203B1E3B1D3B1B3B1A3B183B173B163B143B133B113B10,
  0x3B0E3B0D3B0B3B0A3B083B073B053B043B023B013AFF3AFE3AFC3AFB3AF93AF7,
  0x3AF63AF43AF33AF13AF03AEE3AED3AEB3AE93AE83AE63AE53AE33AE13AE03ADE,
  0x3ADD3ADB3AD93AD83AD63AD53AD33AD13AD03ACE3ACC3ACB3AC93AC73AC63AC4,
  0x3AC23AC13ABF3ABD3ABC3ABA3AB83AB63AB53AB33AB13AB03AAE3AAC3AAA3AA9,
  0x3AA73AA53AA33AA23AA03A9E3A9C3A9B3A993A973A953A933A923A903A8E3A8C,
  0x3A8A3A893A873A853A833A813A7F3A7E3A7C3A7A3A783A763A743A733A713A6F,
  0x3A6D3A6B3A693A673A653A643A623A603A5E3A5C3A5A3A583A563A543A523A50,
  0x3A4F3A4D3A4B3A493A473A453A433A413A3F3A3D3A3B3A393A373A353A333A31,
  0x3A2F3A2D3A2B3A293A273A253A233A213A1F3A1D3A1B3A193A173A153A133A11,
  0x3A0F3A0D3A0B3A093A073A043A023A0039FE39FC39FA39F839F639F439F239F0,
  0x39ED39EB39E939E739E539E339E139DF39DC39DA39D839D639D439D239D039CD,
  0x39CB39C939C739C539C339C039BE39BC39BA39B839B539B339B139AF39AD39AA]

/-- R152, the lines headed 512 to 752. -/
def quarterRows2 : List Nat := [
  0x39A839A639A439A1399F399D399B39993996399439923990398D398B39893986,
  0x398439823980397D397B39793976397439723970396D396B3969396639643962,
  0x395F395D395B3958395639543951394F394D394A3948394639433941393E393C,
  0x393A3937393539333930392E392B3929392739243922391F391D391B39183916,
  0x39133911390E390C3909390739053902390038FD38FB38F838F638F338F138EE,
  0x38EC38EA38E738E538E238E038DD38DB38D838D638D338D138CE38CC38C938C7,
  0x38C438C138BF38BC38BA38B738B538B238B038AD38AB38A838A638A338A0389E,
  0x389B3899389638943891388E388C3889388738843881387F387C387A38773874,
  0x3872386F386D386A386738653862385F385D385A3858385538523850384D384A,
  0x3848384538423840383D383A3838383538323830382D382A3828382538223820,
  0x381D381A381738153812380F380D380A38073805380237FE37F937F337EE37E8,
  0x37E337DD37D837D237CD37C837C237BD37B737B237AC37A637A1379B37963790,
  0x378B37853780377A3775376F376A3764375E37593753374E37483742373D3737,
  0x3732372C37263721371B37153710370A370536FF36F936F436EE36E836E336DD,
  0x36D736D236CC36C636C136BB36B536AF36AA36A4369E36993693368D36873682,
  0x367C36763670366B3665365F36593654364E36483642363C36373631362B3625]

/-- R152, the lines headed 768 to 1008. -/
def quarterRows3 : List Nat := [
  0x361F361A3614360E3608360235FD35F735F135EB35E535DF35DA35D435CE35C8,
  0x35C235BC35B635B135AB35A5359F35993593358D35873581357C35763570356A,
  0x3564355E35583552354C35463540353A3534352F35293523351D35173511350B,
  0x350534FF34F934F334ED34E734E134DB34D534CF34C934C334BD34B734B134AB,
  0x34A5349F34993493348D34873481347B3475346F34693463345D34573451344B,
  0x3444343E34383432342C34263420341A3414340E3408340233F733EB33DF33D3,
  0x33C633BA33AE33A233963389337D337133653359334C334033343328331B330F,
  0x330332F732EA32DE32D232C632B932AD32A132943288327C326F32633257324B,
  0x323E323232263219320D320131F431E831DB31CF31C331B631AA319E31913185,
  0x3179316C316031533147313B312E31223115310930FD30F030E430D730CB30BE,
  0x30B230A63099308D308030743067305B304E304230363029301D301030042FEF,
  0x2FD62FBD2FA42F8B2F722F592F402F272F0E2EF52EDC2EC32EAA2E912E782E5F,
  0x2E462E2D2E142DFB2DE22DC92DB02D972D7E2D652D4C2D332D1A2D002CE72CCE,
  0x2CB52C9C2C832C6A2C512C382C1F2C062BD92BA72B752B432B112ADE2AAC2A7A,
  0x2A482A1629E329B1297F294D291B28E828B628842852281F27DA2776271126AD,
  0x264825E4257F251B24B6245223DB23112248217F20B61FDB1E481CB61A481648]

/-- The 64 full lines of R152, sixteen patterns a line, the first pattern of a line in its highest 16 bits, as the
spec prints them. -/
def quarterRows : List Nat := quarterRows0 ++ quarterRows1 ++ quarterRows2 ++ quarterRows3

/-- `Q[r]` for r in 0 .. 1024 (R152); the last line of the table holds the one pattern `Q[1024]` = 0x0000. -/
def quarterCos (r : Nat) : Half :=
  BitVec.ofNat 16 ((quarterRows.getD (r / 16) 0) >>> (16 * (15 - r % 16)))

/-- `QN = NMAX/4` (R152). -/
def quarterLength : Nat := Config.nmax / 4

/-- `nz(x)` of R153: `h_neg(x)` when x is not a zero, and 0x0000 when x is a zero. -/
def negNonzero (x : Half) : Half := if isZero formatH x.toNat then zeroH else num.hNeg x

/-- A ROM entry `(c, s)`: patterns of +cos and +sin (R151). -/
structure RomEntry where
  c : Half
  s : Half
deriving DecidableEq, Repr

/-- `TW[k]` for k in 0 .. `NMAX`-1, from the quarter-wave table by R153's four quadrants. -/
def twiddle (k : Nat) : RomEntry :=
  let r := k % quarterLength
  match k / quarterLength with
  | 0 => ⟨quarterCos r, quarterCos (quarterLength - r)⟩
  | 1 => ⟨negNonzero (quarterCos (quarterLength - r)), quarterCos r⟩
  | 2 => ⟨negNonzero (quarterCos r), negNonzero (quarterCos (quarterLength - r))⟩
  | _ => ⟨quarterCos (quarterLength - r), negNonzero (quarterCos r)⟩

/-- Entry k of the view of stride `stride` of the master ROM (R155, R156): `TW[k * stride]`. -/
def twiddleView (stride k : Nat) : RomEntry := twiddle (k * stride)

end Sys2Proof.Machine
end

