-- ==== Sys2Proof/Machine/Butterfly.lean ====
section
/-! DEFINITION. fft_butterfly_radix2 and fft_butterfly_radix4 (43_fft_butterfly_radix2.md, 44_fft_butterfly_radix4.md). Every floating-point operation stands in the order of the rules and is performed always, also for a twiddle of 1 (R183, R195). -/

namespace Sys2Proof.Machine

/-- Complex addition, part by part, each part rounded once. -/
def complexAdd (x y : Complex16) : Complex16 := ⟨num.hAdd x.re y.re, num.hAdd x.im y.im⟩

/-- Complex subtraction, part by part, each part rounded once. -/
def complexSub (x y : Complex16) : Complex16 := ⟨num.hSub x.re y.re, num.hSub x.im y.im⟩

/-- t - j*u, as R192 forms it from t1 and t3. -/
def subTimesJ (t u : Complex16) : Complex16 := ⟨num.hAdd t.re u.im, num.hSub t.im u.re⟩

/-- t + j*u, as R192 forms it from t1 and t3. -/
def addTimesJ (t u : Complex16) : Complex16 := ⟨num.hSub t.re u.im, num.hAdd t.im u.re⟩

/-- `TwMul(u, w, inv)`: by c - j*s when `inv` is false, by c + j*s when it is true (R180). -/
def twMul (u : Complex16) (w : RomEntry) (inv : Bool) : Complex16 :=
  let p1 := num.hMul u.re w.c
  let p2 := num.hMul u.im w.s
  let p3 := num.hMul u.im w.c
  let p4 := num.hMul u.re w.s
  if inv then ⟨num.hSub p1 p2, num.hAdd p3 p4⟩ else ⟨num.hAdd p1 p2, num.hSub p3 p4⟩

/-- The two results of the two-point butterfly on (a, b), in the places i0 and i1 (R182). -/
def bfly2Values (a b : Complex16) (w : RomEntry) (inv : Bool) : Complex16 × Complex16 :=
  (complexAdd a b, twMul (complexSub a b) w inv)

/-- `Bfly2(b, i0, i1, w, inv)` (R182). -/
def bfly2 (b i0 i1 : Nat) (w : RomEntry) (inv : Bool) (m : Memory) : Except Fault Memory := do
  let x0 ← cget m b i0
  let x1 ← cget m b i1
  let y := bfly2Values x0 x1 w inv
  let m ← cput m b i0 y.1
  cput m b i1 y.2

/-- The four results of the four-point butterfly, in the places i0, i1, i2, i3: y0, y2, y1, y3 (R192, R193). -/
def bfly4Values (a b c d : Complex16) (w1 w2 w3 : RomEntry) (inv : Bool) :
    Complex16 × Complex16 × Complex16 × Complex16 :=
  let t0 := complexAdd a c
  let t1 := complexSub a c
  let t2 := complexAdd b d
  let t3 := complexSub b d
  let y0 := complexAdd t0 t2
  let u2 := complexSub t0 t2
  let u1 := if inv then addTimesJ t1 t3 else subTimesJ t1 t3
  let u3 := if inv then subTimesJ t1 t3 else addTimesJ t1 t3
  (y0, twMul u2 w2 inv, twMul u1 w1 inv, twMul u3 w3 inv)

/-- `Bfly4(b, i0, i1, i2, i3, w1, w2, w3, inv)` (R192). -/
def bfly4 (b i0 i1 i2 i3 : Nat) (w1 w2 w3 : RomEntry) (inv : Bool) (m : Memory) : Except Fault Memory := do
  let x0 ← cget m b i0
  let x1 ← cget m b i1
  let x2 ← cget m b i2
  let x3 ← cget m b i3
  let y := bfly4Values x0 x1 x2 x3 w1 w2 w3 inv
  let m ← cput m b i0 y.1
  let m ← cput m b i1 y.2.1
  let m ← cput m b i2 y.2.2.1
  cput m b i3 y.2.2.2

end Sys2Proof.Machine
end

