-- ==== Sys2Proof/Machine/ComplexFft.lean ====
section
/-! DEFINITION. complex_fft_engine (45_complex_fft_engine.md): supported lengths, the making of a complex instance, the butterfly network, the inverse scaling, and the six commands. -/

namespace Sys2Proof.Machine

/-! ### Initialisation -/

/-- v is a power of two from `least` to `NMAX`: the shape of `CFFT_LENGTHS` (R203) and of `RFFT_LENGTHS`
(46_real_fft_adapter.md R232). -/
def lengthSupported (least v : Nat) : Bool := isPow2 v && (decide (least ≤ v) && decide (v ≤ Config.nmax))

/-- `CfftSupported(v)` (R203). -/
def cfftSupported (v : Nat) : Bool := lengthSupported Config.cfftMinLength v

/-- The pattern of 2^-m, `(15 - m) << 10` (R203; 10_state.md R31). -/
def reciprocalPattern (m : Nat) : Half := BitVec.ofNat 16 ((15 - m) <<< 10)

/-- `MakeCfft(tag, N)` (R203). -/
def makeCfft (tag : Tag) (n : Nat) : ComplexInstance where
  tag := tag
  fftLen := n
  twidCoefModifier := Config.nmax / n
  bitRevFactor := Config.nmax / n
  bitRevLength := n
  onebyfftLen := reciprocalPattern (Nat.log2 n)

/-- What the three complex initialisation commands make of a length: an instance with the command's tag, or nothing
when the length is unsupported (R204 to R206). -/
def makeCfftSlot (tag : Tag) (n : Nat) : Option Slot :=
  if cfftSupported n then some (.cfft (makeCfft tag n)) else none

/-! ### The butterfly network -/

/-- `Stage2(c, b, n, inv)`: N/n blocks of n/2 two-point butterflies, twiddles of stride NMAX/n (R208). -/
def stage2 (c : ComplexInstance) (b n : Nat) (inv : Bool) (m : Memory) : Except Fault Memory :=
  let st := c.fftLen / n * c.twidCoefModifier
  forUpTo (c.fftLen / n)
    (fun block m =>
      let g := block * n
      forUpTo (n / 2) (fun k m => bfly2 b (g + k) (g + k + n / 2) (twiddleView st k) inv m) m) m

/-- `Stage4(c, b, n, inv)`: N/n blocks of n/4 four-point butterflies (R209). -/
def stage4 (c : ComplexInstance) (b n : Nat) (inv : Bool) (m : Memory) : Except Fault Memory :=
  let q := n / 4
  let st := c.fftLen / n * c.twidCoefModifier
  forUpTo (c.fftLen / n)
    (fun block m =>
      let g := block * n
      forUpTo q
        (fun k m =>
          bfly4 b (g + k) (g + k + q) (g + k + 2 * q) (g + k + 3 * q) (twiddleView st k) (twiddleView st (2 * k))
            (twiddleView st (3 * k)) inv m) m) m

/-- The stages of tag `RADIX2` from block size 2^k down to 2 (R210). -/
def networkRadix2 (c : ComplexInstance) (b : Nat) (inv : Bool) : Nat → Memory → Except Fault Memory
  | 0, m => .ok m
  | k + 1, m => do
    let m ← stage2 c b (2 ^ (k + 1)) inv m
    networkRadix2 c b inv k m

/-- The stages of tags `RADIX4` and `GENERAL` from block size 2^k down: radix-4 stages while the block size is 4 or
more, then one radix-2 stage if 2 remains (R210). -/
def networkRadix4 (c : ComplexInstance) (b : Nat) (inv : Bool) : Nat → Memory → Except Fault Memory
  | 0, m => .ok m
  | 1, m => stage2 c b 2 inv m
  | k + 2, m => do
    let m ← stage4 c b (2 ^ (k + 2)) inv m
    networkRadix4 c b inv k m

/-- `Network(c, b, inv)` (R210). Log entry 17. -/
def network (c : ComplexInstance) (b : Nat) (inv : Bool) (m : Memory) : Except Fault Memory :=
  match c.tag with
  | .radix2 => networkRadix2 c b inv (Nat.log2 c.fftLen) m
  | .radix4 => networkRadix4 c b inv (Nat.log2 c.fftLen) m
  | .general => networkRadix4 c b inv (Nat.log2 c.fftLen) m

/-- `Scale(c, b)`: every one of the 2N elements times `onebyfftLen` (R211). -/
def scale (c : ComplexInstance) (b : Nat) (m : Memory) : Except Fault Memory :=
  forUpTo (2 * c.fftLen)
    (fun i m => do
      let x ← memRead m (realElement b i)
      memWrite m (realElement b i) (num.hMul x c.onebyfftLen)) m

/-- The scaling of an inverse transform; a forward transform is not scaled (R211, R216). -/
def scaleIf (inv : Bool) (c : ComplexInstance) (b : Nat) (m : Memory) : Except Fault Memory :=
  if inv then scale c b m else .ok m

/-- The reordering pass where the `BITREV` bit asks for it (R216). -/
def reorderIf (br : Bool) (c : ComplexInstance) (b : Nat) (m : Memory) : Except Fault Memory :=
  if br then bitReverse c b m else .ok m

/-- The interleaved complex buffer of an instance: 2N elements (20_memory.md R70). -/
def complexBuffer (c : ComplexInstance) (b : Nat) : Buffer := ⟨b, 2 * c.fftLen⟩

/-- `CfftCore(c, b, inv, br)`: the two checks, all stages, the scaling of an inverse, the permutation (R216). -/
def cfftCore (c : ComplexInstance) (b : Nat) (inv br : Bool) (m : Memory) : Except Fault Memory :=
  if inRange (complexBuffer c b) = false then .error .outOfRange
  else if allWritten m b (2 * c.fftLen) = false then .error .unwrittenRead
  else do
    let m ← network c b inv m
    let m ← scaleIf inv c b m
    reorderIf br c b m

/-! ### The commands -/

/-- The complex instance of the wanted tag in a slot's content, or the violation (R212). -/
def complexInstanceOf (tag : Tag) (r : Slot) : Except Fault ComplexInstance :=
  match r with
  | .invalid => .error .invalidInstance
  | .cfft c => if c.tag = tag then .ok c else .error .kindMismatch
  | .rfft _ => .error .kindMismatch
  | .mfcc _ => .error .kindMismatch

/-- A transform command on slot k: the slot's instance of the command's tag, run in place on the buffer at `A[0]`
(R213 to R215). -/
def complexTransform (tag : Tag) (k : BitVec 8) (inv br : Bool) (s : State) : Result :=
  match s.slotAt k with
  | none => .fault .badSlot
  | some r =>
    match complexInstanceOf tag r with
    | .error e => .fault e
    | .ok c => commit s (cfftCore c (inputArg s) inv br s.dmem)

/-- `CFFT_INIT` (R204). -/
def execCfftInit (k : BitVec 8) (s : State) : Result := finishInit s k (makeCfftSlot .general (lengthArg s))

/-- `CFFT_R2_INIT` (R205). -/
def execCfftR2Init (k : BitVec 8) (s : State) : Result := finishInit s k (makeCfftSlot .radix2 (lengthArg s))

/-- `CFFT_R4_INIT` (R206). -/
def execCfftR4Init (k : BitVec 8) (s : State) : Result := finishInit s k (makeCfftSlot .radix4 (lengthArg s))

/-- `CFFT` (R213). -/
def execCfft (k : BitVec 8) (ifft bitrev : Bool) (s : State) : Result := complexTransform .general k ifft bitrev s

/-- `CFFT_R2` (R214). -/
def execCfftR2 (k : BitVec 8) (ifft bitrev : Bool) (s : State) : Result := complexTransform .radix2 k ifft bitrev s

/-- `CFFT_R4` (R215). -/
def execCfftR4 (k : BitVec 8) (ifft bitrev : Bool) (s : State) : Result := complexTransform .radix4 k ifft bitrev s

end Sys2Proof.Machine
end

