-- ==== Sys2Proof/Machine/MelFilterbank.lean ====
section
/-! DEFINITION. mel_filterbank (47_mel_filterbank.md): the sparse weighted sum over spectral bins. -/

namespace Sys2Proof.Machine

/-- An element read as an unsigned 16-bit integer, as in `filterPos` and `filterLengths` (R251). -/
def memReadNat (m : Memory) (a : Nat) : Except Fault Nat := do
  let v ← memRead m a
  .ok v.toNat

/-- One term of a weighted sum in the accumulator format: acc + x * w (R252; 48_dct_core.md R261). -/
def accumulate (acc : Accum) (x w : Half) : Accum := num.aAdd acc (num.aMul (num.aOfH x) (num.aOfH w))

/-- The weighted sum of one filter: `len` magnitudes from bin `pos` on with the weights from offset `off` on, in
ascending order (R252). -/
def melSum (f : MfccInstance) (mag pos off len : Nat) (m : Memory) : Except Fault Accum :=
  forUpTo len
    (fun j acc => do
      let x ← memRead m (realElement mag (pos + j))
      let w ← memRead m (filterCoefficient f.filterCoefs off j)
      .ok (accumulate acc x w)) zeroA

/-- `MelEnergy(m, mag, i, off)`: the energy of filter i, rounded once to half precision, and the filter's length
(R252, R253). -/
def melEnergy (f : MfccInstance) (mag i off : Nat) (m : Memory) : Except Fault (Half × Nat) := do
  let pos ← memReadNat m (filterEntry f.filterPos i)
  let len ← memReadNat m (filterEntry f.filterLengths i)
  if f.fftLen / 2 + 1 < pos + len then .error .filterRange
  else do
    let acc ← melSum f mag pos off len m
    .ok (num.hOfA acc, len)

end Sys2Proof.Machine
end

