-- ==== Sys2Proof/Machine/DctCore.lean ====
section
/-! DEFINITION. dct_core (48_dct_core.md): the projection of the log-energies through the dense DCT table. -/

namespace Sys2Proof.Machine

/-- The sum of one row: log-energies i = 0 .. F-1 with the weights of row j, in ascending i (R261). -/
def dctSum (f : MfccInstance) (le j : Nat) (m : Memory) : Except Fault Accum :=
  forUpTo f.nbMelFilters
    (fun i acc => do
      let c ← memRead m (dctCoefficient f.dctCoefs f.nbMelFilters j i)
      let e ← memRead m (realElement le i)
      .ok (accumulate acc c e)) zeroA

/-- `DctProject(m, le, out)`: D outputs, each rounded once to half precision (R261). -/
def dctProject (f : MfccInstance) (le out : Nat) (m : Memory) : Except Fault Memory :=
  forUpTo f.nbDctOutputs
    (fun j m => do
      let acc ← dctSum f le j m
      memWrite m (realElement out j) (num.hOfA acc)) m

end Sys2Proof.Machine
end

