-- ==== Sys2Proof/Machine/RealFft.lean ====
section
/-! DEFINITION. real_fft_adapter (46_real_fft_adapter.md): the real transform, forward and inverse, and its two commands. -/

namespace Sys2Proof.Machine

/-- `RfftSupported(v)` (R232). -/
def rfftSupported (v : Nat) : Bool := lengthSupported Config.rfftMinLength v

/-- `MakeRfft(N)` (R232). -/
def makeRfft (n : Nat) : RealInstance where
  fftLenRFFT := n
  cfft := makeCfft .general (n / 2)
  rfftTwidModifier := Config.nmax / n

/-- What `RFFT_INIT` makes of a length (R233). -/
def makeRfftSlot (n : Nat) : Option Slot := if rfftSupported n then some (.rfft (makeRfft n)) else none

/-- Bin k of the forward split from a = Z[k] and b = Z[M-k], the operations in the order of R236. -/
def splitForward (a b : Complex16) (w : RomEntry) : Complex16 :=
  let sr := num.hAdd a.re b.re
  let si := num.hSub a.im b.im
  let dr := num.hSub a.re b.re
  let di := num.hAdd a.im b.im
  ⟨num.hMul halfH (num.hSub (num.hAdd sr (num.hMul w.c di)) (num.hMul w.s dr)),
    num.hMul halfH (num.hSub (num.hSub si (num.hMul w.c dr)) (num.hMul w.s di))⟩

/-- Element k of the inverse pre-processing from a = X[k] and b = X[M-k], the operations in the order of R238. -/
def splitInverse (a b : Complex16) (w : RomEntry) : Complex16 :=
  let sr := num.hAdd a.re b.re
  let si := num.hSub a.im b.im
  let dr := num.hSub a.re b.re
  let di := num.hAdd a.im b.im
  ⟨num.hMul halfH (num.hSub (num.hSub sr (num.hMul w.c di)) (num.hMul w.s dr)),
    num.hMul halfH (num.hSub (num.hAdd si (num.hMul w.c dr)) (num.hMul w.s di))⟩

/-- Iteration k (1 .. M-1) of the split loop of `split`: it reads elements k and M-k of the buffer `inp` and writes
element k of the buffer `out` (R236, R238). -/
def splitStep (split : Complex16 → Complex16 → RomEntry → Complex16) (r : RealInstance) (inp out k : Nat)
    (m : Memory) : Except Fault Memory := do
  let a ← cget m inp k
  let b ← cget m inp (r.fftLenRFFT / 2 - k)
  cput m out k (split a b (twiddleView r.rfftTwidModifier k))

/-- `for k in 1 .. M-1` of R236 and R238. -/
def splitLoop (split : Complex16 → Complex16 → RomEntry → Complex16) (r : RealInstance) (inp out : Nat)
    (m : Memory) : Except Fault Memory :=
  forUpTo (r.fftLenRFFT / 2 - 1) (fun j m => splitStep split r inp out (j + 1) m) m

/-- `RfftForward(r, in, out)` (R236). The half-length transform runs in the input buffer (R237). -/
def rfftForward (r : RealInstance) (inp out : Nat) (m : Memory) : Except Fault Memory := do
  let m ← cfftCore r.cfft inp false true m
  let z ← cget m inp 0
  let m ← cput m out 0 ⟨num.hAdd z.re z.im, zeroH⟩
  let m ← cput m out (r.fftLenRFFT / 2) ⟨num.hSub z.re z.im, zeroH⟩
  splitLoop splitForward r inp out m

/-- `RfftInverse(r, in, out)` (R238). The imaginary parts of bins 0 and M are not read (R239). -/
def rfftInverse (r : RealInstance) (inp out : Nat) (m : Memory) : Except Fault Memory := do
  let x0 ← memRead m (complexRe inp 0)
  let xm ← memRead m (complexRe inp (r.fftLenRFFT / 2))
  let m ← cput m out 0 ⟨num.hMul halfH (num.hAdd x0 xm), num.hMul halfH (num.hSub x0 xm)⟩
  let m ← splitLoop splitInverse r inp out m
  cfftCore r.cfft out true true m

/-- The time-domain buffer of a real instance: N elements (R234). -/
def timeBuffer (r : RealInstance) (b : Nat) : Buffer := ⟨b, r.fftLenRFFT⟩

/-- The spectrum buffer of a real instance: N + 2 elements (R234). -/
def spectrumBuffer (r : RealInstance) (b : Nat) : Buffer := ⟨b, r.fftLenRFFT + 2⟩

/-- The body of `RFFT` after the slot's checks (R235). -/
def rfftRun (r : RealInstance) (inv : Bool) (inp out : Nat) (m : Memory) : Except Fault Memory :=
  let bufIn := if inv then spectrumBuffer r inp else timeBuffer r inp
  let bufOut := if inv then timeBuffer r out else spectrumBuffer r out
  if inRange bufIn = false ∨ inRange bufOut = false then .error .outOfRange
  else if overlap bufIn bufOut then .error .bufferAlias
  else if inv then rfftInverse r inp out m
  else rfftForward r inp out m

/-- The real instance in a slot's content, or the violation (R235). -/
def realInstanceOf (r : Slot) : Except Fault RealInstance :=
  match r with
  | .invalid => .error .invalidInstance
  | .rfft x => .ok x
  | .cfft _ => .error .kindMismatch
  | .mfcc _ => .error .kindMismatch

/-- `RFFT_INIT` (R233). -/
def execRfftInit (k : BitVec 8) (s : State) : Result := finishInit s k (makeRfftSlot (lengthArg s))

/-- `RFFT` (R235). -/
def execRfft (k : BitVec 8) (ifft : Bool) (s : State) : Result :=
  match s.slotAt k with
  | none => .fault .badSlot
  | some r =>
    match realInstanceOf r with
    | .error e => .fault e
    | .ok x => commit s (rfftRun x ifft (inputArg s) (outputArg s) s.dmem)

end Sys2Proof.Machine
end

