-- ==== Sys2Proof/Machine/Mfcc.lean ====
section
/-! DEFINITION. mfcc_extractor (49_mfcc_extractor.md): the six steps and the two commands. -/

namespace Sys2Proof.Machine

/-! ### Initialisation -/

/-- The smallest length a backend supports. -/
def backendMinLength : MfccBackend → Nat
  | .real => Config.rfftMinLength
  | .complex => Config.cfftMinLength

/-- `MfccSupported(v)`: `RfftSupported(v)` in a `REAL` build, `CfftSupported(v)` in a `COMPLEX` build (R272). -/
def mfccSupported (be : MfccBackend) (v : Nat) : Bool := lengthSupported (backendMinLength be) v

/-- The embedded backend for a length (R273). -/
def makeBackend (be : MfccBackend) (n : Nat) : Backend :=
  match be with
  | .real => .real (makeRfft n)
  | .complex => .complex (makeCfft .general n)

/-- What `MFCC_INIT` makes of the eight argument registers: the dimensions and references "stored verbatim", whatever
they are (R272, R273). -/
def makeMfccSlot (be : MfccBackend) (s : State) : Option Slot :=
  if mfccSupported be (lengthArg s) then
    some (.mfcc
      { fftLen := s.arg 0
        nbMelFilters := s.arg 1
        nbDctOutputs := s.arg 2
        dctCoefs := s.arg 3
        filterPos := s.arg 4
        filterLengths := s.arg 5
        filterCoefs := s.arg 6
        windowCoefs := s.arg 7
        backend := makeBackend be (s.arg 0) })
  else none

/-! ### The six steps -/

/-- Where the windowed sample goes: consecutive elements for a real backend; for a complex backend the real parts of
complex elements, with +0 imaginary parts (R276). -/
def storeSample (be : Backend) (scr i : Nat) (y : Half) (m : Memory) : Except Fault Memory :=
  match be with
  | .real _ => memWrite m (realElement scr i) y
  | .complex _ => cput m scr i ⟨y, zeroH⟩

/-- `Window(m, in, S)`, step 1 (R276). -/
def windowStep (f : MfccInstance) (inp scr : Nat) (m : Memory) : Except Fault Memory :=
  forUpTo f.fftLen
    (fun i m => do
      let x ← memRead m (realElement inp i)
      let w ← memRead m (realElement f.windowCoefs i)
      storeSample f.backend scr i (num.hMul x w) m) m

/-- The base of the spectrum that step 2 leaves (R277). -/
def spectrumBase (f : MfccInstance) (scr : Nat) : Nat :=
  match f.backend with
  | .real _ => scr + f.fftLen
  | .complex _ => scr

/-- `Transform(m, S)`, step 2: forward, natural order (R277). Log entry 13. -/
def transformStep (f : MfccInstance) (scr : Nat) (m : Memory) : Except Fault Memory :=
  match f.backend with
  | .real r => rfftForward r scr (scr + f.fftLen) m
  | .complex c => cfftCore c scr false true m

/-- The magnitude or the power of one bin, in the accumulator format and rounded once (R278). -/
def binMagnitude (sp : MfccSpectrum) (z : Complex16) : Half :=
  let re := num.aOfH z.re
  let im := num.aOfH z.im
  let p := num.aAdd (num.aMul re re) (num.aMul im im)
  match sp with
  | .magnitude => num.hOfA (num.aSqrt p)
  | .power => num.hOfA p

/-- `Magnitude(m, sp, S)`, step 3: bins 0 .. N/2 in ascending order (R278). -/
def magnitudeStep (sp : MfccSpectrum) (f : MfccInstance) (spectrum scr : Nat) (m : Memory) : Except Fault Memory :=
  forUpTo (f.fftLen / 2 + 1)
    (fun k m => do
      let z ← cget m spectrum k
      memWrite m (realElement scr k) (binMagnitude sp z)) m

/-- `LogCompress(e)`, step 5: the floor, then the natural logarithm (R279). -/
def logCompress (e : Half) : Half :=
  let e := if !num.hIsNaN e && num.hLt e Config.logFloor then Config.logFloor else e
  num.hOfA (num.aLog (num.aOfH e))

/-- Steps 4 and 5: for each filter its energy, then its log-energy at S + N + i; the offset into the arena is the
running sum of the lengths (R275, R280). -/
def melLoop (f : MfccInstance) (scr : Nat) (m : Memory) : Except Fault (Memory × Nat) :=
  forUpTo f.nbMelFilters
    (fun i acc => do
      let e ← melEnergy f scr i acc.2 acc.1
      let m ← memWrite acc.1 (realElement (scr + f.fftLen) i) (logCompress e.1)
      .ok (m, acc.2 + e.2)) (m, 0)

/-- The six steps in order (R275). -/
def mfccSteps (sp : MfccSpectrum) (f : MfccInstance) (inp out scr : Nat) (m : Memory) : Except Fault Memory := do
  let m ← windowStep f inp scr m
  let m ← transformStep f scr m
  let m ← magnitudeStep sp f (spectrumBase f scr) scr m
  let m ← melLoop f scr m
  dctProject f (scr + f.fftLen) out m.1

/-! ### The command -/

/-- T, the sum of the F filter lengths (R275). -/
def filterTotal (f : MfccInstance) (m : Memory) : Except Fault Nat :=
  forUpTo f.nbMelFilters
    (fun i t => do
      let len ← memReadNat m (filterEntry f.filterLengths i)
      .ok (t + len)) 0

/-- The input samples: N elements (20_memory.md R70). -/
def mfccInput (f : MfccInstance) (inp : Nat) : Buffer := ⟨inp, f.fftLen⟩

/-- The output coefficients: D elements (20_memory.md R70). -/
def mfccOutput (f : MfccInstance) (out : Nat) : Buffer := ⟨out, f.nbDctOutputs⟩

/-- The scratch buffer: 2N + 2 elements, for both backends (R274). -/
def mfccScratch (f : MfccInstance) (scr : Nat) : Buffer := ⟨scr, 2 * f.fftLen + 2⟩

/-- The five tables, with `total` the sum of the filter lengths (R275). -/
def mfccTables (f : MfccInstance) (total : Nat) : List Buffer :=
  [⟨f.windowCoefs, f.fftLen⟩, ⟨f.filterPos, f.nbMelFilters⟩, ⟨f.filterLengths, f.nbMelFilters⟩,
    ⟨f.filterCoefs, total⟩, ⟨f.dctCoefs, f.nbDctOutputs * f.nbMelFilters⟩]

/-- The checks on one table: in range, and no overlap with scratch or output (R275). -/
def checkTable (f : MfccInstance) (out scr : Nat) (t : Buffer) : Except Fault Unit :=
  if inRange t = false then .error .outOfRange
  else if overlap t (mfccScratch f scr) || overlap t (mfccOutput f out) then .error .bufferAlias
  else .ok ()

/-- The checks on the tables, in the order of R275. -/
def checkTables (f : MfccInstance) (out scr : Nat) : List Buffer → Except Fault Unit
  | [] => .ok ()
  | t :: ts => do
    checkTable f out scr t
    checkTables f out scr ts

/-- The body of `MFCC` after the slot's checks: the checks of R275 in its order, then the six steps. -/
def mfccRun (sp : MfccSpectrum) (f : MfccInstance) (inp out scr : Nat) (m : Memory) : Except Fault Memory :=
  if f.fftLen < f.nbMelFilters then .error .tooManyFilters
  else if inRange (mfccInput f inp) = false ∨ inRange (mfccOutput f out) = false ∨
      inRange (mfccScratch f scr) = false then .error .outOfRange
  else if overlap (mfccScratch f scr) (mfccInput f inp) || overlap (mfccScratch f scr) (mfccOutput f out) ||
      overlap (mfccInput f inp) (mfccOutput f out) then .error .bufferAlias
  else do
    let total ← filterTotal f m
    checkTables f out scr (mfccTables f total)
    mfccSteps sp f inp out scr m

/-- The MFCC instance in a slot's content, or the violation (R275). -/
def mfccInstanceOf (r : Slot) : Except Fault MfccInstance :=
  match r with
  | .invalid => .error .invalidInstance
  | .mfcc f => .ok f
  | .cfft _ => .error .kindMismatch
  | .rfft _ => .error .kindMismatch

/-- `MFCC_INIT` (R273). -/
def execMfccInit (k : BitVec 8) (s : State) : Result := finishInit s k (makeMfccSlot Config.mfccBackend s)

/-- `MFCC` (R275). -/
def execMfcc (k : BitVec 8) (s : State) : Result :=
  match s.slotAt k with
  | none => .fault .badSlot
  | some r =>
    match mfccInstanceOf r with
    | .error e => .fault e
    | .ok f => commit s (mfccRun Config.mfccSpectrum f (inputArg s) (outputArg s) (scratchArg s) s.dmem)

end Sys2Proof.Machine
end

