-- ==== Sys2Proof/Machine/Dispatch.lean ====
section
/-! DEFINITION. exec: one arm per command of the opcode table, each one call of its meaning. -/

namespace Sys2Proof.Machine

def exec (i : Instr) (s : State) : Host.Outcome State Fault Refusal :=
  match i with
  | .cfftInit k => Sys2Proof.Machine.execCfftInit k s
  | .cfftR2Init k => Sys2Proof.Machine.execCfftR2Init k s
  | .cfftR4Init k => Sys2Proof.Machine.execCfftR4Init k s
  | .rfftInit k => Sys2Proof.Machine.execRfftInit k s
  | .mfccInit k => Sys2Proof.Machine.execMfccInit k s
  | .cfft k ifft bitrev => Sys2Proof.Machine.execCfft k ifft bitrev s
  | .cfftR2 k ifft bitrev => Sys2Proof.Machine.execCfftR2 k ifft bitrev s
  | .cfftR4 k ifft bitrev => Sys2Proof.Machine.execCfftR4 k ifft bitrev s
  | .rfft k ifft => Sys2Proof.Machine.execRfft k ifft s
  | .mfcc k => Sys2Proof.Machine.execMfcc k s

end Sys2Proof.Machine
end

