-- ==== Sys2Proof/Machine/HostPort.lean ====
section
/-! DEFINITION. The host's transactions (00_scope.md R8): the register window (10_state.md R28, 30_encoding.md R96, R97), the data window (20_memory.md R61, R73) and reset (70_reset_and_hazards.md R320). -/

namespace Sys2Proof.Machine

/-- The violation a word that is no command amounts to (30_encoding.md R95, 60_exceptions.md R296 V1 to V3). -/
def faultOfDecodeError : DecodeError → Fault
  | .reservedBits => .reservedBits
  | .reservedOpcode => .reservedOpcode
  | .badSlot => .badSlot

/-- Issue: a host write of w to `CMD` decodes w and performs the command from start to end (30_encoding.md R96). -/
def issue (w : Word) (s : State) : Result :=
  match decode w with
  | .ok i => exec i s
  | .error e => .fault (faultOfDecodeError e)

/-- The register offset of `CMD` (10_state.md R28). -/
def cmdOffset : Nat := 0x00

/-- The register offset of `STATUS` (10_state.md R28). -/
def statusOffset : Nat := 0x04

/-- The register offset of `A[0]`; `A[i]` is at 0x20 + 4*i (10_state.md R28). -/
def argsOffset : Nat := 0x20

/-- The argument register at a register offset, if there is one (10_state.md R28). -/
def argAtOffset (offset : Nat) : Option (Fin 8) :=
  if h : argsOffset ≤ offset ∧ (offset - argsOffset) / 4 < 8 then some ⟨(offset - argsOffset) / 4, h.2⟩ else none

/-- A register access is one aligned 32-bit word (10_state.md R28; 60_exceptions.md R296 V12). -/
def registerAccessOk (offset width : Nat) : Bool := decide (width = 4 ∧ offset % 4 = 0)

/-- A data-memory access is one whole element at an even byte address (20_memory.md R62; 60_exceptions.md R296 V12). -/
def dataAccessOk (byteOffset width : Nat) : Bool := decide (width = 2 ∧ byteOffset % 2 = 0)

/-- What a read of a register offset returns: `STATUS`, `A[i]`, and 0 for `CMD` and every reserved offset
(30_encoding.md R97). -/
def readRegister (s : State) (offset : Nat) : Word :=
  if offset = statusOffset then s.status
  else
    match argAtOffset offset with
    | some i => s.args[i]
    | none => 0#32

/-- A write of a register offset: `CMD` performs a command, `A[i]` takes the value, and a write to `STATUS` or to a
reserved offset does nothing (30_encoding.md R96, R97). -/
def writeRegister (s : State) (offset : Nat) (v : Word) : Result :=
  if offset = cmdOffset then issue v s
  else
    match argAtOffset offset with
    | some i => .next (s.setArg i v)
    | none => .next s

/-- `HostRead(a)`, which is `MemRead(a)` (20_memory.md R73). -/
def hostRead (s : State) (a : Nat) : Result :=
  match memRead s.dmem a with
  | .ok v => .next { s with response := .element v }
  | .error e => .fault e

/-- `HostWrite(a, v)`, which is `MemWrite(a, v)` (20_memory.md R73). -/
def hostWrite (s : State) (a : Nat) (v : Half) : Result := commit s (memWrite s.dmem a v)

/-- Every piece of the block's state back at its reset value; what the host has yet to do is the host's
(70_reset_and_hazards.md R320, R322). -/
def resetBlock (s : State) : State := { State.reset with pending := s.pending }

/-- One host transaction (00_scope.md R8). -/
def perform (t : HostTxn) (s : State) : Result :=
  match t with
  | .regRead offset width =>
    if registerAccessOk offset width then .next { s with response := .register (readRegister s offset) }
    else .fault .badHostAccess
  | .regWrite offset width v =>
    if registerAccessOk offset width then writeRegister s offset v else .fault .badHostAccess
  | .dataRead byteOffset width =>
    if dataAccessOk byteOffset width then hostRead s (byteOffset / 2) else .fault .badHostAccess
  | .dataWrite byteOffset width v =>
    if dataAccessOk byteOffset width then hostWrite s (byteOffset / 2) v else .fault .badHostAccess
  | .reset => .next (resetBlock s)

/-- The state in which a transaction is performed: it is no longer pending, and nothing has been returned yet. -/
def takeTransaction (s : State) (rest : List HostTxn) : State :=
  { s with pending := rest, response := .nothing }

/-- The host write of a command word to `CMD` (30_encoding.md R96). -/
def commandWrite (w : Word) : HostTxn := .regWrite cmdOffset 4 w

end Sys2Proof.Machine
end

