-- ==== Sys2Proof/Machine/Step.lean ====
section
/-! DEFINITION. One step of the machine is one host transaction (00_scope.md R8); with none pending the block waits (70_reset_and_hazards.md R321). -/

namespace Sys2Proof.Machine

/-- The first pending transaction is performed. With none pending the block "holds its state and does nothing"
(60_exceptions.md R311). -/
def step (s : State) : Host.Outcome State Fault Refusal :=
  match s.pending with
  | [] => .next s
  | t :: rest => perform t (takeTransaction s rest)

/-- s with the host's write of a command word put before everything else the host will do, so that the next step
performs that command. Log entry 1. -/
def State.withFetchWord (s : State) (nbits w : Nat) : State :=
  { s with pending := commandWrite (BitVec.ofNat 32 (w % 2 ^ nbits)) :: s.pending }

end Sys2Proof.Machine
end

