-- ==== Sys2Proof/Machine/Assembler.lean ====
section
/-! DEFINITION. The assembler notation of 30_encoding.md R99 and the pseudo-instructions of R100, as data that expands to host transactions. -/

namespace Sys2Proof.Machine

/-- One line of a host program that is one transaction (R99). -/
inductive AsmLine where
  /-- `seta a<i>, <value>`. -/
  | seta (i : Fin 8) (value : Word)
  /-- `<mnemonic>[.inv][.br] s<slot>`. -/
  | command (i : Instr)
  /-- `rdst`. -/
  | rdst
  /-- `hwr <addr>, <value>`. -/
  | hwr (addr : Nat) (value : Half)
  /-- `hrd <addr>`. -/
  | hrd (addr : Nat)
deriving DecidableEq, Repr

/-- The transaction of a line (R99; offsets 10_state.md R28, 20_memory.md R72). -/
def asmTransaction : AsmLine → HostTxn
  | .seta i v => .regWrite (argsOffset + 4 * i.val) 4 v
  | .command i => commandWrite (encode i)
  | .rdst => .regRead statusOffset 4
  | .hwr a v => .dataWrite (2 * a) 2 v
  | .hrd a => .dataRead (2 * a) 2

/-- The suffixes `.inv` and `.br` of a transform command (R99). -/
def asmSuffix (ifft bitrev : Bool) : String := (if ifft then ".inv" else "") ++ (if bitrev then ".br" else "")

/-- The operand `s<slot>` (R99). -/
def asmSlot (k : BitVec 8) : String := " s" ++ toString k.toNat

/-- A command in assembler form, lower case (R99). -/
def asmText : Instr → String
  | .cfftInit k => "cfft.init" ++ asmSlot k
  | .cfftR2Init k => "cfft2.init" ++ asmSlot k
  | .cfftR4Init k => "cfft4.init" ++ asmSlot k
  | .rfftInit k => "rfft.init" ++ asmSlot k
  | .mfccInit k => "mfcc.init" ++ asmSlot k
  | .cfft k ifft bitrev => "cfft" ++ asmSuffix ifft bitrev ++ asmSlot k
  | .cfftR2 k ifft bitrev => "cfft2" ++ asmSuffix ifft bitrev ++ asmSlot k
  | .cfftR4 k ifft bitrev => "cfft4" ++ asmSuffix ifft bitrev ++ asmSlot k
  | .rfft k ifft => "rfft" ++ asmSuffix ifft false ++ asmSlot k
  | .mfcc k => "mfcc" ++ asmSlot k

/-- A pseudo-instruction: a public operation under its own name (R100). -/
inductive Pseudo where
  | initComplexFFT (s : BitVec 8) (len : Word)
  | initComplexFFTRadix2 (s : BitVec 8) (len : Word)
  | initComplexFFTRadix4 (s : BitVec 8) (len : Word)
  | complexFFT (s : BitVec 8) (buf : Word) (ifftFlag bitReverseFlag : Bool)
  | complexFFTRadix2 (s : BitVec 8) (buf : Word) (ifftFlag bitReverseFlag : Bool)
  | complexFFTRadix4 (s : BitVec 8) (buf : Word) (ifftFlag bitReverseFlag : Bool)
  | initRealFFT (s : BitVec 8) (len : Word)
  | realFFT (s : BitVec 8) (inp out : Word) (ifftFlag : Bool)
  | initMFCC (s : BitVec 8) (fftLen nbMelFilters nbDctOutputs dctCoefs filterPositions filterLengths filterCoefs
      windowCoefs : Word)
  | computeMFCC (s : BitVec 8) (inp out scratch : Word)
deriving DecidableEq, Repr

/-- The expansion of a pseudo-instruction: argument writes followed by one command (R100). -/
def pseudoLines : Pseudo → List AsmLine
  | .initComplexFFT s len => [.seta 0 len, .command (.cfftInit s)]
  | .initComplexFFTRadix2 s len => [.seta 0 len, .command (.cfftR2Init s)]
  | .initComplexFFTRadix4 s len => [.seta 0 len, .command (.cfftR4Init s)]
  | .complexFFT s buf ifftFlag bitReverseFlag => [.seta 0 buf, .command (.cfft s ifftFlag bitReverseFlag)]
  | .complexFFTRadix2 s buf ifftFlag bitReverseFlag => [.seta 0 buf, .command (.cfftR2 s ifftFlag bitReverseFlag)]
  | .complexFFTRadix4 s buf ifftFlag bitReverseFlag => [.seta 0 buf, .command (.cfftR4 s ifftFlag bitReverseFlag)]
  | .initRealFFT s len => [.seta 0 len, .command (.rfftInit s)]
  | .realFFT s inp out ifftFlag => [.seta 0 inp, .seta 1 out, .command (.rfft s ifftFlag)]
  | .initMFCC s fftLen nbMelFilters nbDctOutputs dctCoefs filterPositions filterLengths filterCoefs windowCoefs =>
    [.seta 0 fftLen, .seta 1 nbMelFilters, .seta 2 nbDctOutputs, .seta 3 dctCoefs, .seta 4 filterPositions,
      .seta 5 filterLengths, .seta 6 filterCoefs, .seta 7 windowCoefs, .command (.mfccInit s)]
  | .computeMFCC s inp out scratch => [.seta 0 inp, .seta 1 out, .seta 2 scratch, .command (.mfcc s)]

/-- A host program as the transactions the host performs, in order (R99). -/
def asmProgram (lines : List AsmLine) : List HostTxn := lines.map asmTransaction

end Sys2Proof.Machine
end

