-- ==== Sys2Proof/Safety.lean ====
section
/-! DEFINITION. What counts as a safe run: the invariant of the state, and the preconditions (60_exceptions.md R296, R299; 70_reset_and_hazards.md R323) under which the execute commands have a next state. -/

namespace Sys2Proof.Machine

/-! ### The invariant -/

/-- A complex instance as `MakeCfft` makes it for a supported length (45_complex_fft_engine.md R203). -/
def ComplexInstance.Wf (c : ComplexInstance) : Prop :=
  c.fftLen ∈ Config.cfftLengths ∧ c = makeCfft c.tag c.fftLen

/-- A real instance as `MakeRfft` makes it for a supported length (46_real_fft_adapter.md R232). -/
def RealInstance.Wf (r : RealInstance) : Prop :=
  r.fftLenRFFT ∈ Config.rfftLengths ∧ r = makeRfft r.fftLenRFFT

/-- The lengths a backend supports (49_mfcc_extractor.md R272). -/
def backendLengths : MfccBackend → List Nat
  | .real => Config.rfftLengths
  | .complex => Config.cfftLengths

/-- An MFCC instance whose backend is the one a build of the given kind makes for its length
(49_mfcc_extractor.md R273). -/
def MfccInstance.BuiltFor (be : MfccBackend) (f : MfccInstance) : Prop :=
  f.fftLen ∈ backendLengths be ∧ f.backend = makeBackend be f.fftLen

/-- An MFCC instance as `MFCC_INIT` of this build makes it: its dimensions and references are values of 32-bit
registers (10_state.md R33). -/
def MfccInstance.Wf (f : MfccInstance) : Prop :=
  f.BuiltFor Config.mfccBackend ∧ f.nbMelFilters < 2 ^ 32 ∧ f.nbDctOutputs < 2 ^ 32 ∧ f.dctCoefs < 2 ^ 32 ∧
    f.filterPos < 2 ^ 32 ∧ f.filterLengths < 2 ^ 32 ∧ f.filterCoefs < 2 ^ 32 ∧ f.windowCoefs < 2 ^ 32

/-- What a slot may hold (10_state.md R30). -/
def Slot.Wf : Slot → Prop
  | .invalid => True
  | .cfft c => c.Wf
  | .rfft r => r.Wf
  | .mfcc f => f.Wf

/-- The invariant of the machine: data memory in its canonical form, `STATUS` bits 31:1 zero (10_state.md R26), and
every slot `INVALID` or holding an instance an initialisation command makes (10_state.md R30 to R34). -/
def State.Inv (s : State) : Prop :=
  Memory.wf s.dmem = true ∧ (s.status = statusSuccess ∨ s.status = statusArgumentError) ∧
    ∀ k r, s.slotAt k = some r → r.Wf

/-! ### Frames and preconditions of the execute commands -/

/-- Every byte of data memory outside the given buffers reads as before. -/
def unchangedOutside (buffers : List Buffer) (m m' : Memory) : Prop :=
  ∀ n, (∀ b ∈ buffers, inBuffer b (n / 2) = false) → byteAt m' n = byteAt m n

/-- Every element of a buffer has been written. -/
def bufferWritten (m : Memory) (b : Buffer) : Prop := ∀ a, inBuffer b a = true → written m a = true

/-- Two memories hold the same elements in a buffer. -/
def sameIn (b : Buffer) (m m' : Memory) : Prop := ∀ a, inBuffer b a = true → elementAt m' a = elementAt m a

/-- The command that transforms with an instance of the given tag (30_encoding.md R92, 45_complex_fft_engine.md
R212). -/
def transformCommand : Tag → BitVec 8 → Bool → Bool → Instr
  | .general => .cfft
  | .radix2 => .cfftR2
  | .radix4 => .cfftR4

/-- The command that makes an instance of the given tag (45_complex_fft_engine.md R204 to R206). -/
def initCommand : Tag → BitVec 8 → Instr
  | .general => .cfftInit
  | .radix2 => .cfftR2Init
  | .radix4 => .cfftR4Init

/-- A complex transform of instance c on the buffer at b breaks no contract (45_complex_fft_engine.md R213, R216). -/
def CfftReady (c : ComplexInstance) (b : Nat) (m : Memory) : Prop :=
  inRange (complexBuffer c b) = true ∧ bufferWritten m (complexBuffer c b)

/-- A forward real transform breaks no contract (46_real_fft_adapter.md R235). -/
def RfftForwardReady (r : RealInstance) (inp out : Nat) (m : Memory) : Prop :=
  inRange (timeBuffer r inp) = true ∧ inRange (spectrumBuffer r out) = true ∧
    overlap (timeBuffer r inp) (spectrumBuffer r out) = false ∧ bufferWritten m (timeBuffer r inp)

/-- An inverse real transform breaks no contract: the imaginary parts of bins 0 and M "may even be unwritten"
(46_real_fft_adapter.md R235, R239). -/
def RfftInverseReady (r : RealInstance) (inp out : Nat) (m : Memory) : Prop :=
  inRange (spectrumBuffer r inp) = true ∧ inRange (timeBuffer r out) = true ∧
    overlap (spectrumBuffer r inp) (timeBuffer r out) = false ∧
    ∀ a, inBuffer (spectrumBuffer r inp) a = true → a ≠ inp + 1 → a ≠ inp + r.fftLenRFFT + 1 → written m a = true

/-- Element a read as an unsigned integer, 0 where nothing has been written; used only where the element has been. -/
def naturalAt (m : Memory) (a : Nat) : Nat :=
  match elementAt m a with
  | some v => v.toNat
  | none => 0

/-- `off_n`: the sum of the lengths of filters 0 .. n-1 (47_mel_filterbank.md R251). -/
def filterOffset (f : MfccInstance) (m : Memory) : Nat → Nat
  | 0 => 0
  | n + 1 => filterOffset f m n + naturalAt m (filterEntry f.filterLengths n)

/-- Everything an MFCC reads besides its scratch: the input and the five tables (20_memory.md R70). -/
def mfccSources (f : MfccInstance) (inp : Nat) (m : Memory) : List Buffer :=
  mfccInput f inp :: mfccTables f (filterOffset f m f.nbMelFilters)

/-- An MFCC breaks no contract (49_mfcc_extractor.md R275; 60_exceptions.md R296). -/
def MfccReady (f : MfccInstance) (inp out scr : Nat) (m : Memory) : Prop :=
  f.nbMelFilters ≤ f.fftLen ∧
    inRange (mfccOutput f out) = true ∧ inRange (mfccScratch f scr) = true ∧
    overlap (mfccScratch f scr) (mfccOutput f out) = false ∧
    (∀ b ∈ mfccSources f inp m, inRange b = true ∧ bufferWritten m b ∧
      overlap b (mfccScratch f scr) = false ∧ overlap b (mfccOutput f out) = false) ∧
    ∀ i < f.nbMelFilters,
      naturalAt m (filterEntry f.filterPos i) + naturalAt m (filterEntry f.filterLengths i) ≤ f.fftLen / 2 + 1

/-! ### What a command may look at -/

/-- The argument registers a command reads (30_encoding.md R94). -/
def argumentsRead : Instr → List (Fin 8)
  | .cfftInit _ => [0]
  | .cfftR2Init _ => [0]
  | .cfftR4Init _ => [0]
  | .rfftInit _ => [0]
  | .mfccInit _ => [0, 1, 2, 3, 4, 5, 6, 7]
  | .cfft _ _ _ => [0]
  | .cfftR2 _ _ _ => [0]
  | .cfftR4 _ _ _ => [0]
  | .rfft _ _ => [0, 1]
  | .mfcc _ => [0, 1, 2]

/-- The state s with other values in the argument registers. -/
def State.withArgs (s : State) (a : Vector Word 8) : State := { s with args := a }

/-- A result whose next state, if it is one, is changed by g. -/
def mapNext (g : State → State) : Result → Result
  | .next s => .next (g s)
  | .fault e => .fault e
  | .refused r => .refused r

/-- The lengths an initialisation command accepts (60_exceptions.md R291); none for an execute command. -/
def initLengths : Instr → List Nat
  | .cfftInit _ => Config.cfftLengths
  | .cfftR2Init _ => Config.cfftLengths
  | .cfftR4Init _ => Config.cfftLengths
  | .rfftInit _ => Config.rfftLengths
  | .mfccInit _ => backendLengths Config.mfccBackend
  | .cfft _ _ _ => []
  | .cfftR2 _ _ _ => []
  | .cfftR4 _ _ _ => []
  | .rfft _ _ => []
  | .mfcc _ => []

/-- Whether a slot holds a complex instance of a tag. -/
def Slot.holdsComplex (tag : Tag) : Slot → Bool
  | .invalid => false
  | .cfft c => decide (c.tag = tag)
  | .rfft _ => false
  | .mfcc _ => false

/-- Whether a slot holds a real instance. -/
def Slot.holdsReal : Slot → Bool
  | .invalid => false
  | .cfft _ => false
  | .rfft _ => true
  | .mfcc _ => false

/-- Whether a slot holds an MFCC instance. -/
def Slot.holdsMfcc : Slot → Bool
  | .invalid => false
  | .cfft _ => false
  | .rfft _ => false
  | .mfcc _ => true

/-- Whether a slot holds what a command needs: an initialisation command needs nothing, an execute command an instance
of its own kind and tag (60_exceptions.md R296 V5). -/
def suits (i : Instr) (r : Slot) : Bool :=
  match i with
  | .cfftInit _ => true
  | .cfftR2Init _ => true
  | .cfftR4Init _ => true
  | .rfftInit _ => true
  | .mfccInit _ => true
  | .cfft _ _ _ => r.holdsComplex .general
  | .cfftR2 _ _ _ => r.holdsComplex .radix2
  | .cfftR4 _ _ _ => r.holdsComplex .radix4
  | .rfft _ _ => r.holdsReal
  | .mfcc _ => r.holdsMfcc

/-! ### Values of patterns, for statements about the numerics -/

/-- A pattern that is neither a NaN nor an infinity (40_numerics.md R123). -/
def isFinite (f : FloatFormat) (p : Nat) : Bool := !isNaN f p && !isInfinite f p

/-- `round_X(r, z)` (40_numerics.md R124) for the real number r = value * 2^-(scale + extra): the rounded magnitude with
the sign of r, and for r = 0 the zero of sign z. -/
def roundedPattern (f : FloatFormat) (value : Int) (extra : Nat) (z : Bool) : Nat :=
  withSign f (if value = 0 then z else decide (value < 0)) (roundMagnitude f value.natAbs extra)

/-! ### Where the windowed samples stand -/

/-- Windowed sample i stands where the backend takes it: in element i for a real one, in complex element i with
imaginary part +0 for a complex one (49_mfcc_extractor.md R276). -/
def sampleStands (be : MfccBackend) (m : Memory) (scr i : Nat) (y : Half) : Prop :=
  match be with
  | .real => elementAt m (scr + i) = some y
  | .complex => elementAt m (scr + 2 * i) = some y ∧ elementAt m (scr + 2 * i + 1) = some 0x0000#16

/-! ### The butterflies of a stage, one at a time -/

/-- Operations performed one after another, in the order of a list. -/
def runAll {α : Type} (f : α → Memory → Except Fault Memory) : List α → Memory → Except Fault Memory
  | [], m => .ok m
  | x :: xs, m => do
    let m ← f x m
    runAll f xs m

/-- The places (block, k) of a stage of the given number of blocks and of butterflies in a block, in the order of the
pseudocode (45_complex_fft_engine.md R208, R209). -/
def stagePlaces (blocks perBlock : Nat) : List (Nat × Nat) :=
  (List.range blocks).flatMap fun block => (List.range perBlock).map fun k => (block, k)

/-- The butterfly at a place of a radix-2 stage (45_complex_fft_engine.md R208). -/
def stage2Place (c : ComplexInstance) (b n : Nat) (inv : Bool) (p : Nat × Nat) (m : Memory) : Except Fault Memory :=
  bfly2 b (p.1 * n + p.2) (p.1 * n + p.2 + n / 2) (twiddleView (c.fftLen / n * c.twidCoefModifier) p.2) inv m

/-- The butterfly at a place of a radix-4 stage (45_complex_fft_engine.md R209). -/
def stage4Place (c : ComplexInstance) (b n : Nat) (inv : Bool) (p : Nat × Nat) (m : Memory) : Except Fault Memory :=
  let st := c.fftLen / n * c.twidCoefModifier
  bfly4 b (p.1 * n + p.2) (p.1 * n + p.2 + n / 4) (p.1 * n + p.2 + 2 * (n / 4)) (p.1 * n + p.2 + 3 * (n / 4))
    (twiddleView st p.2) (twiddleView st (2 * p.2)) (twiddleView st (3 * p.2)) inv m

end Sys2Proof.Machine
end

