-- ==== Sys2Proof/Certificates/Slice0/Obligations.lean ====
section
/-! DEFINITION. The statements for the provers. Each is about the machine, for every state and operand that meets its hypotheses; none is about a program. OBLIGATIONS.json says which rules of spec/ each rests on. -/

open Sys2Proof Sys2Proof.Machine

/-! ### Encoding -/

/-- Decoding the word of a well-formed command gives the command back, every operand at every value its field admits
(30_encoding.md R90 to R92). -/
def Obligations.DecodeOfEncodeIsTheInstruction : Prop :=
  ∀ i : Instr, i.wellFormed = true → decode (encode i) = .ok i

/-- A word that decodes has no bit that its command does not carry: it is the word of that command, whose slot number
is below `N_INST` (30_encoding.md R90, R95). -/
def Obligations.DecodedWordIsTheEncodingOfItsInstruction : Prop :=
  ∀ (w : Word) (i : Instr), decode w = .ok i → encode i = w ∧ i.wellFormed = true

/-- What a write of w to `CMD` amounts to, check by check in the order of 30_encoding.md R95; a word that passes them
all performs the command whose word it is. -/
def Obligations.IssueFollowsTheDecodingRule : Prop :=
  ∀ (w : Word) (s : State),
    if fieldRsv1 w ≠ 0#16 ∨ fieldRsv0 w ≠ 0#2 then issue w s = .fault .reservedBits
    else if fieldOpc w ∈ [0x0#4, 0x6#4, 0x7#4, 0x8#4, 0xE#4, 0xF#4] then issue w s = .fault .reservedOpcode
    else if fieldOpc w ∈ [0x1#4, 0x2#4, 0x3#4, 0x4#4, 0x5#4, 0xD#4] ∧ (fieldIfft w = true ∨ fieldBitrev w = true) then
      issue w s = .fault .reservedBits
    else if fieldOpc w = 0xC#4 ∧ fieldBitrev w = true then issue w s = .fault .reservedBits
    else if Config.nInst ≤ (fieldInst w).toNat then issue w s = .fault .badSlot
    else ∃ i, encode i = w ∧ issue w s = exec i s

/-- The match and mask of each row select its command's words and no other row's (30_encoding.md R92). -/
def Obligations.OpcodeRowsSelectTheirCommands : Prop :=
  (∀ w i, decode w = .ok i → w &&& (opcodeRow i).mask = (opcodeRow i).pattern) ∧
  (∀ w i, w &&& (opcodeRow i).mask = (opcodeRow i).pattern → (fieldInst w).toNat < Config.nInst →
    ∃ j, decode w = .ok j ∧ opcodeRow j = opcodeRow i) ∧
  ∀ w i j, w &&& (opcodeRow i).mask = (opcodeRow i).pattern → w &&& (opcodeRow j).mask = (opcodeRow j).pattern →
    opcodeRow i = opcodeRow j

/-- Command words that the spec writes out decode to the commands it says they are (30_encoding.md R99; the examples of
45_complex_fft_engine.md R204 to R206, R213 to R215, 46_real_fft_adapter.md R233, R235, 49_mfcc_extractor.md R273;
95_test_vectors.md V4.1). -/
def Obligations.SampleWordsDecodeToTheirCommands : Prop :=
  decode 0x00000001#32 = .ok (.cfftInit 0) ∧ decode 0x00000102#32 = .ok (.cfftR2Init 1) ∧
  decode 0x00000203#32 = .ok (.cfftR4Init 2) ∧ decode 0x00000304#32 = .ok (.rfftInit 3) ∧
  decode 0x00000405#32 = .ok (.mfccInit 4) ∧ decode 0x00000029#32 = .ok (.cfft 0 false true) ∧
  decode 0x00000239#32 = .ok (.cfft 2 true true) ∧ decode 0x0000010A#32 = .ok (.cfftR2 1 false false) ∧
  decode 0x0000023B#32 = .ok (.cfftR4 2 true true) ∧ decode 0x0000030C#32 = .ok (.rfft 3 false) ∧
  decode 0x0000001C#32 = .ok (.rfft 0 true) ∧ decode 0x0000000D#32 = .ok (.mfcc 0)

/-! ### Host transactions and steps -/

/-- When the next transaction is the write of a word to `CMD` that decodes, the step is the command's meaning at the
state without that transaction; of a word that does not decode it is the violation (30_encoding.md R95, R96). That the
transaction stands in `pending` and leaves it, and that the response is cleared, are the model's choices, log entries 1
and 2. -/
def Obligations.StepRunsTheDecodedCommand : Prop :=
  ∀ (s : State) (w : Word) (rest : List HostTxn), s.pending = commandWrite w :: rest →
    (∀ i, decode w = .ok i → step s = exec i (takeTransaction s rest)) ∧
    ∀ e, decode w = .error e → step s = .fault (faultOfDecodeError e)

/-- With nothing to do for the host the block "holds its state and does nothing" (60_exceptions.md R311). That such a
step is a step at all is the model's choice, log entry 3. -/
def Obligations.IdleBlockHoldsItsState : Prop := ∀ s : State, s.pending = [] → step s = .next s

/-- A step performs the first transaction the host has yet to perform, at the state without it, and whatever that
transaction is the others stay pending, in their order; with none pending nothing changes (20_memory.md R74). That the
transactions stand in the state, that the response is cleared before one is performed, and that waiting is a step, are
the model's choices, log entries 1, 2 and 3. -/
def Obligations.StepTakesOneTransaction : Prop :=
  ∀ s : State,
    (∀ x rest, s.pending = x :: rest → step s = perform x (takeTransaction s rest)) ∧
    ∀ t, step s = .next t → t.pending = s.pending.tail ∧ (s.pending = [] → t = s)

/-- Register reads and writes other than command writes (30_encoding.md R97). That the performed transaction leaves
`pending` is the model's choice, log entry 1; that `response` holds what a read returns and is cleared by a write,
log entry 2. -/
def Obligations.RegisterAccessesFollowTheRegisterMap : Prop :=
  ∀ (s : State) (rest : List HostTxn),
    (∀ (i : Fin 8) (v : Word), s.pending = .regWrite (0x20 + 4 * i.val) 4 v :: rest →
      step s = .next ((takeTransaction s rest).setArg i v)) ∧
    (∀ (o : Nat) (v : Word), s.pending = .regWrite o 4 v :: rest → o % 4 = 0 → o ≠ 0x00 →
      (∀ i : Fin 8, o ≠ 0x20 + 4 * i.val) → step s = .next (takeTransaction s rest)) ∧
    (∀ i : Fin 8, s.pending = .regRead (0x20 + 4 * i.val) 4 :: rest →
      step s = .next { takeTransaction s rest with response := .register s.args[i] }) ∧
    (s.pending = .regRead 0x04 4 :: rest →
      step s = .next { takeTransaction s rest with response := .register s.status }) ∧
    ∀ o : Nat, s.pending = .regRead o 4 :: rest → o % 4 = 0 → o ≠ 0x04 → (∀ i : Fin 8, o ≠ 0x20 + 4 * i.val) →
      step s = .next { takeTransaction s rest with response := .register 0#32 }

/-- A register access that is no aligned 32-bit word, or a data access that is no whole element at an even byte
address, is a violation (60_exceptions.md R296 row V12). That it is this violation also where the offset is out of
range is the model's choice, log entry 16: the shape is checked first, and R295 defines no order. That the transaction
stands in `pending` is log entry 1. -/
def Obligations.MisshapenHostAccessIsAViolation : Prop :=
  ∀ (s : State) (rest : List HostTxn) (offset width : Nat) (v : Word) (x : Half),
    (width ≠ 4 ∨ offset % 4 ≠ 0 →
      (s.pending = .regRead offset width :: rest → step s = .fault .badHostAccess) ∧
      (s.pending = .regWrite offset width v :: rest → step s = .fault .badHostAccess)) ∧
    (width ≠ 2 ∨ offset % 2 ≠ 0 →
      (s.pending = .dataRead offset width :: rest → step s = .fault .badHostAccess) ∧
      (s.pending = .dataWrite offset width x :: rest → step s = .fault .badHostAccess))

/-- A host write of an element: out of range it is a violation; otherwise the element holds the value and no other
byte of memory changes (20_memory.md R65). That the transaction leaves `pending` and that the response is cleared are
the model's choices, log entries 1 and 2. -/
def Obligations.HostWriteStoresOneElement : Prop :=
  ∀ (s : State) (rest : List HostTxn) (a : Nat) (v : Half), s.pending = .dataWrite (2 * a) 2 v :: rest →
    if Config.dmemWords ≤ a then step s = .fault .outOfRange
    else ∃ m, step s = .next ((takeTransaction s rest).withDmem m) ∧ elementAt m a = some v ∧
      ∀ n, n / 2 ≠ a → byteAt m n = byteAt s.dmem n

/-- A host read of an element: out of range or never written it is a violation; otherwise it returns the element, and
after a write of that element it returns what was written (20_memory.md R64, R73). That what is returned stands in
`response`, and that the transaction leaves `pending`, are the model's choices, log entries 2 and 1. -/
def Obligations.HostReadReturnsTheLatestWrite : Prop :=
  (∀ (s : State) (rest : List HostTxn) (a : Nat), s.pending = .dataRead (2 * a) 2 :: rest →
    if Config.dmemWords ≤ a then step s = .fault .outOfRange
    else if written s.dmem a = false then step s = .fault .unwrittenRead
    else ∃ v, elementAt s.dmem a = some v ∧ step s = .next { takeTransaction s rest with response := .element v }) ∧
  ∀ (s : State) (rest : List HostTxn) (a : Nat) (v : Half), a < Config.dmemWords →
    s.pending = .dataWrite (2 * a) 2 v :: .dataRead (2 * a) 2 :: rest →
      ∃ t u, step s = .next t ∧ step t = .next u ∧ u.response = .element v

/-- In the host's byte view bits 7:0 of an element are at the lower address and bits 15:8 at the higher
(20_memory.md R61). -/
def Obligations.ElementBytesAreLittleEndian : Prop :=
  ∀ (m : Memory) (a : Nat) (v : Half),
    byteAt (setElement m a v) (2 * a) = some (v.extractLsb' 0 8) ∧
    byteAt (setElement m a v) (2 * a + 1) = some (v.extractLsb' 8 8)

/-- The state after reset: every argument register 0, `STATUS` 0, every slot `INVALID`, no element with a value; and a
reset of the block leaves that state whatever was before (10_state.md R39, 70_reset_and_hazards.md R320). That the
host's own transactions survive is the model's choice, log entry 4. -/
def Obligations.ResetGivesEveryPieceItsResetValue : Prop :=
  (∀ i : Fin 8, State.reset.args[i] = 0#32) ∧ State.reset.status = 0#32 ∧
  (∀ k : BitVec 8, k.toNat < 8 → State.reset.slotAt k = some .invalid) ∧
  (∀ a, elementAt State.reset.dmem a = none) ∧
  ∀ (s : State) (rest : List HostTxn), s.pending = .reset :: rest →
    step s = .next { State.reset with pending := rest }

/-- The invariant holds after reset. -/
def Obligations.ResetSatisfiesTheInvariant : Prop := State.Inv State.reset

/-- Every step keeps the invariant: data memory in canonical form, `STATUS` 0 or 1 (10_state.md R26), every slot
`INVALID` or an instance that an initialisation command makes (10_state.md R30 to R33). -/
def Obligations.StepKeepsTheInvariant : Prop := ∀ s t : State, s.Inv → step s = .next t → t.Inv

/-- The model has a meaning for every command: no step is refused. -/
def Obligations.NoStepIsRefused : Prop := ∀ (s : State) (r : Refusal), step s ≠ .refused r

/-! ### Whole-machine rules -/

/-- No command writes an argument register, and a command that completes or not does so whatever the registers hold
that 30_encoding.md R94 does not list for it (10_state.md R22). -/
def Obligations.CommandsUseOnlyTheirArgumentRegisters : Prop :=
  (∀ (i : Instr) (s t : State), exec i s = .next t → t.args = s.args) ∧
  ∀ (i : Instr) (s : State) (a : Vector Word 8), (∀ j ∈ argumentsRead i, a[j] = s.args[j]) →
    exec i (s.withArgs a) = mapNext (fun t => t.withArgs a) (exec i s)

/-- Only a reset or an initialisation command changes `STATUS` or a slot (10_state.md R34, R27). -/
def Obligations.StatusAndSlotsChangeOnlyByInitialisation : Prop :=
  ∀ s t : State, step s = .next t → t.status ≠ s.status ∨ t.slots ≠ s.slots →
    (∃ rest, s.pending = .reset :: rest) ∨
    ∃ w i rest, s.pending = commandWrite w :: rest ∧ decode w = .ok i ∧ i.isInit = true

/-- Only a reset, a host write of an element or an execute command changes data memory (10_state.md R20). -/
def Obligations.DataMemoryChangesOnlyByWritesAndExecuteCommands : Prop :=
  ∀ s t : State, step s = .next t → t.dmem ≠ s.dmem →
    (∃ rest, s.pending = .reset :: rest) ∨
    (∃ a v rest, s.pending = .dataWrite (2 * a) 2 v :: rest ∧ a < Config.dmemWords) ∨
    ∃ w i rest, s.pending = commandWrite w :: rest ∧ decode w = .ok i ∧ i.isInit = false

/-- Only a reset or a host write of an argument register changes an argument register (10_state.md R20, R22). -/
def Obligations.ArgumentRegistersChangeOnlyByRegisterWrites : Prop :=
  ∀ s t : State, step s = .next t → t.args ≠ s.args →
    (∃ rest, s.pending = .reset :: rest) ∨
    ∃ (j : Fin 8) (v : Word) (rest : List HostTxn), s.pending = .regWrite (0x20 + 4 * j.val) 4 v :: rest

/-! ### Initialisation commands -/

/-- `CfftSupported`, and the instance that `MakeCfft` makes (45_complex_fft_engine.md R203). -/
def Obligations.ComplexInstanceFieldsFollowTheLength : Prop :=
  (∀ v : Nat, (cfftSupported v = true ↔ v ∈ Config.cfftLengths) ∧
    (v ∈ Config.cfftLengths ↔ isPow2 v = true ∧ 2 ≤ v ∧ v ≤ 4096)) ∧
  ∀ (tag : Tag) (m : Nat), 1 ≤ m → m ≤ 12 →
    (makeCfft tag (2 ^ m)).tag = tag ∧ (makeCfft tag (2 ^ m)).fftLen = 2 ^ m ∧
    (makeCfft tag (2 ^ m)).twidCoefModifier = 2 ^ (12 - m) ∧ (makeCfft tag (2 ^ m)).bitRevFactor = 2 ^ (12 - m) ∧
    (makeCfft tag (2 ^ m)).bitRevLength = 2 ^ m ∧
    (makeCfft tag (2 ^ m)).onebyfftLen = BitVec.ofNat 16 ((15 - m) * 2 ^ 10)

/-- `CFFT_INIT`, `CFFT_R2_INIT` and `CFFT_R4_INIT` complete for every length: a supported one makes the instance with
the command's tag and `STATUS` 0, any other one empties the slot and makes `STATUS` 1; nothing else changes
(45_complex_fft_engine.md R204, R205, R206). -/
def Obligations.ComplexInitialisationCompletes : Prop :=
  ∀ (tag : Tag) (k : BitVec 8) (s : State), k.toNat < Config.nInst →
    if s.arg 0 ∈ Config.cfftLengths then
      exec (initCommand tag k) s = .next ((s.setSlot k (.cfft (makeCfft tag (s.arg 0)))).setStatus 0#32)
    else exec (initCommand tag k) s = .next ((s.setSlot k .invalid).setStatus 1#32)

/-- `RFFT_INIT` completes for every length; the instance wraps the complex instance of half the length
(46_real_fft_adapter.md R232, R233). -/
def Obligations.RealInitialisationCompletes : Prop :=
  ∀ (k : BitVec 8) (s : State), k.toNat < Config.nInst →
    if s.arg 0 ∈ Config.rfftLengths then
      exec (.rfftInit k) s =
        .next ((s.setSlot k (.rfft
          { fftLenRFFT := s.arg 0, cfft := makeCfft .general (s.arg 0 / 2), rfftTwidModifier := 4096 / s.arg 0 })).setStatus
          0#32)
    else exec (.rfftInit k) s = .next ((s.setSlot k .invalid).setStatus 1#32)

/-- `MFCC_INIT` completes for every content of the argument registers: a length the backend supports makes the instance,
dimensions and references stored as they are; any other length empties the slot (49_mfcc_extractor.md R272, R273). -/
def Obligations.MfccInitialisationCompletes : Prop :=
  ∀ (k : BitVec 8) (s : State), k.toNat < Config.nInst →
    if s.arg 0 ∈ backendLengths Config.mfccBackend then
      exec (.mfccInit k) s =
        .next ((s.setSlot k (.mfcc
          { fftLen := s.arg 0, nbMelFilters := s.arg 1, nbDctOutputs := s.arg 2, dctCoefs := s.arg 3
            filterPos := s.arg 4, filterLengths := s.arg 5, filterCoefs := s.arg 6, windowCoefs := s.arg 7
            backend := makeBackend Config.mfccBackend (s.arg 0) })).setStatus 0#32)
    else exec (.mfccInit k) s = .next ((s.setSlot k .invalid).setStatus 1#32)

/-- An initialisation command changes its slot and `STATUS` and nothing else, whatever it makes
(60_exceptions.md R292, R293). -/
def Obligations.InitialisationChangesOnlyItsSlotAndStatus : Prop :=
  ∀ (i : Instr) (s t : State), i.isInit = true → exec i s = .next t →
    t.args = s.args ∧ t.dmem = s.dmem ∧ t.pending = s.pending ∧ t.response = s.response ∧
    (∀ j, j ≠ i.slot → t.slotAt j = s.slotAt j) ∧
    ((t.status = 0#32 ∧ ∃ r, r ≠ .invalid ∧ t.slotAt i.slot = some r) ∨
      (t.status = 1#32 ∧ t.slotAt i.slot = some .invalid))

/-- `ArgumentError` is raised by the initialisation commands exactly on the lengths they do not support, and by no other
command and for no other reason; the offending length stays in `A[0]` (60_exceptions.md R291). -/
def Obligations.ArgumentErrorExactlyOnUnsupportedLengths : Prop :=
  ∀ (i : Instr) (s : State), i.wellFormed = true →
    (i.isInit = true → ∃ t, exec i s = .next t ∧ t.args = s.args ∧ (t.status = 1#32 ↔ s.arg 0 ∉ initLengths i)) ∧
    (i.isInit = false → ∀ t, exec i s = .next t → t.status = s.status)

/-- An initialisation performed twice alike is the same as once (45_complex_fft_engine.md R222). -/
def Obligations.RepeatedInitialisationChangesNothing : Prop :=
  ∀ (i : Instr) (s t : State), i.isInit = true → exec i s = .next t → exec i t = .next t

/-! ### Execute commands: violations -/

/-- An execute command on an `INVALID` slot is `InvalidInstance`, on a slot with an instance of another kind or tag
`KindMismatch` (45_complex_fft_engine.md R212, 46_real_fft_adapter.md R235, 49_mfcc_extractor.md R275; 60_exceptions.md
R296 rows V4, V5). That these are named also where the command breaks other contracts is the model's choice, log entry
6: R295 defines no order. -/
def Obligations.ExecuteOnAnUnsuitableSlotIsAViolation : Prop :=
  ∀ (i : Instr) (s : State) (r : Slot), i.isInit = false → s.slotAt i.slot = some r →
    (r = .invalid → exec i s = .fault .invalidInstance) ∧
    (r ≠ .invalid → suits i r = false → exec i s = .fault .kindMismatch)

/-- A complex or real transform answers only when its buffers are in range, do not overlap where they must not, and
every element it reads has been written (20_memory.md R70; 45_complex_fft_engine.md R216, 46_real_fft_adapter.md
R235). -/
def Obligations.TransformsCompleteOnlyWhenReady : Prop :=
  (∀ (tag : Tag) (k : BitVec 8) (inv br : Bool) (s t : State) (c : ComplexInstance), s.slotAt k = some (.cfft c) →
    c.tag = tag → exec (transformCommand tag k inv br) s = .next t → CfftReady c (s.arg 0) s.dmem) ∧
  (∀ (k : BitVec 8) (s t : State) (r : RealInstance), s.slotAt k = some (.rfft r) → r.Wf →
    exec (.rfft k false) s = .next t → RfftForwardReady r (s.arg 0) (s.arg 1) s.dmem) ∧
  ∀ (k : BitVec 8) (s t : State) (r : RealInstance), s.slotAt k = some (.rfft r) → r.Wf →
    exec (.rfft k true) s = .next t → RfftInverseReady r (s.arg 0) (s.arg 1) s.dmem

/-- `MFCC` answers only when its scratch, input, output and five tables are as 20_memory.md R70 asks, there are no more
filters than `fftLen`, and every filter stays inside the bins (49_mfcc_extractor.md R275, 47_mel_filterbank.md R253). -/
def Obligations.MfccCompletesOnlyWhenReady : Prop :=
  ∀ (be : MfccBackend) (k : BitVec 8) (s t : State) (f : MfccInstance), s.slotAt k = some (.mfcc f) → f.BuiltFor be →
    exec (.mfcc k) s = .next t → MfccReady f (s.arg 0) (s.arg 1) (s.arg 2) s.dmem

/-! ### Execute commands: what they do, and what they leave alone -/

/-- `CFFT`, `CFFT_R2` and `CFFT_R4` complete when they break no contract: the network, the scaling of an inverse and the
reordering pass in that order, in place; no byte outside the buffer and nothing else of the state changes
(45_complex_fft_engine.md R213 to R216, R218). -/
def Obligations.ComplexTransformCompletes : Prop :=
  ∀ (tag : Tag) (k : BitVec 8) (inv br : Bool) (s : State) (c : ComplexInstance), s.slotAt k = some (.cfft c) →
    c.tag = tag → c.Wf → CfftReady c (s.arg 0) s.dmem →
      ∃ m1 m2 m, network c (s.arg 0) inv s.dmem = .ok m1 ∧ scaleIf inv c (s.arg 0) m1 = .ok m2 ∧
        reorderIf br c (s.arg 0) m2 = .ok m ∧ exec (transformCommand tag k inv br) s = .next (s.withDmem m) ∧
        unchangedOutside [complexBuffer c (s.arg 0)] s.dmem m ∧ bufferWritten m (complexBuffer c (s.arg 0))

/-- `RFFT` forward completes when it breaks no contract. It leaves in its input the half-length transform Z, and in its
output the DC bin Z0.re + Z0.im, the Nyquist bin Z0.re - Z0.im, both with imaginary part +0, and bin k made of Z[k] and
Z[M-k]; nothing else changes (46_real_fft_adapter.md R235 to R237). That the input is left holding Z exactly is log
entry 20. -/
def Obligations.RfftForwardCompletes : Prop :=
  ∀ (k : BitVec 8) (s : State) (r : RealInstance), s.slotAt k = some (.rfft r) → r.Wf →
    RfftForwardReady r (s.arg 0) (s.arg 1) s.dmem →
      ∃ z m z0, cfftCore r.cfft (s.arg 0) false true s.dmem = .ok z ∧
        exec (.rfft k false) s = .next (s.withDmem m) ∧ sameIn (timeBuffer r (s.arg 0)) z m ∧
        cget z (s.arg 0) 0 = .ok z0 ∧ cget m (s.arg 1) 0 = .ok ⟨num.hAdd z0.re z0.im, zeroH⟩ ∧
        cget m (s.arg 1) (r.fftLenRFFT / 2) = .ok ⟨num.hSub z0.re z0.im, zeroH⟩ ∧
        (∀ j, 0 < j → j < r.fftLenRFFT / 2 → ∃ a b, cget z (s.arg 0) j = .ok a ∧
          cget z (s.arg 0) (r.fftLenRFFT / 2 - j) = .ok b ∧
          cget m (s.arg 1) j = .ok (splitForward a b (twiddleView r.rfftTwidModifier j))) ∧
        unchangedOutside [timeBuffer r (s.arg 0), spectrumBuffer r (s.arg 1)] s.dmem m

/-- `RFFT` inverse completes when it breaks no contract: the pre-processed spectrum p goes to the output and is
transformed there by the complex inverse; nothing but the output changes (46_real_fft_adapter.md R235, R238, R239). -/
def Obligations.RfftInverseCompletes : Prop :=
  ∀ (k : BitVec 8) (s : State) (r : RealInstance), s.slotAt k = some (.rfft r) → r.Wf →
    RfftInverseReady r (s.arg 0) (s.arg 1) s.dmem →
      ∃ p m x0 xm, elementAt s.dmem (s.arg 0) = some x0 ∧ elementAt s.dmem (s.arg 0 + r.fftLenRFFT) = some xm ∧
        cget p (s.arg 1) 0 = .ok ⟨num.hMul halfH (num.hAdd x0 xm), num.hMul halfH (num.hSub x0 xm)⟩ ∧
        (∀ j, 0 < j → j < r.fftLenRFFT / 2 → ∃ a b, cget s.dmem (s.arg 0) j = .ok a ∧
          cget s.dmem (s.arg 0) (r.fftLenRFFT / 2 - j) = .ok b ∧
          cget p (s.arg 1) j = .ok (splitInverse a b (twiddleView r.rfftTwidModifier j))) ∧
        cfftCore r.cfft (s.arg 1) true true p = .ok m ∧ exec (.rfft k true) s = .next (s.withDmem m) ∧
        unchangedOutside [timeBuffer r (s.arg 1)] s.dmem m

/-- `MFCC` completes when it breaks no contract, in a build with either backend, and its result is tied to its input
step by step: y holds every sample times its window value, where the backend takes it (R276); sp is what the transform
leaves of y (R277); the magnitude of bin k of sp stands at S+k (R278); log-energy i stands at S+N+i, the logarithm of the
energy of filter i over those magnitudes (R279); output j is row j of the DCT table times the log-energies (48_dct_core.md
R261). No byte outside scratch and output and nothing else of the state changes (49_mfcc_extractor.md R275, R281). That
the scratch is left exactly so is log entry 20. -/
def Obligations.MfccCompletes : Prop :=
  ∀ (be : MfccBackend) (k : BitVec 8) (s : State) (f : MfccInstance), s.slotAt k = some (.mfcc f) → f.BuiltFor be →
    MfccReady f (s.arg 0) (s.arg 1) (s.arg 2) s.dmem →
      ∃ y sp m, exec (.mfcc k) s = .next (s.withDmem m) ∧
        unchangedOutside [mfccScratch f (s.arg 2), mfccOutput f (s.arg 1)] s.dmem m ∧
        unchangedOutside [mfccScratch f (s.arg 2)] s.dmem y ∧
        (∀ i < f.fftLen, ∃ x w, elementAt s.dmem (s.arg 0 + i) = some x ∧
          elementAt s.dmem (f.windowCoefs + i) = some w ∧ sampleStands be y (s.arg 2) i (num.hMul x w)) ∧
        transformStep f (s.arg 2) y = .ok sp ∧
        (∀ j ≤ f.fftLen / 2, ∃ z, cget sp (spectrumBase f (s.arg 2)) j = .ok z ∧
          elementAt m (s.arg 2 + j) = some (binMagnitude Config.mfccSpectrum z)) ∧
        (∀ i < f.nbMelFilters, ∃ e, melEnergy f (s.arg 2) i (filterOffset f m i) m = .ok e ∧
          elementAt m (s.arg 2 + f.fftLen + i) = some (logCompress e.1)) ∧
        ∀ j < f.nbDctOutputs, ∃ acc, dctSum f (s.arg 2 + f.fftLen) j m = .ok acc ∧
          elementAt m (s.arg 1 + j) = some (num.hOfA acc)

/-- With no filter every output of `MFCC` is +0 (49_mfcc_extractor.md R284, 48_dct_core.md R263). -/
def Obligations.MfccWithoutFiltersWritesZeros : Prop :=
  ∀ (be : MfccBackend) (k : BitVec 8) (s : State) (f : MfccInstance), s.slotAt k = some (.mfcc f) → f.BuiltFor be →
    MfccReady f (s.arg 0) (s.arg 1) (s.arg 2) s.dmem → f.nbMelFilters = 0 →
      ∃ m, exec (.mfcc k) s = .next (s.withDmem m) ∧ ∀ j < f.nbDctOutputs, elementAt m (s.arg 1 + j) = some 0x0000#16

/-! ### Execute commands: what the result depends on -/

/-- A complex transform depends on its instance and on the contents of its buffer and on nothing else, the buffer's
place included (45_complex_fft_engine.md R213, R218). -/
def Obligations.ComplexTransformDependsOnlyOnItsBuffer : Prop :=
  ∀ (tag : Tag) (k k' : BitVec 8) (inv br : Bool) (s s' t : State) (c : ComplexInstance),
    s.slotAt k = some (.cfft c) → s'.slotAt k' = some (.cfft c) → c.tag = tag → c.Wf →
    inRange (complexBuffer c (s'.arg 0)) = true →
    (∀ i < 2 * c.fftLen, elementAt s'.dmem (s'.arg 0 + i) = elementAt s.dmem (s.arg 0 + i)) →
    exec (transformCommand tag k inv br) s = .next t →
      ∃ t', exec (transformCommand tag k' inv br) s' = .next t' ∧
        ∀ i < 2 * c.fftLen, elementAt t'.dmem (s'.arg 0 + i) = elementAt t.dmem (s.arg 0 + i)

/-- The inverse real transform preserves its input, gives the same output whatever the imaginary parts of bins 0 and M
hold, written or not, and has no result when any other element of the spectrum is unwritten
(46_real_fft_adapter.md R239). -/
def Obligations.RfftInverseIgnoresTheImaginaryEnds : Prop :=
  ∀ (k : BitVec 8) (s : State) (r : RealInstance), s.slotAt k = some (.rfft r) → r.Wf →
    (∀ t, exec (.rfft k true) s = .next t → sameIn (spectrumBuffer r (s.arg 0)) s.dmem t.dmem) ∧
    (∀ (m : Memory) (t : State), (∀ a, inBuffer (spectrumBuffer r (s.arg 0)) a = true → a ≠ s.arg 0 + 1 →
        a ≠ s.arg 0 + r.fftLenRFFT + 1 → elementAt m a = elementAt s.dmem a) →
      exec (.rfft k true) s = .next t →
        ∃ t', exec (.rfft k true) (s.withDmem m) = .next t' ∧ sameIn (timeBuffer r (s.arg 1)) t.dmem t'.dmem) ∧
    ∀ a t, inBuffer (spectrumBuffer r (s.arg 0)) a = true → a ≠ s.arg 0 + 1 → a ≠ s.arg 0 + r.fftLenRFFT + 1 →
      written s.dmem a = false → exec (.rfft k true) s ≠ .next t

/-- The outputs of `MFCC` are a function of the instance, the input samples and the contents of the five tables at the
time of the command, and of nothing else (49_mfcc_extractor.md R282, whose second sentence the spec derives from R275).
-/
def Obligations.MfccOutputsDependOnlyOnInstanceInputAndTables : Prop :=
  ∀ (be : MfccBackend) (k k' : BitVec 8) (s s' t t' : State) (f : MfccInstance),
    s.slotAt k = some (.mfcc f) → s'.slotAt k' = some (.mfcc f) → f.BuiltFor be →
    (∀ i < f.fftLen, elementAt s'.dmem (s'.arg 0 + i) = elementAt s.dmem (s.arg 0 + i)) →
    (∀ b ∈ mfccTables f (filterOffset f s.dmem f.nbMelFilters), sameIn b s.dmem s'.dmem) →
    exec (.mfcc k) s = .next t → exec (.mfcc k') s' = .next t' →
      ∀ j < f.nbDctOutputs, elementAt t'.dmem (s'.arg 1 + j) = elementAt t.dmem (s.arg 1 + j)

/-! ### The passes of the engines -/

/-- Bit b of the m-bit reversal of i is bit m-1-b of i; the reversal is its own inverse; five values
(42_bit_reversal_permutation.md R165). -/
def Obligations.BitReversalReadsTheBitsBackwards : Prop :=
  (∀ m i : Nat, i < 2 ^ m → bitrev m i < 2 ^ m ∧ (∀ b < m, (bitrev m i).testBit b = i.testBit (m - 1 - b)) ∧
    bitrev m (bitrev m i) = i) ∧
  bitrev 0 0 = 0 ∧ bitrev 3 1 = 4 ∧ bitrev 3 3 = 6 ∧ bitrev 3 5 = 5 ∧ bitrev 4 1 = 8 ∧ bitrev 12 1 = 2048

/-- With `BITREV` 1 a transform leaves at element i what it leaves with `BITREV` 0 at element `bitrev_m(i)`, the pattern
unchanged (42_bit_reversal_permutation.md R169, R171). -/
def Obligations.NaturalOrderIsTheReversalOfTheOutput : Prop :=
  ∀ (tag : Tag) (k : BitVec 8) (inv : Bool) (s t t' : State) (c : ComplexInstance) (m : Nat),
    s.slotAt k = some (.cfft c) → c.tag = tag → c.Wf → c.fftLen = 2 ^ m →
    exec (transformCommand tag k inv false) s = .next t → exec (transformCommand tag k inv true) s = .next t' →
      ∀ i < 2 ^ m, cget t'.dmem (s.arg 0) i = cget t.dmem (s.arg 0) (bitrev m i)

/-- "Applying the pass twice restores the buffer", and with it the whole memory (42_bit_reversal_permutation.md R169). -/
def Obligations.ReorderingTwiceRestoresTheMemory : Prop :=
  ∀ (c : ComplexInstance) (b : Nat) (m m' m'' : Memory), c.Wf → Memory.wf m = true →
    bitReverse c b m = .ok m' → bitReverse c b m' = .ok m'' → m'' = m

/-- `Scale` multiplies every one of the 2N elements once by `onebyfftLen` and changes nothing else
(45_complex_fft_engine.md R211). -/
def Obligations.ScalingMultipliesEveryElement : Prop :=
  ∀ (c : ComplexInstance) (b : Nat) (m m' : Memory), scale c b m = .ok m' →
    (∀ i < 2 * c.fftLen, ∃ x, elementAt m (b + i) = some x ∧ elementAt m' (b + i) = some (num.hMul x c.onebyfftLen)) ∧
    unchangedOutside [complexBuffer c b] m m'

/-- The composition of stages per tag, and its consequence: instances of tags `GENERAL` and `RADIX4` of one length give
the same result, fault or state, bit for bit; and at length 2 so does `RADIX2` (45_complex_fft_engine.md R210). For length
2^q, `RADIX2` performs radix-2 stages of block sizes 2^q, ..., 4, 2; the others perform radix-4 stages of block sizes 2^q,
2^(q-2), ..., down to 4 or 8, and then, when q is odd, the radix-2 stage of block size 2. -/
def Obligations.GeneralAndRadix4AreBitIdentical : Prop :=
  (∀ (c : ComplexInstance) (b q : Nat) (inv : Bool) (m : Memory), c.fftLen = 2 ^ q →
    (c.tag = .radix2 →
      network c b inv m = runAll (fun j => stage2 c b (2 ^ (j + 1)) inv) (List.range q).reverse m) ∧
    (c.tag ≠ .radix2 →
      network c b inv m =
        runAll (fun j => stage4 c b (2 ^ (q % 2) * 4 ^ (j + 1)) inv) (List.range (q / 2)).reverse m >>=
          fun m => if q % 2 = 1 then stage2 c b 2 inv m else .ok m)) ∧
  ∀ (k k' k'' : BitVec 8) (inv br : Bool) (s : State) (n : Nat), s.slotAt k = some (.cfft (makeCfft .general n)) →
    s.slotAt k' = some (.cfft (makeCfft .radix4 n)) →
      exec (.cfft k inv br) s = exec (.cfftR4 k' inv br) s ∧
      (n = 2 → s.slotAt k'' = some (.cfft (makeCfft .radix2 n)) → exec (.cfftR2 k'' inv br) s = exec (.cfft k inv br) s)

/-- The butterflies of one stage may be performed in any order with the same result (45_complex_fft_engine.md R207,
20_memory.md R75); and what they compute, every operation written out: the twiddle multiplication of either direction
(43_fft_butterfly_radix2.md R180), the two-point butterfly (R182) at the places and with the twiddle indices of a radix-2
stage (45_complex_fft_engine.md R208), and the four-point butterfly (44_fft_butterfly_radix4.md R192) at those of a
radix-4 stage (R209): y0, y2, y1, y3 in the first, second, third and fourth place. -/
def Obligations.ButterfliesOfAStageMayBeReordered : Prop :=
  (∀ (c : ComplexInstance) (b n : Nat) (inv : Bool) (m m' : Memory) (order : List (Nat × Nat)), Memory.wf m = true →
    (order.Perm (stagePlaces (c.fftLen / n) (n / 2)) → stage2 c b n inv m = .ok m' →
      runAll (stage2Place c b n inv) order m = .ok m') ∧
    (order.Perm (stagePlaces (c.fftLen / n) (n / 4)) → stage4 c b n inv m = .ok m' →
      runAll (stage4Place c b n inv) order m = .ok m')) ∧
  (∀ (u : Complex16) (w : RomEntry),
    twMul u w false = ⟨num.hAdd (num.hMul u.re w.c) (num.hMul u.im w.s), num.hSub (num.hMul u.im w.c) (num.hMul u.re w.s)⟩ ∧
    twMul u w true = ⟨num.hSub (num.hMul u.re w.c) (num.hMul u.im w.s), num.hAdd (num.hMul u.im w.c) (num.hMul u.re w.s)⟩) ∧
  (∀ (c : ComplexInstance) (b j block k : Nat) (inv : Bool) (m m' : Memory), c.Wf → 1 ≤ j → 2 ^ j ≤ c.fftLen →
    block < c.fftLen / 2 ^ j → k < 2 ^ j / 2 → stage2 c b (2 ^ j) inv m = .ok m' →
      ∃ p q, cget m b (block * 2 ^ j + k) = .ok p ∧ cget m b (block * 2 ^ j + k + 2 ^ j / 2) = .ok q ∧
        cget m' b (block * 2 ^ j + k) = .ok ⟨num.hAdd p.re q.re, num.hAdd p.im q.im⟩ ∧
        cget m' b (block * 2 ^ j + k + 2 ^ j / 2) =
          .ok (twMul ⟨num.hSub p.re q.re, num.hSub p.im q.im⟩ (twiddle (k * (4096 / 2 ^ j))) inv)) ∧
  ∀ (c : ComplexInstance) (b j block k : Nat) (inv : Bool) (m m' : Memory), c.Wf → 2 ≤ j → 2 ^ j ≤ c.fftLen →
    block < c.fftLen / 2 ^ j → k < 2 ^ j / 4 → stage4 c b (2 ^ j) inv m = .ok m' →
      ∃ p q r v, cget m b (block * 2 ^ j + k) = .ok p ∧ cget m b (block * 2 ^ j + k + 2 ^ j / 4) = .ok q ∧
        cget m b (block * 2 ^ j + k + 2 * (2 ^ j / 4)) = .ok r ∧ cget m b (block * 2 ^ j + k + 3 * (2 ^ j / 4)) = .ok v ∧
        let t0 : Complex16 := ⟨num.hAdd p.re r.re, num.hAdd p.im r.im⟩
        let t1 : Complex16 := ⟨num.hSub p.re r.re, num.hSub p.im r.im⟩
        let t2 : Complex16 := ⟨num.hAdd q.re v.re, num.hAdd q.im v.im⟩
        let t3 : Complex16 := ⟨num.hSub q.re v.re, num.hSub q.im v.im⟩
        let minus : Complex16 := ⟨num.hAdd t1.re t3.im, num.hSub t1.im t3.re⟩
        let plus : Complex16 := ⟨num.hSub t1.re t3.im, num.hAdd t1.im t3.re⟩
        cget m' b (block * 2 ^ j + k) = .ok ⟨num.hAdd t0.re t2.re, num.hAdd t0.im t2.im⟩ ∧
        cget m' b (block * 2 ^ j + k + 2 ^ j / 4) =
          .ok (twMul ⟨num.hSub t0.re t2.re, num.hSub t0.im t2.im⟩ (twiddle (2 * k * (4096 / 2 ^ j))) inv) ∧
        cget m' b (block * 2 ^ j + k + 2 * (2 ^ j / 4)) =
          .ok (twMul (if inv then plus else minus) (twiddle (k * (4096 / 2 ^ j))) inv) ∧
        cget m' b (block * 2 ^ j + k + 3 * (2 ^ j / 4)) =
          .ok (twMul (if inv then minus else plus) (twiddle (3 * k * (4096 / 2 ^ j))) inv)

/-- The forward transform of the impulse, of any length and tag and in either order, is exactly 1 in every bin
(45_complex_fft_engine.md R221, the note on the impulse). -/
def Obligations.ComplexImpulseHasAConstantSpectrum : Prop :=
  ∀ (tag : Tag) (k : BitVec 8) (br : Bool) (s : State) (c : ComplexInstance), s.slotAt k = some (.cfft c) →
    c.tag = tag → c.Wf → cget s.dmem (s.arg 0) 0 = .ok ⟨oneH, zeroH⟩ →
    inRange (complexBuffer c (s.arg 0)) = true →
    (∀ i, 0 < i → i < c.fftLen → cget s.dmem (s.arg 0) i = .ok ⟨zeroH, zeroH⟩) →
      ∃ m, exec (transformCommand tag k false br) s = .next (s.withDmem m) ∧
        ∀ i < c.fftLen, cget m (s.arg 0) i = .ok ⟨oneH, zeroH⟩

/-- The forward real transform of the impulse is exactly 1 in every bin (46_real_fft_adapter.md R243). -/
def Obligations.RealImpulseHasAConstantSpectrum : Prop :=
  ∀ (k : BitVec 8) (s : State) (r : RealInstance), s.slotAt k = some (.rfft r) → r.Wf →
    inRange (timeBuffer r (s.arg 0)) = true → inRange (spectrumBuffer r (s.arg 1)) = true →
    overlap (timeBuffer r (s.arg 0)) (spectrumBuffer r (s.arg 1)) = false →
    elementAt s.dmem (s.arg 0) = some oneH →
    (∀ i, 0 < i → i < r.fftLenRFFT → elementAt s.dmem (s.arg 0 + i) = some zeroH) →
      ∃ m, exec (.rfft k false) s = .next (s.withDmem m) ∧
        ∀ j ≤ r.fftLenRFFT / 2, cget m (s.arg 1) j = .ok ⟨oneH, zeroH⟩

/-- Step 3 of the MFCC leaves at element k the magnitude of bin k of the spectrum it was given, also where it overwrites
that spectrum as it goes (49_mfcc_extractor.md R278). -/
def Obligations.MagnitudesAreThoseOfTheGivenSpectrum : Prop :=
  ∀ (sp : MfccSpectrum) (f : MfccInstance) (spectrum scr : Nat) (m m' : Memory),
    spectrum = scr ∨ scr + (f.fftLen / 2 + 1) ≤ spectrum →
    magnitudeStep sp f spectrum scr m = .ok m' →
      ∀ k ≤ f.fftLen / 2, ∃ z, cget m spectrum k = .ok z ∧ elementAt m' (scr + k) = some (binMagnitude sp z)

/-- Every energy that is less than `LOG_FLOOR` gives ln(2^-14), pattern 0xC8DA; NaN gives NaN, 1 gives +0, +infinity
gives +infinity (49_mfcc_extractor.md R279). -/
def Obligations.LogarithmHasItsFloor : Prop :=
  (∀ e : Half, num.hLt e 0x0400#16 = true → logCompress e = 0xC8DA#16) ∧
  (∀ e : Half, num.hIsNaN e = true → logCompress e = 0x7E00#16) ∧
  logCompress 0x3C00#16 = 0x0000#16 ∧ logCompress 0x7C00#16 = 0x7C00#16

/-! ### Buffers and the twiddle ROM -/

/-- Two buffers overlap exactly when they have an element address in common (20_memory.md R67). -/
def Obligations.OverlapMeansACommonElement : Prop :=
  ∀ b c : Buffer, overlap b c = true ↔ ∃ a, inBuffer b a = true ∧ inBuffer c a = true

/-- A quarter turn: the entry `NMAX`/4 further on is (-s, c), with no negative zero (41_twiddle_rom.md R153). -/
def Obligations.TwiddleQuarterTurn : Prop :=
  ∀ k < 3072, twiddle (k + 1024) = ⟨if (twiddle k).s = 0x0000#16 then 0x0000#16 else num.hNeg (twiddle k).s, (twiddle k).c⟩

/-- Every index with which a stage or the real adapter reads the ROM lies in it: below `NMAX`/2 in a radix-2 stage and in
the adapter, below 3`NMAX`/4 in a radix-4 stage (41_twiddle_rom.md R155, R156). -/
def Obligations.TwiddleIndicesLieInTheRom : Prop :=
  (∀ (c : ComplexInstance) (j k : Nat), c.Wf → 2 ^ j ≤ c.fftLen →
    c.fftLen / 2 ^ j * c.twidCoefModifier = 4096 / 2 ^ j ∧
    (k < 2 ^ j / 2 → k * (4096 / 2 ^ j) < 2048) ∧ (k < 2 ^ j / 4 → 3 * k * (4096 / 2 ^ j) < 3072)) ∧
  ∀ (r : RealInstance) (k : Nat), r.Wf → k < r.fftLenRFFT / 2 → k * r.rfftTwidModifier < 2048

/-! ### Numerics -/

/-- `round_X` is to nearest, ties to even, with overflow to infinity exactly from the middle above the largest finite
value on (40_numerics.md R124); the real number there is mag * 2^-extra in units of the subnormal spacing. And on finite
operands the operations of `NUM` are that rounding of the exact sum, difference, product or value, with its sign, and of
an exact zero the zero of the sign that R125 gives (R125, R128, R129). Exact values are integers: sums in units of 2^-24
(H) and 2^-149 (A), products in units of 2^-48 and 2^-298, a narrowed value in units of 2^-149. -/
def Obligations.RoundingIsToNearestEven : Prop :=
  (∀ f ∈ [formatH, formatA], ∀ mag extra q : Nat, q < infinityPattern f →
    (roundMagnitude f mag extra < infinityPattern f →
      |(mag : Int) - magnitudeOf f (roundMagnitude f mag extra) * 2 ^ extra| ≤ |(mag : Int) - magnitudeOf f q * 2 ^ extra| ∧
      (|(mag : Int) - magnitudeOf f (roundMagnitude f mag extra) * 2 ^ extra| = |(mag : Int) - magnitudeOf f q * 2 ^ extra| →
        q ≠ roundMagnitude f mag extra → roundMagnitude f mag extra % 2 = 0)) ∧
    (roundMagnitude f mag extra = infinityPattern f ↔
      (magnitudeOf f (infinityPattern f - 1) + magnitudeOf f (infinityPattern f)) * 2 ^ extra ≤ 2 * mag) ∧
    roundMagnitude f mag extra ≤ infinityPattern f) ∧
  (∀ x y : Half, isFinite formatH x.toNat = true → isFinite formatH y.toNat = true →
    let vx := scaledValue formatH x.toNat
    let vy := scaledValue formatH y.toNat
    let sx := signOf formatH x.toNat
    let sy := signOf formatH y.toNat
    (num.hAdd x y).toNat = roundedPattern formatH (vx + vy) 0 (sx && sy) ∧
    (num.hSub x y).toNat = roundedPattern formatH (vx - vy) 0 (sx && !sy) ∧
    (num.hMul x y).toNat = roundedPattern formatH (vx * vy) 24 (sx ^^ sy)) ∧
  (∀ x y : Accum, isFinite formatA x.toNat = true → isFinite formatA y.toNat = true →
    let vx := scaledValue formatA x.toNat
    let vy := scaledValue formatA y.toNat
    let sx := signOf formatA x.toNat
    let sy := signOf formatA y.toNat
    (num.aAdd x y).toNat = roundedPattern formatA (vx + vy) 0 (sx && sy) ∧
    (num.aMul x y).toNat = roundedPattern formatA (vx * vy) 149 (sx ^^ sy)) ∧
  ∀ x : Accum, isFinite formatA x.toNat = true →
    (num.hOfA x).toNat = roundedPattern formatH (scaledValue formatA x.toNat) (149 - 24) (signOf formatA x.toNat)

/-- Every NaN that an operation of `NUM` produces is the canonical one, whatever NaN its operands are
(40_numerics.md R132). -/
def Obligations.ProducedNaNsAreCanonical : Prop :=
  (∀ x y : Half, (halfIsNaN x = true ∨ halfIsNaN y = true →
      num.hAdd x y = 0x7E00#16 ∧ num.hSub x y = 0x7E00#16 ∧ num.hMul x y = 0x7E00#16) ∧
    (∀ z ∈ [num.hAdd x y, num.hSub x y, num.hMul x y], halfIsNaN z = true → z = 0x7E00#16)) ∧
  (∀ x : Half, halfIsNaN x = true ↔ num.aOfH x = 0x7FC00000#32) ∧
  (∀ x y : Accum, (isNaN formatA x.toNat = true ∨ isNaN formatA y.toNat = true →
      num.aAdd x y = 0x7FC00000#32 ∧ num.aMul x y = 0x7FC00000#32) ∧
    (isNaN formatA x.toNat = true →
      num.aSqrt x = 0x7FC00000#32 ∧ num.aLog x = 0x7FC00000#32 ∧ num.hOfA x = 0x7E00#16) ∧
    (∀ z ∈ [num.aAdd x y, num.aMul x y, num.aSqrt x, num.aLog x], isNaN formatA z.toNat = true → z = 0x7FC00000#32) ∧
    (halfIsNaN (num.hOfA x) = true → num.hOfA x = 0x7E00#16)) ∧
  (∀ x : Half, isNaN formatA (num.aOfH x).toNat = true → num.aOfH x = 0x7FC00000#32) ∧
  ∀ x : Half, num.hNeg x = x ^^^ 0x8000#16

/-- The consequences that 40_numerics.md R125 draws: a product with 1 is exact for every number, a product with +0 is a
zero of the operand's sign or NaN, x - x is +0 for finite x, and a sum with -0 is exact. -/
def Obligations.ProductsAndSumsWithOneAndZero : Prop :=
  ∀ x : Half, halfIsNaN x = false →
    num.hMul x oneH = x ∧
    (isInfinite formatH x.toNat = false → num.hMul x zeroH = x &&& 0x8000#16 ∧ num.hSub x x = zeroH) ∧
    (isInfinite formatH x.toNat = true → num.hMul x zeroH = 0x7E00#16 ∧ num.hSub x x = 0x7E00#16) ∧
    num.hAdd x 0x8000#16 = x

/-- Widening to the accumulator format is exact: every number comes back (40_numerics.md R128). -/
def Obligations.WideningIsExact : Prop :=
  ∀ x : Half, halfIsNaN x = false → num.hOfA (num.aOfH x) = x ∧
    (isInfinite formatH x.toNat = false →
      scaledValue formatA (num.aOfH x).toNat = scaledValue formatH x.toNat * 2 ^ (149 - 24))

/-- `a_sqrt` of a positive finite value is the pattern nearest to the exact root (40_numerics.md R130), all magnitudes in
units of the subnormal spacing 2^-149. -/
def Obligations.SquareRootIsCorrectlyRounded : Prop :=
  ∀ (x : Accum) (q : Nat), signOf formatA x.toNat = false → isZero formatA x.toNat = false →
    x.toNat < infinityPattern formatA → q < infinityPattern formatA →
      (num.aSqrt x).toNat < infinityPattern formatA ∧
      |Real.sqrt (magnitudeOf formatA x.toNat * 2 ^ 149) - magnitudeOf formatA (num.aSqrt x).toNat| ≤
        |Real.sqrt (magnitudeOf formatA x.toNat * 2 ^ 149) - magnitudeOf formatA q|

/-- The fixed-point logarithm that `a_log` rounds is within 2^-176 of the natural logarithm, for every positive finite
accumulator value; and `a_log` of every such value is finite and, but for 2^-174, as near to the exact logarithm as any
pattern is (40_numerics.md R130). The working precision is the model's choice, log entry 8, which says how little 2^-174
is beside the spacing of the patterns. -/
def Obligations.FixedPointLogarithmIsClose : Prop :=
  (∀ mag : Nat, 0 < mag → mag < 2 ^ 277 →
    |(lnFixed mag 149 : ℝ) - 2 ^ 192 * Real.log ((mag : ℝ) / 2 ^ 149)| ≤ 2 ^ 16) ∧
  ∀ x q : Accum, 0 < x.toNat → x.toNat < infinityPattern formatA → isFinite formatA q.toNat = true →
    let exact := Real.log ((magnitudeOf formatA x.toNat : ℝ) / 2 ^ 149)
    isFinite formatA (num.aLog x).toNat = true ∧
    |exact - (scaledValue formatA (num.aLog x).toNat : ℝ) / 2 ^ 149| ≤
      |exact - (scaledValue formatA q.toNat : ℝ) / 2 ^ 149| + 1 / 2 ^ 174

/-- `a_log` is correctly rounded for every argument that a command can give it: of a widened positive finite half it is
the pattern nearest to the exact logarithm (40_numerics.md R130; 49_mfcc_extractor.md R279). How it is computed is the
model's choice, log entry 8. -/
def Obligations.LogarithmIsCorrectlyRounded : Prop :=
  ∀ (x : Half) (q : Accum), 0 < x.toNat → x.toNat < infinityPattern formatH → isFinite formatA q.toNat = true →
    let exact := Real.log ((magnitudeOf formatH x.toNat : ℝ) / 2 ^ 24)
    isFinite formatA (num.aLog (num.aOfH x)).toNat = true ∧
    |exact - (scaledValue formatA (num.aLog (num.aOfH x)).toNat : ℝ) / 2 ^ 149| ≤
      |exact - (scaledValue formatA q.toNat : ℝ) / 2 ^ 149|

/-! ### Assembler notation -/

/-- Each line of the assembler notation does what the notation says (30_encoding.md R99). That a line is data that expands
to one transaction is the model's choice, log entry 18; that the transaction leaves `pending`, and what stands in
`response` after it, are log entries 1 and 2. -/
def Obligations.AssemblerLinesAreTheirTransactions : Prop :=
  ∀ (s : State) (rest : List HostTxn),
    (∀ i v, s.pending = asmTransaction (.seta i v) :: rest → step s = .next ((takeTransaction s rest).setArg i v)) ∧
    (∀ i, i.wellFormed = true → s.pending = asmTransaction (.command i) :: rest →
      step s = exec i (takeTransaction s rest)) ∧
    (s.pending = asmTransaction .rdst :: rest →
      step s = .next { takeTransaction s rest with response := .register s.status }) ∧
    (∀ a v, s.pending = asmTransaction (.hwr a v) :: rest →
      step s = commit (takeTransaction s rest) (memWrite s.dmem a v)) ∧
    ∀ a, s.pending = asmTransaction (.hrd a) :: rest → step s = hostRead (takeTransaction s rest) a
end

