-- ==== Sys2Proof/Laws/Loops.lean ====
section
/-! SUPPORT. The loop of the pseudocode and the sequencing of operations that may end in a violation, each induction packaged once. -/

namespace Sys2Proof.Machine

/-- A sequence answers when its parts do. -/
theorem bind_ok_iff {α β : Type} (x : Except Fault α) (f : α → Except Fault β) (b : β) :
    (x >>= f) = .ok b ↔ ∃ a, x = .ok a ∧ f a = .ok b := by
  cases x with
  | ok a => simp [bind, Except.bind]
  | error e => simp [bind, Except.bind]

/-- An answered first part is replaced by its answer. -/
theorem bind_of_ok {α β : Type} {x : Except Fault α} {a : α} (h : x = .ok a) (f : α → Except Fault β) :
    (x >>= f) = f a := by
  subst h
  rfl

theorem forUpTo_zero {α : Type} (f : Nat → α → Except Fault α) (a : α) : forUpTo 0 f a = .ok a := rfl

theorem forUpTo_succ {α : Type} (n : Nat) (f : Nat → α → Except Fault α) (a : α) :
    forUpTo (n + 1) f a = (forUpTo n f a >>= f n) := rfl

/-- If every iteration answers and takes the invariant a step on, the loop answers with the invariant at its end. -/
theorem forUpTo_rule {α : Type} (inv : Nat → α → Prop) {n : Nat} {f : Nat → α → Except Fault α} {a : α}
    (h0 : inv 0 a) (hs : ∀ i < n, ∀ b, inv i b → ∃ c, f i b = .ok c ∧ inv (i + 1) c) :
    ∃ c, forUpTo n f a = .ok c ∧ inv n c := by
  induction n with
  | zero => exact ⟨a, rfl, h0⟩
  | succ n ih =>
    obtain ⟨b, hb, ib⟩ := ih fun i hi => hs i (Nat.lt_succ_of_lt hi)
    obtain ⟨c, hc, ic⟩ := hs n (Nat.lt_succ_self n) b ib
    exact ⟨c, by rw [forUpTo_succ, bind_of_ok hb, hc], ic⟩

/-- If the loop answered, an invariant that every answered iteration takes a step on holds at its end. -/
theorem forUpTo_ok {α : Type} (inv : Nat → α → Prop) {n : Nat} {f : Nat → α → Except Fault α} {a c : α}
    (h : forUpTo n f a = .ok c) (h0 : inv 0 a)
    (hs : ∀ i < n, ∀ b d, f i b = .ok d → inv i b → inv (i + 1) d) : inv n c := by
  induction n generalizing c with
  | zero =>
    rw [forUpTo_zero] at h
    cases h
    exact h0
  | succ n ih =>
    rw [forUpTo_succ, bind_ok_iff] at h
    obtain ⟨b, hb, hc⟩ := h
    exact hs n (Nat.lt_succ_self n) b c hc (ih hb fun i hi => hs i (Nat.lt_succ_of_lt hi))

/-- Two loops side by side: if the first answered and every iteration of it is matched by the second, the second
answers in step. -/
theorem forUpTo_match {α β : Type} (rel : Nat → α → β → Prop) {n : Nat} {f : Nat → α → Except Fault α}
    {g : Nat → β → Except Fault β} {a c : α} {a' : β} (h : forUpTo n f a = .ok c) (h0 : rel 0 a a')
    (hs : ∀ i < n, ∀ b d b', f i b = .ok d → rel i b b' → ∃ d', g i b' = .ok d' ∧ rel (i + 1) d d') :
    ∃ c', forUpTo n g a' = .ok c' ∧ rel n c c' := by
  induction n generalizing c with
  | zero =>
    rw [forUpTo_zero] at h
    cases h
    exact ⟨a', rfl, h0⟩
  | succ n ih =>
    rw [forUpTo_succ, bind_ok_iff] at h
    obtain ⟨b, hb, hc⟩ := h
    obtain ⟨b', hb', r⟩ := ih hb fun i hi => hs i (Nat.lt_succ_of_lt hi)
    obtain ⟨c', hc', r'⟩ := hs n (Nat.lt_succ_self n) b c b' hc r
    exact ⟨c', by rw [forUpTo_succ, bind_of_ok hb', hc'], r'⟩

/-- Two loops with equal iterations are equal. -/
theorem forUpTo_congr {α : Type} {n : Nat} {f g : Nat → α → Except Fault α} (a : α)
    (h : ∀ i < n, ∀ b, f i b = g i b) : forUpTo n f a = forUpTo n g a := by
  induction n with
  | zero => rfl
  | succ n ih =>
    rw [forUpTo_succ, forUpTo_succ, ih fun i hi => h i (Nat.lt_succ_of_lt hi)]
    cases forUpTo n g a with
    | ok b => exact h n (Nat.lt_succ_self n) b
    | error e => rfl

end Sys2Proof.Machine
end

