-- ==== Sys2Proof/Laws/Memory.lean ====
section
/-! SUPPORT. Data memory: a read after a write, a write leaves every other byte alone, and every memory operation keeps the canonical form. -/

namespace Sys2Proof.Machine

/-! ### Bytes -/

@[simp] theorem byteAt_setByte_same (m : Memory) (n : Nat) (v : Byte) : byteAt (setByte m n v) n = some v := by
  induction m with
  | nil => simp [setByte, byteAt]
  | cons c rest ih =>
    obtain ⟨k, w⟩ := c
    simp only [setByte]
    split
    · simp [byteAt]
    · split
      · simp [byteAt]
      · rename_i h1 h2
        simp [byteAt, Ne.symm h2, ih]

theorem byteAt_setByte_other (m : Memory) {n a : Nat} (v : Byte) (h : a ≠ n) :
    byteAt (setByte m n v) a = byteAt m a := by
  induction m with
  | nil => simp [setByte, byteAt, Ne.symm h]
  | cons c rest ih =>
    obtain ⟨k, w⟩ := c
    simp only [setByte]
    split
    · simp [byteAt, Ne.symm h]
    · split
      · rename_i h1 h2
        subst h2
        simp [byteAt, Ne.symm h]
      · simp only [byteAt, ih]

theorem byteAt_setByte (m : Memory) (n a : Nat) (v : Byte) :
    byteAt (setByte m n v) a = if a = n then some v else byteAt m a := by
  split
  · rename_i h; subst h; simp
  · exact byteAt_setByte_other m v ‹_›

/-! ### Elements -/

@[simp] theorem elementOfBytes_bytes (v : Half) : elementOfBytes (lowerByte v) (higherByte v) = v := by
  simp only [elementOfBytes, lowerByte, higherByte, Config.hostByteOrder]
  apply BitVec.eq_of_getLsbD_eq
  intro i hi
  simp only [BitVec.getLsbD_append, BitVec.getLsbD_extractLsb']
  split
  · simp [*]
  · have : i - 8 < 8 := by omega
    have e : 8 + (i - 8) = i := by omega
    simp [this, e]

theorem byteAt_setElement (m : Memory) (a n : Nat) (v : Half) :
    byteAt (setElement m a v) n =
      if n = 2 * a + 1 then some (higherByte v) else if n = 2 * a then some (lowerByte v) else byteAt m n := by
  simp only [setElement, byteAt_setByte]

/-- A write of element a leaves every byte of every other element alone. -/
theorem byteAt_setElement_other (m : Memory) {a n : Nat} (v : Half) (h : n / 2 ≠ a) :
    byteAt (setElement m a v) n = byteAt m n := by
  rw [byteAt_setElement, if_neg (by omega), if_neg (by omega)]

@[simp] theorem elementAt_setElement_same (m : Memory) (a : Nat) (v : Half) :
    elementAt (setElement m a v) a = some v := by
  simp [elementAt, byteAt_setElement]

theorem elementAt_setElement_other (m : Memory) {a c : Nat} (v : Half) (h : c ≠ a) :
    elementAt (setElement m a v) c = elementAt m c := by
  simp only [elementAt]
  rw [byteAt_setElement_other m v (by omega), byteAt_setElement_other m v (by omega)]

theorem elementAt_setElement (m : Memory) (a c : Nat) (v : Half) :
    elementAt (setElement m a v) c = if c = a then some v else elementAt m c := by
  split
  · rename_i h; subst h; simp
  · exact elementAt_setElement_other m v ‹_›

theorem written_setElement (m : Memory) (a c : Nat) (v : Half) :
    written (setElement m a v) c = (decide (c = a) || written m c) := by
  simp only [written, elementAt_setElement]
  split <;> simp [*]

theorem elementAt_congr {m m' : Memory} {a : Nat} (h : ∀ n, n / 2 = a → byteAt m' n = byteAt m n) :
    elementAt m' a = elementAt m a := by
  simp only [elementAt, h (2 * a) (by omega), h (2 * a + 1) (by omega)]

/-! ### The canonical form -/

theorem mem_of_byteAt {m : Memory} {n : Nat} (h : (byteAt m n).isSome) : ∃ v, (n, v) ∈ m := by
  induction m with
  | nil => simp [byteAt] at h
  | cons c rest ih =>
    obtain ⟨k, w⟩ := c
    simp only [byteAt] at h
    split at h
    · rename_i e; exact ⟨w, by simp [e]⟩
    · obtain ⟨v, hv⟩ := ih h
      exact ⟨v, List.mem_cons_of_mem _ hv⟩

theorem byteAt_of_mem {m : Memory} {c : Host.Cell} (h : c ∈ m) : (byteAt m c.1).isSome := by
  induction m with
  | nil => simp at h
  | cons d rest ih =>
    obtain ⟨k, w⟩ := d
    simp only [byteAt]
    split
    · rfl
    · rename_i hne
      rcases List.mem_cons.mp h with rfl | h'
      · exact absurd rfl hne
      · exact ih h'

theorem all_addresses_iff (m : Memory) (p : Nat → Bool) :
    m.all (fun c => p c.1) = true ↔ ∀ n, (byteAt m n).isSome → p n = true := by
  rw [List.all_eq_true]
  constructor
  · intro h n hn
    obtain ⟨v, hv⟩ := mem_of_byteAt hn
    exact h _ hv
  · intro h c hc
    exact h _ (byteAt_of_mem hc)

/-- What the canonical form says, through reads of single bytes. -/
theorem Memory.wf_iff (m : Memory) :
    Memory.wf m = true ↔
      risingCells m = true ∧
        ∀ n, (byteAt m n).isSome → n < 2 * Config.dmemWords ∧ (byteAt m (otherByte n)).isSome := by
  simp only [Memory.wf, Bool.and_eq_true, all_addresses_iff m (fun n => decide (n < 2 * Config.dmemWords)),
    all_addresses_iff m (fun n => (byteAt m (otherByte n)).isSome), decide_eq_true_eq, and_assoc]
  exact and_congr_right fun _ => ⟨fun h n hn => ⟨h.1 n hn, h.2 n hn⟩, fun h => ⟨fun n hn => (h n hn).1, fun n hn => (h n hn).2⟩⟩

theorem Memory.wf_nil : Memory.wf [] = true := rfl

theorem risingCells_tail {c : Host.Cell} {m : Memory} (h : risingCells (c :: m) = true) : risingCells m = true := by
  cases m with
  | nil => rfl
  | cons d rest =>
    simp only [risingCells, Bool.and_eq_true] at h
    exact h.2

theorem risingCells_setByte (m : Memory) (n : Nat) (v : Byte) (h : risingCells m = true) :
    risingCells (setByte m n v) = true := by
  induction m with
  | nil => rfl
  | cons c rest ih =>
    obtain ⟨k, w⟩ := c
    have hr := ih (risingCells_tail h)
    by_cases h1 : n < k
    · rw [setByte, if_pos h1]
      simp only [risingCells, Bool.and_eq_true, decide_eq_true_eq]
      exact ⟨h1, h⟩
    · by_cases h2 : n = k
      · rw [setByte, if_neg h1, if_pos h2]
        subst h2
        cases rest with
        | nil => rfl
        | cons d rest' => simpa only [risingCells] using h
      · rw [setByte, if_neg h1, if_neg h2]
        cases rest with
        | nil =>
          simp only [setByte, risingCells, Bool.and_true, decide_eq_true_eq]
          omega
        | cons d rest' =>
          obtain ⟨l, x⟩ := d
          have hkl : k < l := by
            simp only [risingCells, Bool.and_eq_true, decide_eq_true_eq] at h
            exact h.1
          have goal_of : ∀ y z q, setByte ((l, x) :: rest') n v = (y, z) :: q → k < y →
              risingCells ((k, w) :: setByte ((l, x) :: rest') n v) = true := by
            intro y z q e hy
            rw [e] at hr ⊢
            simp only [risingCells, Bool.and_eq_true, decide_eq_true_eq]
            exact ⟨hy, hr⟩
          by_cases h3 : n < l
          · exact goal_of n v _ (by rw [setByte, if_pos h3]) (by omega)
          · by_cases h4 : n = l
            · exact goal_of n v _ (by rw [setByte, if_neg h3, if_pos h4]) (by omega)
            · exact goal_of l x _ (by rw [setByte, if_neg h3, if_neg h4]) hkl

/-- A write of an element inside the data window keeps the canonical form. -/
theorem Memory.wf_setElement {m : Memory} {a : Nat} (v : Half) (ha : a < Config.dmemWords)
    (h : Memory.wf m = true) : Memory.wf (setElement m a v) = true := by
  rw [Memory.wf_iff] at h ⊢
  refine ⟨risingCells_setByte _ _ _ (risingCells_setByte _ _ _ h.1), fun n hn => ?_⟩
  by_cases hin : n / 2 = a
  · refine ⟨by omega, ?_⟩
    rw [byteAt_setElement]
    have : otherByte n = 2 * a + 1 ∨ otherByte n = 2 * a := by
      unfold otherByte
      split <;> omega
    rcases this with e | e <;> simp [e]
  · rw [byteAt_setElement_other m v hin] at hn
    obtain ⟨h1, h2⟩ := h.2 n hn
    refine ⟨h1, ?_⟩
    rw [byteAt_setElement_other m v (by unfold otherByte; split <;> omega)]
    exact h2

theorem byteAt_none_of_lt {k n : Nat} {w : Byte} {m : Memory} (h : risingCells ((k, w) :: m) = true) (hn : n < k) :
    byteAt ((k, w) :: m) n = none := by
  induction m generalizing k w with
  | nil => simp [byteAt, Nat.ne_of_gt hn]
  | cons c rest ih =>
    obtain ⟨l, x⟩ := c
    have h' := h
    simp only [risingCells, Bool.and_eq_true, decide_eq_true_eq] at h'
    rw [byteAt, if_neg (Nat.ne_of_gt hn)]
    exact ih h'.2 (by omega)

/-- Two memories in canonical form that read alike are the same data. -/
theorem Memory.ext_of_rising {m m' : Memory} (h : risingCells m = true) (h' : risingCells m' = true)
    (heq : ∀ n, byteAt m n = byteAt m' n) : m = m' := by
  induction m generalizing m' with
  | nil =>
    cases m' with
    | nil => rfl
    | cons c rest => simpa [byteAt] using heq c.1
  | cons c rest ih =>
    obtain ⟨k, w⟩ := c
    cases m' with
    | nil => simpa [byteAt] using heq k
    | cons d rest' =>
      obtain ⟨l, x⟩ := d
      have hkl : k = l := by
        rcases Nat.lt_trichotomy k l with lt | e | lt
        · have := heq k
          rw [byteAt_none_of_lt h' lt] at this
          simp [byteAt] at this
        · exact e
        · have := heq l
          rw [byteAt_none_of_lt h lt] at this
          simp [byteAt] at this
      subst hkl
      have hw : w = x := by simpa [byteAt] using heq k
      subst hw
      congr 1
      refine ih (risingCells_tail h) (risingCells_tail h') fun n => ?_
      have below : ∀ {r : Memory}, risingCells ((k, w) :: r) = true → byteAt r k = none := by
        intro r hr
        cases r with
        | nil => rfl
        | cons e q =>
          obtain ⟨y, z⟩ := e
          simp only [risingCells, Bool.and_eq_true, decide_eq_true_eq] at hr
          exact byteAt_none_of_lt hr.2 hr.1
      by_cases hn : k = n
      · subst hn
        rw [below h, below h']
      · simpa [byteAt, hn] using heq n

/-! ### The access primitives, said once -/

theorem memRead_ok_iff (m : Memory) (a : Nat) (v : Half) :
    memRead m a = .ok v ↔ a < Config.dmemWords ∧ elementAt m a = some v := by
  unfold memRead
  split
  · cases elementAt m a <;> simp [*]
  · simp [*]

theorem memWrite_ok_iff (m m' : Memory) (a : Nat) (v : Half) :
    memWrite m a v = .ok m' ↔ a < Config.dmemWords ∧ m' = setElement m a v := by
  unfold memWrite
  split <;> simp [*, eq_comm]

theorem written_iff (m : Memory) (a : Nat) : written m a = true ↔ ∃ v, elementAt m a = some v := by
  simp [written, Option.isSome_iff_exists]

end Sys2Proof.Machine
end

