-- ==== Sys2Proof/Laws/Access.lean ====
section
/-! SUPPORT. What the accesses and the butterflies can do, said once: where they write, that they complete on a filled buffer, and that they keep the canonical form. -/

namespace Sys2Proof.Machine

/-- From m to m' only elements in `w` changed, no element lost its value, and the canonical form was kept. -/
structure Within (w : Nat → Prop) (m m' : Memory) : Prop where
  frame : ∀ n, ¬ w (n / 2) → byteAt m' n = byteAt m n
  mono : ∀ a, written m a = true → written m' a = true
  keeps : Memory.wf m = true → Memory.wf m' = true

/-- The element addresses of a buffer. -/
def Region (b n : Nat) : Nat → Prop := fun a => b ≤ a ∧ a < b + n

/-- A buffer that lies in data memory and whose every element has been written. -/
def Filled (m : Memory) (b n : Nat) : Prop := b + n ≤ Config.dmemWords ∧ ∀ a, Region b n a → written m a = true

theorem Within.refl (w : Nat → Prop) (m : Memory) : Within w m m := ⟨fun _ _ => rfl, fun _ h => h, fun h => h⟩

theorem Within.trans {w : Nat → Prop} {m m' m'' : Memory} (h : Within w m m') (h' : Within w m' m'') :
    Within w m m'' :=
  ⟨fun n hn => (h'.frame n hn).trans (h.frame n hn), fun a ha => h'.mono a (h.mono a ha), fun hw => h'.keeps (h.keeps hw)⟩

theorem Within.weaken {w w' : Nat → Prop} {m m' : Memory} (h : Within w m m') (hw : ∀ a, w a → w' a) :
    Within w' m m' :=
  ⟨fun n hn => h.frame n fun hc => hn (hw _ hc), h.mono, h.keeps⟩

theorem Within.elementAt {w : Nat → Prop} {m m' : Memory} (h : Within w m m') {a : Nat} (ha : ¬ w a) :
    elementAt m' a = elementAt m a :=
  elementAt_congr fun n hn => h.frame n (by rw [hn]; exact ha)

theorem Filled.of_within {w : Nat → Prop} {m m' : Memory} {b n : Nat} (hf : Filled m b n) (h : Within w m m') :
    Filled m' b n :=
  ⟨hf.1, fun a ha => h.mono a (hf.2 a ha)⟩

theorem Filled.mono {m : Memory} {b n b' n' : Nat} (hf : Filled m b n) (h1 : b ≤ b') (h2 : b' + n' ≤ b + n) :
    Filled m b' n' :=
  ⟨by have := hf.1; omega, fun a ha => hf.2 a ⟨by have := ha.1; omega, by have := ha.2; omega⟩⟩

theorem allWritten_iff (m : Memory) (b n : Nat) :
    allWritten m b n = true ↔ ∀ a, Region b n a → written m a = true := by
  induction n with
  | zero => simp [allWritten, Region]
  | succ n ih =>
    simp only [allWritten, Bool.and_eq_true, ih, Region]
    constructor
    · rintro ⟨h1, h2⟩ a ha
      by_cases e : a = b + n
      · rw [e]; exact h2
      · exact h1 a ⟨ha.1, by omega⟩
    · intro h
      exact ⟨fun a ha => h a ⟨ha.1, by omega⟩, h (b + n) ⟨by omega, by omega⟩⟩

theorem inRange_iff (b : Buffer) : inRange b = true ↔ b.base + b.length ≤ Config.dmemWords := decide_eq_true_iff

theorem filled_iff (m : Memory) (b n : Nat) :
    Filled m b n ↔ inRange ⟨b, n⟩ = true ∧ allWritten m b n = true := by
  simp [Filled, inRange, allWritten_iff]

theorem inBuffer_iff (b : Buffer) (a : Nat) : inBuffer b a = true ↔ Region b.base b.length a := by
  simp [inBuffer, Region]

/-! ### Single elements -/

theorem setElement_within (m : Memory) {a : Nat} (v : Half) (ha : a < Config.dmemWords) :
    Within (fun c => c = a) m (setElement m a v) :=
  ⟨fun _ hn => byteAt_setElement_other m v hn,
    fun c hc => by rw [written_setElement, hc, Bool.or_true], Memory.wf_setElement v ha⟩

theorem memWrite_within {m m' : Memory} {a : Nat} {v : Half} (h : memWrite m a v = .ok m') :
    Within (fun c => c = a) m m' := by
  obtain ⟨ha, rfl⟩ := (memWrite_ok_iff m m' a v).mp h
  exact setElement_within m v ha

theorem memWrite_completes (m : Memory) {a : Nat} (v : Half) (ha : a < Config.dmemWords) :
    memWrite m a v = .ok (setElement m a v) := (memWrite_ok_iff _ _ _ _).mpr ⟨ha, rfl⟩

theorem memRead_completes {m : Memory} {a : Nat} (ha : a < Config.dmemWords) (hw : written m a = true) :
    ∃ v, memRead m a = .ok v ∧ elementAt m a = some v := by
  obtain ⟨v, hv⟩ := (written_iff m a).mp hw
  exact ⟨v, (memRead_ok_iff _ _ _).mpr ⟨ha, hv⟩, hv⟩

theorem Filled.memRead {m : Memory} {b n a : Nat} (hf : Filled m b n) (h1 : b ≤ a) (h2 : a < b + n) :
    ∃ v, memRead m a = .ok v ∧ elementAt m a = some v :=
  memRead_completes (by have := hf.1; omega) (hf.2 a ⟨h1, h2⟩)

/-! ### Complex elements -/

/-- The two element addresses of complex element i. -/
def ComplexAt (b i : Nat) : Nat → Prop := fun a => a = complexRe b i ∨ a = complexIm b i

theorem cget_ok_iff (m : Memory) (b i : Nat) (z : Complex16) :
    cget m b i = .ok z ↔
      complexIm b i < Config.dmemWords ∧ elementAt m (complexRe b i) = some z.re ∧
        elementAt m (complexIm b i) = some z.im := by
  simp only [cget, bind_ok_iff, memRead_ok_iff, complexRe, complexIm]
  constructor
  · rintro ⟨re, ⟨h1, h2⟩, im, ⟨h3, h4⟩, h5⟩
    cases h5
    exact ⟨h3, h2, h4⟩
  · rintro ⟨h1, h2, h3⟩
    exact ⟨z.re, ⟨by omega, h2⟩, z.im, ⟨h1, h3⟩, rfl⟩

theorem cput_ok_iff (m m' : Memory) (b i : Nat) (z : Complex16) :
    cput m b i z = .ok m' ↔
      complexIm b i < Config.dmemWords ∧
        m' = setElement (setElement m (complexRe b i) z.re) (complexIm b i) z.im := by
  simp only [cput, bind_ok_iff, memWrite_ok_iff, complexRe, complexIm]
  constructor
  · rintro ⟨m1, ⟨h1, rfl⟩, h2, rfl⟩
    exact ⟨h2, rfl⟩
  · rintro ⟨h1, rfl⟩
    exact ⟨_, ⟨by omega, rfl⟩, h1, rfl⟩

theorem cput_within {m m' : Memory} {b i : Nat} {z : Complex16} (h : cput m b i z = .ok m') :
    Within (ComplexAt b i) m m' := by
  obtain ⟨hi, rfl⟩ := (cput_ok_iff m m' b i z).mp h
  have hr : complexRe b i < Config.dmemWords := by simp only [complexRe, complexIm] at *; omega
  exact ((setElement_within m z.re hr).weaken fun _ e => Or.inl e).trans
    ((setElement_within _ z.im hi).weaken fun _ e => Or.inr e)

/-- After a write of a complex element both its parts have been written. -/
theorem cput_written {m m' : Memory} {b i : Nat} {z : Complex16} (h : cput m b i z = .ok m') {a : Nat}
    (ha : ComplexAt b i a) : written m' a = true := by
  obtain ⟨hi, rfl⟩ := (cput_ok_iff m m' b i z).mp h
  rcases ha with rfl | rfl <;> simp [written_setElement]

theorem cget_completes {m : Memory} {b n i : Nat} (hf : Filled m b n) (hi : 2 * i + 1 < n) :
    ∃ z, cget m b i = .ok z := by
  obtain ⟨re, -, h1⟩ := hf.memRead (a := complexRe b i) (by simp [complexRe]) (by simp only [complexRe]; omega)
  obtain ⟨im, -, h2⟩ := hf.memRead (a := complexIm b i) (by simp only [complexIm]; omega) (by simp only [complexIm]; omega)
  exact ⟨⟨re, im⟩, (cget_ok_iff _ _ _ _).mpr ⟨by have := hf.1; simp only [complexIm]; omega, h1, h2⟩⟩

theorem cput_completes (m : Memory) {b n i : Nat} (z : Complex16) (hb : b + n ≤ Config.dmemWords)
    (hi : 2 * i + 1 < n) : ∃ m', cput m b i z = .ok m' :=
  ⟨_, (cput_ok_iff _ _ _ _ _).mpr ⟨by simp only [complexIm]; omega, rfl⟩⟩

theorem complexAt_region {b i n a : Nat} (h : ComplexAt b i a) (hi : 2 * i + 1 < n) : Region b n a := by
  rcases h with rfl | rfl
  · exact ⟨by simp [complexRe], by simp only [complexRe]; omega⟩
  · exact ⟨by simp only [complexIm]; omega, by simp only [complexIm]; omega⟩

/-- A write of complex element i changes what complex element j reads as exactly when j is i. -/
theorem cget_cput {m m' : Memory} {b i j : Nat} {z : Complex16} (h : cput m b i z = .ok m') :
    (cget m' b i = .ok z) ∧ (j ≠ i → cget m' b j = cget m b j) := by
  obtain ⟨hi, rfl⟩ := (cput_ok_iff m m' b i z).mp h
  have hne : complexRe b i ≠ complexIm b i := by simp only [complexRe, complexIm]; omega
  refine ⟨(cget_ok_iff _ _ _ _).mpr ⟨hi, ?_, ?_⟩, fun hj => ?_⟩
  · rw [elementAt_setElement_other _ _ hne, elementAt_setElement_same]
  · rw [elementAt_setElement_same]
  · have e : ∀ a, a = complexRe b j ∨ a = complexIm b j →
        elementAt (setElement (setElement m (complexRe b i) z.re) (complexIm b i) z.im) a = elementAt m a := by
      rintro a (rfl | rfl) <;>
        rw [elementAt_setElement_other, elementAt_setElement_other] <;>
          simp only [complexRe, complexIm, ne_eq] <;> omega
    simp only [cget, memRead, e _ (Or.inl rfl), e _ (Or.inr rfl)]

/-! ### Butterflies and the exchange -/

theorem bfly2_within {b i0 i1 : Nat} {w : RomEntry} {inv : Bool} {m m' : Memory}
    (h : bfly2 b i0 i1 w inv m = .ok m') : Within (fun a => ComplexAt b i0 a ∨ ComplexAt b i1 a) m m' := by
  simp only [bfly2, bind_ok_iff] at h
  obtain ⟨_, _, _, _, m1, h1, h2⟩ := h
  exact ((cput_within h1).weaken fun _ => Or.inl).trans ((cput_within h2).weaken fun _ => Or.inr)

theorem bfly2_completes {b n i0 i1 : Nat} (w : RomEntry) (inv : Bool) {m : Memory} (hf : Filled m b n)
    (h0 : 2 * i0 + 1 < n) (h1 : 2 * i1 + 1 < n) : ∃ m', bfly2 b i0 i1 w inv m = .ok m' := by
  obtain ⟨x0, e0⟩ := cget_completes hf h0
  obtain ⟨x1, e1⟩ := cget_completes hf h1
  obtain ⟨m1, e2⟩ := cput_completes m (bfly2Values x0 x1 w inv).1 hf.1 h0
  obtain ⟨m2, e3⟩ := cput_completes m1 (bfly2Values x0 x1 w inv).2 hf.1 h1
  exact ⟨m2, by simp only [bfly2, bind_of_ok e0, bind_of_ok e1, bind_of_ok e2, e3]⟩

theorem bfly4_within {b i0 i1 i2 i3 : Nat} {w1 w2 w3 : RomEntry} {inv : Bool} {m m' : Memory}
    (h : bfly4 b i0 i1 i2 i3 w1 w2 w3 inv m = .ok m') :
    Within (fun a => ComplexAt b i0 a ∨ ComplexAt b i1 a ∨ ComplexAt b i2 a ∨ ComplexAt b i3 a) m m' := by
  simp only [bfly4, bind_ok_iff] at h
  obtain ⟨_, _, _, _, _, _, _, _, m1, h1, m2, h2, m3, h3, h4⟩ := h
  exact ((((cput_within h1).weaken fun _ => Or.inl).trans
    ((cput_within h2).weaken fun _ h => Or.inr (Or.inl h))).trans
    ((cput_within h3).weaken fun _ h => Or.inr (Or.inr (Or.inl h)))).trans
    ((cput_within h4).weaken fun _ h => Or.inr (Or.inr (Or.inr h)))

theorem bfly4_completes {b n i0 i1 i2 i3 : Nat} (w1 w2 w3 : RomEntry) (inv : Bool) {m : Memory} (hf : Filled m b n)
    (h0 : 2 * i0 + 1 < n) (h1 : 2 * i1 + 1 < n) (h2 : 2 * i2 + 1 < n) (h3 : 2 * i3 + 1 < n) :
    ∃ m', bfly4 b i0 i1 i2 i3 w1 w2 w3 inv m = .ok m' := by
  obtain ⟨x0, e0⟩ := cget_completes hf h0
  obtain ⟨x1, e1⟩ := cget_completes hf h1
  obtain ⟨x2, e2⟩ := cget_completes hf h2
  obtain ⟨x3, e3⟩ := cget_completes hf h3
  obtain ⟨m1, e4⟩ := cput_completes m (bfly4Values x0 x1 x2 x3 w1 w2 w3 inv).1 hf.1 h0
  obtain ⟨m2, e5⟩ := cput_completes m1 (bfly4Values x0 x1 x2 x3 w1 w2 w3 inv).2.1 hf.1 h1
  obtain ⟨m3, e6⟩ := cput_completes m2 (bfly4Values x0 x1 x2 x3 w1 w2 w3 inv).2.2.1 hf.1 h2
  obtain ⟨m4, e7⟩ := cput_completes m3 (bfly4Values x0 x1 x2 x3 w1 w2 w3 inv).2.2.2 hf.1 h3
  exact ⟨m4, by
    simp only [bfly4, bind_of_ok e0, bind_of_ok e1, bind_of_ok e2, bind_of_ok e3, bind_of_ok e4, bind_of_ok e5,
      bind_of_ok e6, e7]⟩

theorem exchange_within {b i j : Nat} {m m' : Memory} (h : exchange b i j m = .ok m') :
    Within (fun a => ComplexAt b i a ∨ ComplexAt b j a) m m' := by
  simp only [exchange, bind_ok_iff] at h
  obtain ⟨_, _, _, _, m1, h1, h2⟩ := h
  exact ((cput_within h1).weaken fun _ => Or.inl).trans ((cput_within h2).weaken fun _ => Or.inr)

theorem exchange_completes {b n i j : Nat} {m : Memory} (hf : Filled m b n) (hi : 2 * i + 1 < n)
    (hj : 2 * j + 1 < n) : ∃ m', exchange b i j m = .ok m' := by
  obtain ⟨x, e0⟩ := cget_completes hf hi
  obtain ⟨y, e1⟩ := cget_completes hf hj
  obtain ⟨m1, e2⟩ := cput_completes m y hf.1 hi
  obtain ⟨m2, e3⟩ := cput_completes m1 x hf.1 hj
  exact ⟨m2, by simp only [exchange, bind_of_ok e0, bind_of_ok e1, bind_of_ok e2, e3]⟩

/-! ### A loop over one buffer -/

/-- A loop whose every iteration stays within `w` stays within `w`. -/
theorem forUpTo_within {w : Nat → Prop} {n : Nat} {f : Nat → Memory → Except Fault Memory} {m m' : Memory}
    (h : forUpTo n f m = .ok m') (hs : ∀ i < n, ∀ a c, f i a = .ok c → Within w a c) : Within w m m' :=
  forUpTo_ok (fun _ c => Within w m c) h (Within.refl w m) fun i hi b d hbd hb => hb.trans (hs i hi b d hbd)

/-- A loop whose every iteration completes on a filled buffer, and stays within some elements, completes on it. -/
theorem forUpTo_completes {w : Nat → Prop} {n b len : Nat} {f : Nat → Memory → Except Fault Memory} {m : Memory}
    (hf : Filled m b len) (hc : ∀ i < n, ∀ a, Filled a b len → ∃ c, f i a = .ok c)
    (hs : ∀ i < n, ∀ a c, f i a = .ok c → Within w a c) : ∃ m', forUpTo n f m = .ok m' := by
  obtain ⟨c, h, -⟩ := forUpTo_rule (fun _ a => Filled a b len) (n := n) (f := f) (a := m) hf fun i hi a ha => by
    obtain ⟨c, h⟩ := hc i hi a ha
    exact ⟨c, h, ha.of_within (hs i hi a c h)⟩
  exact ⟨c, h⟩

end Sys2Proof.Machine
end

