-- ==== Sys2Proof/Laws/State.lean ====
section
/-! SUPPORT. One lemma per field per update of State, each true by rfl, so that no proof unfolds a record update; and the register and slot laws. -/

namespace Sys2Proof.Machine

variable (s : State) (i : Fin 8) (v : Word) (k : BitVec 8) (r : Slot) (m : Memory)

@[simp] theorem setArg_args : (s.setArg i v).args = s.args.set i v := rfl
@[simp] theorem setArg_status : (s.setArg i v).status = s.status := rfl
@[simp] theorem setArg_slots : (s.setArg i v).slots = s.slots := rfl
@[simp] theorem setArg_dmem : (s.setArg i v).dmem = s.dmem := rfl
@[simp] theorem setArg_pending : (s.setArg i v).pending = s.pending := rfl
@[simp] theorem setArg_response : (s.setArg i v).response = s.response := rfl

@[simp] theorem setStatus_args : (s.setStatus v).args = s.args := rfl
@[simp] theorem setStatus_status : (s.setStatus v).status = v := rfl
@[simp] theorem setStatus_slots : (s.setStatus v).slots = s.slots := rfl
@[simp] theorem setStatus_dmem : (s.setStatus v).dmem = s.dmem := rfl
@[simp] theorem setStatus_pending : (s.setStatus v).pending = s.pending := rfl
@[simp] theorem setStatus_response : (s.setStatus v).response = s.response := rfl

@[simp] theorem setSlot_args : (s.setSlot k r).args = s.args := rfl
@[simp] theorem setSlot_status : (s.setSlot k r).status = s.status := rfl
@[simp] theorem setSlot_slots : (s.setSlot k r).slots = s.slots.setIfInBounds k.toNat r := rfl
@[simp] theorem setSlot_dmem : (s.setSlot k r).dmem = s.dmem := rfl
@[simp] theorem setSlot_pending : (s.setSlot k r).pending = s.pending := rfl
@[simp] theorem setSlot_response : (s.setSlot k r).response = s.response := rfl

@[simp] theorem withDmem_args : (s.withDmem m).args = s.args := rfl
@[simp] theorem withDmem_status : (s.withDmem m).status = s.status := rfl
@[simp] theorem withDmem_slots : (s.withDmem m).slots = s.slots := rfl
@[simp] theorem withDmem_dmem : (s.withDmem m).dmem = m := rfl
@[simp] theorem withDmem_pending : (s.withDmem m).pending = s.pending := rfl
@[simp] theorem withDmem_response : (s.withDmem m).response = s.response := rfl

@[simp] theorem raiseArgumentError_args : (raiseArgumentError s k).args = s.args := rfl
@[simp] theorem raiseArgumentError_status : (raiseArgumentError s k).status = statusArgumentError := rfl
@[simp] theorem raiseArgumentError_slots :
    (raiseArgumentError s k).slots = s.slots.setIfInBounds k.toNat .invalid := rfl
@[simp] theorem raiseArgumentError_dmem : (raiseArgumentError s k).dmem = s.dmem := rfl
@[simp] theorem raiseArgumentError_pending : (raiseArgumentError s k).pending = s.pending := rfl
@[simp] theorem raiseArgumentError_response : (raiseArgumentError s k).response = s.response := rfl

variable (rest : List HostTxn)

@[simp] theorem takeTransaction_args : (takeTransaction s rest).args = s.args := rfl
@[simp] theorem takeTransaction_status : (takeTransaction s rest).status = s.status := rfl
@[simp] theorem takeTransaction_slots : (takeTransaction s rest).slots = s.slots := rfl
@[simp] theorem takeTransaction_dmem : (takeTransaction s rest).dmem = s.dmem := rfl
@[simp] theorem takeTransaction_pending : (takeTransaction s rest).pending = rest := rfl
@[simp] theorem takeTransaction_response : (takeTransaction s rest).response = .nothing := rfl

@[simp] theorem resetBlock_args : (resetBlock s).args = Vector.replicate 8 0#32 := rfl
@[simp] theorem resetBlock_status : (resetBlock s).status = 0#32 := rfl
@[simp] theorem resetBlock_slots : (resetBlock s).slots = Vector.replicate Config.nInst .invalid := rfl
@[simp] theorem resetBlock_dmem : (resetBlock s).dmem = [] := rfl
@[simp] theorem resetBlock_pending : (resetBlock s).pending = s.pending := rfl
@[simp] theorem resetBlock_response : (resetBlock s).response = .nothing := rfl

variable (nbits w : Nat)

@[simp] theorem withFetchWord_args : (s.withFetchWord nbits w).args = s.args := rfl
@[simp] theorem withFetchWord_status : (s.withFetchWord nbits w).status = s.status := rfl
@[simp] theorem withFetchWord_slots : (s.withFetchWord nbits w).slots = s.slots := rfl
@[simp] theorem withFetchWord_dmem : (s.withFetchWord nbits w).dmem = s.dmem := rfl
@[simp] theorem withFetchWord_pending :
    (s.withFetchWord nbits w).pending = commandWrite (BitVec.ofNat 32 (w % 2 ^ nbits)) :: s.pending := rfl
@[simp] theorem withFetchWord_response : (s.withFetchWord nbits w).response = s.response := rfl

/-! ### Registers and slots: a read after a write -/

@[simp] theorem arg_setArg_same : (s.setArg i v).arg i = v.toNat := by
  simp [State.arg]

theorem arg_setArg_other {j : Fin 8} (h : j ≠ i) : (s.setArg i v).arg j = s.arg j := by
  simp only [State.arg, setArg_args, Fin.getElem_fin]
  rw [Vector.getElem_set_ne]
  exact fun e => h (Fin.ext e.symm)

@[simp] theorem arg_setStatus (j : Fin 8) : (s.setStatus v).arg j = s.arg j := rfl
@[simp] theorem arg_setSlot (j : Fin 8) : (s.setSlot k r).arg j = s.arg j := rfl
@[simp] theorem arg_withDmem (j : Fin 8) : (s.withDmem m).arg j = s.arg j := rfl
@[simp] theorem arg_takeTransaction (j : Fin 8) : (takeTransaction s rest).arg j = s.arg j := rfl

theorem arg_lt (j : Fin 8) : s.arg j < 2 ^ 32 := (s.args[j]).isLt

theorem slotAt_setSlot_same (h : k.toNat < Config.nInst) : (s.setSlot k r).slotAt k = some r := by
  simp [State.slotAt, h]

theorem slotAt_setSlot_other {j : BitVec 8} (h : j ≠ k) : (s.setSlot k r).slotAt j = s.slotAt j := by
  have : k.toNat ≠ j.toNat := fun e => h (BitVec.eq_of_toNat_eq e.symm)
  simp [State.slotAt, this]

@[simp] theorem slotAt_setStatus (j : BitVec 8) : (s.setStatus v).slotAt j = s.slotAt j := rfl
@[simp] theorem slotAt_withDmem (j : BitVec 8) : (s.withDmem m).slotAt j = s.slotAt j := rfl
@[simp] theorem slotAt_takeTransaction (j : BitVec 8) : (takeTransaction s rest).slotAt j = s.slotAt j := rfl

theorem slotAt_eq_none_iff (j : BitVec 8) : s.slotAt j = none ↔ Config.nInst ≤ j.toNat := by
  simp [State.slotAt]

theorem slotAt_isSome (j : BitVec 8) (h : j.toNat < Config.nInst) : ∃ r, s.slotAt j = some r :=
  ⟨s.slots[j.toNat], by simp [State.slotAt, h]⟩

/-! ### The two ends of a command, said once -/

/-- Everything `commit` can do. -/
theorem commit_next_iff (x : Except Fault Memory) (t : State) :
    commit s x = .next t ↔ ∃ m', x = .ok m' ∧ t = s.withDmem m' := by
  cases x with
  | ok a => simp [commit, eq_comm]
  | error e => simp [commit]

/-- Everything `finishInit` can do. -/
theorem finishInit_next_iff (made : Option Slot) (t : State) :
    finishInit s k made = .next t ↔
      k.toNat < Config.nInst ∧
        ((∃ r, made = some r ∧ t = (s.setSlot k r).setStatus statusSuccess) ∨
          (made = none ∧ t = raiseArgumentError s k)) := by
  unfold finishInit
  split <;> rename_i h
  · cases made with
    | none => simp [h, eq_comm]
    | some r => simp [h, eq_comm]
  · simp [h]

end Sys2Proof.Machine
end

