-- ==== Sys2Proof/Laws/Commands.lean ====
section
/-! SUPPORT. What a command and a host transaction can do, said once, so that no later proof unfolds the dispatcher. -/

namespace Sys2Proof.Machine

/-! ### Execute commands on a suitable slot -/

theorem exec_transformCommand {tag : Tag} {k : BitVec 8} {s : State} {c : ComplexInstance} (inv br : Bool)
    (hs : s.slotAt k = some (.cfft c)) (ht : c.tag = tag) :
    exec (transformCommand tag k inv br) s = commit s (cfftCore c (s.arg 0) inv br s.dmem) := by
  subst ht
  cases h : c.tag <;>
    simp only [transformCommand, exec, execCfft, execCfftR2, execCfftR4, complexTransform, hs, complexInstanceOf,
      inputArg, h, reduceIte]

theorem exec_rfft {k : BitVec 8} {s : State} {r : RealInstance} (inv : Bool) (hs : s.slotAt k = some (.rfft r)) :
    exec (.rfft k inv) s = commit s (rfftRun r inv (s.arg 0) (s.arg 1) s.dmem) := by
  simp only [exec, execRfft, hs, realInstanceOf, inputArg, outputArg]

theorem exec_mfcc {k : BitVec 8} {s : State} {f : MfccInstance} (hs : s.slotAt k = some (.mfcc f)) :
    exec (.mfcc k) s = commit s (mfccRun Config.mfccSpectrum f (s.arg 0) (s.arg 1) (s.arg 2) s.dmem) := by
  simp only [exec, execMfcc, hs, mfccInstanceOf, inputArg, outputArg, scratchArg]

/-! ### Every command -/

/-- A complex transform that answers changes only data memory. -/
theorem complexTransform_next {tag : Tag} {k : BitVec 8} {inv br : Bool} {s t : State}
    (h : complexTransform tag k inv br s = .next t) :
    ∃ c m, s.slotAt k = some (.cfft c) ∧ c.tag = tag ∧ cfftCore c (s.arg 0) inv br s.dmem = .ok m ∧ t = s.withDmem m := by
  unfold complexTransform at h
  split at h
  · cases h
  · rename_i r hr
    split at h
    · cases h
    · rename_i c hc
      obtain ⟨m, hm, rfl⟩ := (commit_next_iff _ _ _).mp h
      cases r with
      | cfft c' =>
        simp only [complexInstanceOf] at hc
        split at hc
        · cases hc
          exact ⟨c, m, hr, ‹_›, hm, rfl⟩
        · cases hc
      | _ => cases hc

/-- `RFFT` that answers changes only data memory. -/
theorem execRfft_next {k : BitVec 8} {inv : Bool} {s t : State} (h : execRfft k inv s = .next t) :
    ∃ r m, s.slotAt k = some (.rfft r) ∧ rfftRun r inv (s.arg 0) (s.arg 1) s.dmem = .ok m ∧ t = s.withDmem m := by
  unfold execRfft at h
  split at h
  · cases h
  · rename_i r hr
    split at h
    · cases h
    · rename_i x hx
      obtain ⟨m, hm, rfl⟩ := (commit_next_iff _ _ _).mp h
      cases r with
      | rfft r' =>
        cases hx
        exact ⟨x, m, hr, hm, rfl⟩
      | _ => cases hx

/-- `MFCC` that answers changes only data memory. -/
theorem execMfcc_next {k : BitVec 8} {s t : State} (h : execMfcc k s = .next t) :
    ∃ f m, s.slotAt k = some (.mfcc f) ∧
      mfccRun Config.mfccSpectrum f (s.arg 0) (s.arg 1) (s.arg 2) s.dmem = .ok m ∧ t = s.withDmem m := by
  unfold execMfcc at h
  split at h
  · cases h
  · rename_i r hr
    split at h
    · cases h
    · rename_i x hx
      obtain ⟨m, hm, rfl⟩ := (commit_next_iff _ _ _).mp h
      cases r with
      | mfcc f =>
        cases hx
        exact ⟨x, m, hr, hm, rfl⟩
      | _ => cases hx

/-- Everything a command can do when it answers: an initialisation command fills or empties its slot and sets `STATUS`,
an execute command changes data memory. -/
theorem exec_next_cases {i : Instr} {s t : State} (h : exec i s = .next t) :
    (i.isInit = true ∧ i.slot.toNat < Config.nInst ∧
      ((∃ r, t = (s.setSlot i.slot r).setStatus statusSuccess) ∨ t = raiseArgumentError s i.slot)) ∨
    (i.isInit = false ∧ ∃ m, t = s.withDmem m) := by
  have ini : ∀ made k, finishInit s k made = .next t → k.toNat < Config.nInst ∧
      ((∃ r, t = (s.setSlot k r).setStatus statusSuccess) ∨ t = raiseArgumentError s k) := by
    intro made k hk
    obtain ⟨h1, ⟨r, -, h2⟩ | ⟨-, h2⟩⟩ := (finishInit_next_iff _ _ _ _).mp hk
    · exact ⟨h1, Or.inl ⟨r, h2⟩⟩
    · exact ⟨h1, Or.inr h2⟩
  cases i with
  | cfftInit k => exact Or.inl ⟨rfl, ini _ k h⟩
  | cfftR2Init k => exact Or.inl ⟨rfl, ini _ k h⟩
  | cfftR4Init k => exact Or.inl ⟨rfl, ini _ k h⟩
  | rfftInit k => exact Or.inl ⟨rfl, ini _ k h⟩
  | mfccInit k => exact Or.inl ⟨rfl, ini _ k h⟩
  | cfft k f b =>
    obtain ⟨_, m, -, -, -, e⟩ := complexTransform_next h
    exact Or.inr ⟨rfl, m, e⟩
  | cfftR2 k f b =>
    obtain ⟨_, m, -, -, -, e⟩ := complexTransform_next h
    exact Or.inr ⟨rfl, m, e⟩
  | cfftR4 k f b =>
    obtain ⟨_, m, -, -, -, e⟩ := complexTransform_next h
    exact Or.inr ⟨rfl, m, e⟩
  | rfft k f =>
    obtain ⟨_, m, -, -, e⟩ := execRfft_next h
    exact Or.inr ⟨rfl, m, e⟩
  | mfcc k =>
    obtain ⟨_, m, -, -, e⟩ := execMfcc_next h
    exact Or.inr ⟨rfl, m, e⟩

/-! ### Host transactions -/

/-- Everything a register write can do when it answers. -/
theorem writeRegister_next_cases {s t : State} {o : Nat} {v : Word} (h : writeRegister s o v = .next t) :
    (o = cmdOffset ∧ ∃ i, decode v = .ok i ∧ exec i s = .next t) ∨
    (∃ i, argAtOffset o = some i ∧ t = s.setArg i v) ∨ t = s := by
  unfold writeRegister at h
  split at h
  · rename_i ho
    unfold issue at h
    split at h
    · exact Or.inl ⟨ho, _, ‹_›, h⟩
    · cases h
  · split at h
    · cases h
      exact Or.inr (Or.inl ⟨_, ‹_›, rfl⟩)
    · cases h
      exact Or.inr (Or.inr rfl)

/-- The argument registers stand at every fourth offset from 0x20 on (10_state.md R28). -/
theorem argAtOffset_eq_some {o : Nat} {i : Fin 8} (h4 : o % 4 = 0) :
    argAtOffset o = some i ↔ o = 0x20 + 4 * i.val := by
  unfold argAtOffset argsOffset
  split
  · rename_i hh
    rw [Option.some.injEq, Fin.ext_iff]
    dsimp only
    omega
  · rename_i hh
    simp only [false_iff, reduceCtorEq]
    intro e
    exact hh ⟨by omega, by omega⟩

end Sys2Proof.Machine
end

