-- ==== Sys2Proof/Laws/Engine.lean ====
section
/-! SUPPORT. What the stages, the network, the scaling, the reordering pass and CfftCore can do, said once: they write inside the buffer, keep the canonical form, and complete on a filled buffer. -/

namespace Sys2Proof.Machine

/-! ### Lengths and instances -/

theorem lengthSupported_iff (least v : Nat) :
    lengthSupported least v = true ↔ isPow2 v = true ∧ least ≤ v ∧ v ≤ Config.nmax := by
  simp [lengthSupported]

theorem isPow2_iff (n : Nat) : isPow2 n = true ↔ ∃ m, n = 2 ^ m := by
  simp only [isPow2, beq_iff_eq]
  constructor
  · intro h
    exact ⟨_, h.symm⟩
  · rintro ⟨m, rfl⟩
    rw [Nat.log2_two_pow]

/-- A supported length is 2^m with m at most 12. -/
theorem exists_log_of_mem_cfftLengths {n : Nat} (h : n ∈ Config.cfftLengths) :
    ∃ m, 1 ≤ m ∧ m ≤ 12 ∧ n = 2 ^ m := by
  simp only [Config.cfftLengths, List.mem_cons, List.not_mem_nil, or_false] at h
  rcases h with h | h | h | h | h | h | h | h | h | h | h | h
  · exact ⟨1, by omega, by omega, h⟩
  · exact ⟨2, by omega, by omega, h⟩
  · exact ⟨3, by omega, by omega, h⟩
  · exact ⟨4, by omega, by omega, h⟩
  · exact ⟨5, by omega, by omega, h⟩
  · exact ⟨6, by omega, by omega, h⟩
  · exact ⟨7, by omega, by omega, h⟩
  · exact ⟨8, by omega, by omega, h⟩
  · exact ⟨9, by omega, by omega, h⟩
  · exact ⟨10, by omega, by omega, h⟩
  · exact ⟨11, by omega, by omega, h⟩
  · exact ⟨12, by omega, by omega, h⟩

/-! ### The bit-reversal view -/

theorem bitrev_lt (m i : Nat) : bitrev m i < 2 ^ m := by
  induction m generalizing i with
  | zero => simp [bitrev]
  | succ m ih =>
    have h1 := ih (i / 2)
    have h2 : i % 2 < 2 := Nat.mod_lt _ (by omega)
    have h3 : i % 2 * 2 ^ m ≤ 1 * 2 ^ m := Nat.mul_le_mul_right _ (by omega)
    simp only [bitrev, Nat.pow_succ]
    omega

/-- Reversing j + m bits of an index shifted up by j is reversing its m bits (42_bit_reversal_permutation.md R167). -/
theorem bitrev_shift (j m i : Nat) : bitrev (j + m) (i * 2 ^ j) = bitrev m i := by
  induction j with
  | zero => simp
  | succ j ih =>
    have e : i * 2 ^ (j + 1) = 2 * (i * 2 ^ j) := by ring
    have h1 : 2 * (i * 2 ^ j) % 2 = 0 := by omega
    have h2 : 2 * (i * 2 ^ j) / 2 = i * 2 ^ j := by omega
    rw [show j + 1 + m = (j + m) + 1 by omega, bitrev, e, h1, h2, ih]
    simp

/-- The view of an instance of length 2^m is the m-bit reversal (42_bit_reversal_permutation.md R167). -/
theorem brView_makeCfft (tag : Tag) {m : Nat} (hm : m ≤ 12) (i : Nat) :
    brView (makeCfft tag (2 ^ m)) i = bitrev m i := by
  have e : Config.nmax / 2 ^ m = 2 ^ (12 - m) := by
    rw [show Config.nmax = 2 ^ 12 from rfl, Nat.pow_div hm (by omega)]
  have := bitrev_shift (12 - m) m i
  rw [show 12 - m + m = 12 by omega] at this
  simpa [brView, brMaster, makeCfft, e] using this

theorem ComplexInstance.Wf.brView_lt {c : ComplexInstance} (h : c.Wf) (i : Nat) : brView c i < c.fftLen := by
  obtain ⟨m, -, hm, e⟩ := exists_log_of_mem_cfftLengths h.1
  rw [h.2, e, brView_makeCfft c.tag hm]
  exact bitrev_lt m i

theorem ComplexInstance.Wf.bitRevLength_eq {c : ComplexInstance} (h : c.Wf) : c.bitRevLength = c.fftLen := by
  rw [h.2]
  rfl

/-! ### Stages -/

/-- Every index of a stage's block lies in the buffer. -/
theorem block_index_lt {len n block j : Nat} (hb : block < len / n) (hj : j < n) : block * n + j < len := by
  have h1 : (block + 1) * n ≤ len / n * n := Nat.mul_le_mul_right _ hb
  have h2 : len / n * n ≤ len := Nat.div_mul_le_self _ _
  rw [Nat.succ_mul] at h1
  omega

theorem stage2_within {c : ComplexInstance} {b n : Nat} {inv : Bool} {m m' : Memory}
    (h : stage2 c b n inv m = .ok m') : Within (Region b (2 * c.fftLen)) m m' := by
  refine forUpTo_within h fun block hb a d hd => forUpTo_within hd fun k hk a' d' hd' => ?_
  refine (bfly2_within hd').weaken fun x hx => ?_
  have h1 := block_index_lt (j := k) hb (by omega)
  have h2 := block_index_lt (j := k + n / 2) hb (by omega)
  rcases hx with hx | hx <;> exact complexAt_region hx (by omega)

theorem stage2_completes {c : ComplexInstance} {b n : Nat} (inv : Bool) {m : Memory}
    (hf : Filled m b (2 * c.fftLen)) : ∃ m', stage2 c b n inv m = .ok m' := by
  refine forUpTo_completes (w := fun _ => True) hf (fun block hb a ha => ?_) fun block hb a d hd =>
    forUpTo_within hd fun k hk a' d' hd' => (bfly2_within hd').weaken fun _ _ => trivial
  refine forUpTo_completes (w := fun _ => True) ha (fun k hk a' ha' => ?_) fun k hk a' d' hd' =>
    (bfly2_within hd').weaken fun _ _ => trivial
  have h1 := block_index_lt (j := k) hb (by omega)
  have h2 := block_index_lt (j := k + n / 2) hb (by omega)
  exact bfly2_completes _ _ ha' (by omega) (by omega)

theorem stage4_within {c : ComplexInstance} {b n : Nat} {inv : Bool} {m m' : Memory}
    (h : stage4 c b n inv m = .ok m') : Within (Region b (2 * c.fftLen)) m m' := by
  refine forUpTo_within h fun block hb a d hd => forUpTo_within hd fun k hk a' d' hd' => ?_
  refine (bfly4_within hd').weaken fun x hx => ?_
  have h1 := block_index_lt (j := k) hb (by omega)
  have h2 := block_index_lt (j := k + n / 4) hb (by omega)
  have h3 := block_index_lt (j := k + 2 * (n / 4)) hb (by omega)
  have h4 := block_index_lt (j := k + 3 * (n / 4)) hb (by omega)
  rcases hx with hx | hx | hx | hx <;> exact complexAt_region hx (by omega)

theorem stage4_completes {c : ComplexInstance} {b n : Nat} (inv : Bool) {m : Memory}
    (hf : Filled m b (2 * c.fftLen)) : ∃ m', stage4 c b n inv m = .ok m' := by
  refine forUpTo_completes (w := fun _ => True) hf (fun block hb a ha => ?_) fun block hb a d hd =>
    forUpTo_within hd fun k hk a' d' hd' => (bfly4_within hd').weaken fun _ _ => trivial
  refine forUpTo_completes (w := fun _ => True) ha (fun k hk a' ha' => ?_) fun k hk a' d' hd' =>
    (bfly4_within hd').weaken fun _ _ => trivial
  have h1 := block_index_lt (j := k) hb (by omega)
  have h2 := block_index_lt (j := k + n / 4) hb (by omega)
  have h3 := block_index_lt (j := k + 2 * (n / 4)) hb (by omega)
  have h4 := block_index_lt (j := k + 3 * (n / 4)) hb (by omega)
  exact bfly4_completes _ _ _ _ ha' (by omega) (by omega) (by omega) (by omega)

/-! ### Network, scaling, reordering, core -/

theorem networkRadix2_within {c : ComplexInstance} {b k : Nat} {inv : Bool} {m m' : Memory}
    (h : networkRadix2 c b inv k m = .ok m') : Within (Region b (2 * c.fftLen)) m m' := by
  induction k generalizing m with
  | zero =>
    cases h
    exact Within.refl _ _
  | succ k ih =>
    obtain ⟨m1, h1, h2⟩ := (bind_ok_iff _ _ _).mp h
    exact (stage2_within h1).trans (ih h2)

theorem networkRadix2_completes {c : ComplexInstance} {b : Nat} (k : Nat) (inv : Bool) {m : Memory}
    (hf : Filled m b (2 * c.fftLen)) : ∃ m', networkRadix2 c b inv k m = .ok m' := by
  induction k generalizing m with
  | zero => exact ⟨m, rfl⟩
  | succ k ih =>
    obtain ⟨m1, h1⟩ := stage2_completes (n := 2 ^ (k + 1)) inv hf
    obtain ⟨m2, h2⟩ := ih (hf.of_within (stage2_within h1))
    exact ⟨m2, by rw [networkRadix2, bind_of_ok h1, h2]⟩

theorem networkRadix4_within {c : ComplexInstance} {b k : Nat} {inv : Bool} {m m' : Memory}
    (h : networkRadix4 c b inv k m = .ok m') : Within (Region b (2 * c.fftLen)) m m' := by
  induction k using Nat.strongRecOn generalizing m with
  | _ k ih =>
    match k, h, ih with
    | 0, h, _ =>
      cases h
      exact Within.refl _ _
    | 1, h, _ => exact stage2_within h
    | k + 2, h, ih =>
      obtain ⟨m1, h1, h2⟩ := (bind_ok_iff _ _ _).mp h
      exact (stage4_within h1).trans (ih k (by omega) h2)

theorem networkRadix4_completes {c : ComplexInstance} {b : Nat} (k : Nat) (inv : Bool) {m : Memory}
    (hf : Filled m b (2 * c.fftLen)) : ∃ m', networkRadix4 c b inv k m = .ok m' := by
  induction k using Nat.strongRecOn generalizing m with
  | _ k ih =>
    match k, ih with
    | 0, _ => exact ⟨m, rfl⟩
    | 1, _ => exact stage2_completes inv hf
    | k + 2, ih =>
      obtain ⟨m1, h1⟩ := stage4_completes (n := 2 ^ (k + 2)) inv hf
      obtain ⟨m2, h2⟩ := ih k (by omega) (hf.of_within (stage4_within h1))
      exact ⟨m2, by rw [networkRadix4, bind_of_ok h1, h2]⟩

theorem network_within {c : ComplexInstance} {b : Nat} {inv : Bool} {m m' : Memory}
    (h : network c b inv m = .ok m') : Within (Region b (2 * c.fftLen)) m m' := by
  unfold network at h
  split at h
  · exact networkRadix2_within h
  · exact networkRadix4_within h
  · exact networkRadix4_within h

theorem network_completes {c : ComplexInstance} {b : Nat} (inv : Bool) {m : Memory}
    (hf : Filled m b (2 * c.fftLen)) : ∃ m', network c b inv m = .ok m' := by
  unfold network
  split
  · exact networkRadix2_completes _ inv hf
  · exact networkRadix4_completes _ inv hf
  · exact networkRadix4_completes _ inv hf

theorem scale_within {c : ComplexInstance} {b : Nat} {m m' : Memory} (h : scale c b m = .ok m') :
    Within (Region b (2 * c.fftLen)) m m' := by
  refine forUpTo_within h fun i hi a d hd => ?_
  obtain ⟨x, -, h2⟩ := (bind_ok_iff _ _ _).mp hd
  refine (memWrite_within h2).weaken fun y hy => ?_
  subst hy
  exact ⟨by simp [realElement], by simp only [realElement]; omega⟩

theorem scale_completes {c : ComplexInstance} {b : Nat} {m : Memory} (hf : Filled m b (2 * c.fftLen)) :
    ∃ m', scale c b m = .ok m' := by
  refine forUpTo_completes (w := fun _ => True) hf (fun i hi a ha => ?_) fun i hi a d hd => by
    obtain ⟨x, -, h2⟩ := (bind_ok_iff _ _ _).mp hd
    exact (memWrite_within h2).weaken fun _ _ => trivial
  obtain ⟨x, h1, -⟩ := ha.memRead (a := realElement b i) (by simp [realElement]) (by simp only [realElement]; omega)
  have hr : realElement b i < Config.dmemWords := by have := ha.1; simp only [realElement]; omega
  exact ⟨_, by rw [bind_of_ok h1, memWrite_completes _ _ hr]⟩

/-- The reordering pass keeps the canonical form and every value's presence, whatever the instance. -/
theorem bitReverse_keeps {c : ComplexInstance} {b : Nat} {m m' : Memory} (h : bitReverse c b m = .ok m') :
    Within (fun _ => True) m m' := by
  refine forUpTo_within h fun i hi a d hd => ?_
  split at hd
  · exact (exchange_within hd).weaken fun _ _ => trivial
  · cases hd
    exact Within.refl _ _

theorem bitReverse_within {c : ComplexInstance} {b : Nat} {m m' : Memory} (hc : c.Wf)
    (h : bitReverse c b m = .ok m') : Within (Region b (2 * c.fftLen)) m m' := by
  refine forUpTo_within h fun i hi a d hd => ?_
  rw [hc.bitRevLength_eq] at hi
  split at hd
  · refine (exchange_within hd).weaken fun x hx => ?_
    have := hc.brView_lt i
    rcases hx with hx | hx <;> exact complexAt_region hx (by omega)
  · cases hd
    exact Within.refl _ _

theorem bitReverse_completes {c : ComplexInstance} {b : Nat} {m : Memory} (hc : c.Wf)
    (hf : Filled m b (2 * c.fftLen)) : ∃ m', bitReverse c b m = .ok m' := by
  refine forUpTo_completes (w := fun _ => True) hf (fun i hi a ha => ?_) fun i hi a d hd => by
    split at hd
    · exact (exchange_within hd).weaken fun _ _ => trivial
    · cases hd
      exact Within.refl _ _
  rw [hc.bitRevLength_eq] at hi
  have := hc.brView_lt i
  split
  · exact exchange_completes ha (by omega) (by omega)
  · exact ⟨a, rfl⟩

/-- Everything `CfftCore` does when it answers: its checks held, and the three passes ran in order (R216). -/
theorem cfftCore_ok_iff (c : ComplexInstance) (b : Nat) (inv br : Bool) (m m' : Memory) :
    cfftCore c b inv br m = .ok m' ↔
      Filled m b (2 * c.fftLen) ∧
        ∃ m1 m2, network c b inv m = .ok m1 ∧ scaleIf inv c b m1 = .ok m2 ∧ reorderIf br c b m2 = .ok m' := by
  rw [filled_iff]
  unfold cfftCore complexBuffer
  split
  · simp [*]
  · split
    · simp [*]
    · rename_i h1 h2
      simp only [Bool.not_eq_false] at h1 h2
      simp only [bind_ok_iff, h1, h2, true_and]
      constructor
      · rintro ⟨m1, e1, m2, e2, e3⟩
        exact ⟨m1, m2, e1, e2, e3⟩
      · rintro ⟨m1, m2, e1, e2, e3⟩
        exact ⟨m1, e1, m2, e2, e3⟩

theorem cfftCore_within {c : ComplexInstance} {b : Nat} {inv br : Bool} {m m' : Memory} (hc : c.Wf)
    (h : cfftCore c b inv br m = .ok m') : Within (Region b (2 * c.fftLen)) m m' := by
  obtain ⟨-, m1, m2, e1, e2, e3⟩ := (cfftCore_ok_iff c b inv br m m').mp h
  refine ((network_within e1).trans ?_).trans (?_ : Within _ m2 m')
  · cases inv
    · cases e2
      exact Within.refl _ _
    · exact scale_within e2
  · cases br
    · cases e3
      exact Within.refl _ _
    · exact bitReverse_within hc e3

/-- `CfftCore` keeps the canonical form, whatever the instance. -/
theorem cfftCore_keeps {c : ComplexInstance} {b : Nat} {inv br : Bool} {m m' : Memory}
    (h : cfftCore c b inv br m = .ok m') : Within (fun _ => True) m m' := by
  obtain ⟨-, m1, m2, e1, e2, e3⟩ := (cfftCore_ok_iff c b inv br m m').mp h
  refine (((network_within e1).weaken fun _ _ => trivial).trans ?_).trans (?_ : Within _ m2 m')
  · cases inv
    · cases e2
      exact Within.refl _ _
    · exact (scale_within e2).weaken fun _ _ => trivial
  · cases br
    · cases e3
      exact Within.refl _ _
    · exact bitReverse_keeps e3

theorem cfftCore_completes {c : ComplexInstance} {b : Nat} (inv br : Bool) {m : Memory} (hc : c.Wf)
    (hf : Filled m b (2 * c.fftLen)) : ∃ m', cfftCore c b inv br m = .ok m' := by
  obtain ⟨m1, e1⟩ := network_completes inv hf
  have f1 := hf.of_within (network_within e1)
  obtain ⟨m2, e2, f2⟩ : ∃ m2, scaleIf inv c b m1 = .ok m2 ∧ Filled m2 b (2 * c.fftLen) := by
    cases inv
    · exact ⟨m1, rfl, f1⟩
    · obtain ⟨m2, e2⟩ := scale_completes f1
      exact ⟨m2, e2, f1.of_within (scale_within e2)⟩
  obtain ⟨m3, e3⟩ : ∃ m3, reorderIf br c b m2 = .ok m3 := by
    cases br
    · exact ⟨m2, rfl⟩
    · exact bitReverse_completes hc f2
  exact ⟨m3, (cfftCore_ok_iff c b inv br m m3).mpr ⟨hf, m1, m2, e1, e2, e3⟩⟩

/-- The precondition of a complex transform, as a filled buffer. -/
theorem cfftReady_iff (c : ComplexInstance) (b : Nat) (m : Memory) :
    CfftReady c b m ↔ Filled m b (2 * c.fftLen) := by
  rw [filled_iff, allWritten_iff]
  simp only [CfftReady, complexBuffer, bufferWritten, inBuffer_iff]

end Sys2Proof.Machine
end

