-- ==== Sys2Proof/Laws/RealAdapter.lean ====
section
/-! SUPPORT. What the real adapter can do, said once: where it writes, that it keeps the canonical form, and when it completes. -/

namespace Sys2Proof.Machine

/-! ### Instances -/

theorem RealInstance.Wf.exists_log {r : RealInstance} (h : r.Wf) :
    ∃ m, 5 ≤ m ∧ m ≤ 12 ∧ r.fftLenRFFT = 2 ^ m := by
  have := h.1
  simp only [Config.rfftLengths, List.mem_cons, List.not_mem_nil, or_false] at this
  rcases this with h | h | h | h | h | h | h | h
  · exact ⟨5, by omega, by omega, h⟩
  · exact ⟨6, by omega, by omega, h⟩
  · exact ⟨7, by omega, by omega, h⟩
  · exact ⟨8, by omega, by omega, h⟩
  · exact ⟨9, by omega, by omega, h⟩
  · exact ⟨10, by omega, by omega, h⟩
  · exact ⟨11, by omega, by omega, h⟩
  · exact ⟨12, by omega, by omega, h⟩

/-- "Invariant: real length = 2 × internal complex length" (10_state.md R32). -/
theorem RealInstance.Wf.length_eq {r : RealInstance} (h : r.Wf) : r.fftLenRFFT = 2 * r.cfft.fftLen := by
  obtain ⟨m, hm, -, e⟩ := h.exists_log
  have h2 : r.cfft.fftLen = r.fftLenRFFT / 2 := by
    conv_lhs => rw [h.2]
    rfl
  obtain ⟨k, rfl⟩ : ∃ k, m = k + 1 := ⟨m - 1, by omega⟩
  rw [Nat.pow_succ] at e
  omega

theorem RealInstance.Wf.cfft_wf {r : RealInstance} (h : r.Wf) : r.cfft.Wf := by
  have e : r.cfft = makeCfft .general (r.fftLenRFFT / 2) := by
    conv_lhs => rw [h.2]
    rfl
  rw [e]
  refine ⟨?_, rfl⟩
  change r.fftLenRFFT / 2 ∈ Config.cfftLengths
  have := h.1
  simp only [Config.rfftLengths, List.mem_cons, List.not_mem_nil, or_false] at this
  rcases this with h | h | h | h | h | h | h | h <;> rw [h] <;> decide

theorem RealInstance.Wf.length_pos {r : RealInstance} (h : r.Wf) : 32 ≤ r.fftLenRFFT := by
  have := h.1
  simp only [Config.rfftLengths, List.mem_cons, List.not_mem_nil, or_false] at this
  omega

/-! ### The split loop -/

theorem splitStep_within {split : Complex16 → Complex16 → RomEntry → Complex16} {r : RealInstance}
    {inp out k : Nat} {m m' : Memory} (h : splitStep split r inp out k m = .ok m') :
    Within (ComplexAt out k) m m' := by
  simp only [splitStep, bind_ok_iff] at h
  obtain ⟨_, _, _, _, h3⟩ := h
  exact cput_within h3

theorem splitLoop_within {split : Complex16 → Complex16 → RomEntry → Complex16} {r : RealInstance}
    {inp out : Nat} {m m' : Memory} (h : splitLoop split r inp out m = .ok m') :
    Within (Region out r.fftLenRFFT) m m' := by
  refine forUpTo_within h fun j hj a d hd => (splitStep_within hd).weaken fun x hx => complexAt_region hx ?_
  omega

/-- The loop completes when bins 1 .. M-1 of its input can be read and its output lies in data memory. -/
theorem splitLoop_completes {split : Complex16 → Complex16 → RomEntry → Complex16} {r : RealInstance}
    {inp out : Nat} {m : Memory} (hout : out + r.fftLenRFFT ≤ Config.dmemWords)
    (hf : Filled m (inp + 2) (r.fftLenRFFT - 2)) : ∃ m', splitLoop split r inp out m = .ok m' := by
  refine forUpTo_completes (w := fun _ => True) hf (fun j hj a ha => ?_) fun j hj a d hd =>
    (splitStep_within hd).weaken fun _ _ => trivial
  have get : ∀ k, 1 ≤ k → k < r.fftLenRFFT / 2 → ∃ z, cget a inp k = .ok z := by
    intro k h1 h2
    obtain ⟨z, hz⟩ := cget_completes (i := k - 1) ha (by omega)
    have e1 : complexRe (inp + 2) (k - 1) = complexRe inp k := by simp only [complexRe]; omega
    have e2 : complexIm (inp + 2) (k - 1) = complexIm inp k := by simp only [complexIm]; omega
    rw [cget_ok_iff, e1, e2, ← cget_ok_iff] at hz
    exact ⟨z, hz⟩
  obtain ⟨x, e0⟩ := get (j + 1) (by omega) (by omega)
  obtain ⟨y, e1⟩ := get (r.fftLenRFFT / 2 - (j + 1)) (by omega) (by omega)
  obtain ⟨m2, e2⟩ := cput_completes a (split x y (twiddleView r.rfftTwidModifier (j + 1))) (i := j + 1) hout (by omega)
  exact ⟨m2, by simp only [splitStep, bind_of_ok e0, bind_of_ok e1, e2]⟩

/-- After the loop every element it is to write has been written: bins 1 .. M-1. -/
theorem splitLoop_written {split : Complex16 → Complex16 → RomEntry → Complex16} {r : RealInstance}
    {inp out : Nat} {m m' : Memory} (h : splitLoop split r inp out m = .ok m') {k : Nat} (h1 : 1 ≤ k)
    (h2 : k < r.fftLenRFFT / 2) {a : Nat} (ha : ComplexAt out k a) : written m' a = true := by
  have := forUpTo_ok (fun i c => ∀ k a, 1 ≤ k → k < i + 1 → ComplexAt out k a → written c a = true) h
    (by intro k a h1 h2; omega) (by
      intro i hi b d hd ib k a h1 h2 ha
      by_cases e : k = i + 1
      · subst e
        simp only [splitStep, bind_ok_iff] at hd
        obtain ⟨_, _, _, _, h3⟩ := hd
        exact cput_written h3 ha
      · exact (splitStep_within hd).mono a (ib k a h1 (by omega) ha))
  exact this k a h1 (by omega) ha

/-! ### Forward -/

/-- Everything the forward transform does when it answers (R236). -/
theorem rfftForward_ok_iff (r : RealInstance) (inp out : Nat) (m m' : Memory) :
    rfftForward r inp out m = .ok m' ↔
      ∃ m1 z m2 m3, cfftCore r.cfft inp false true m = .ok m1 ∧ cget m1 inp 0 = .ok z ∧
        cput m1 out 0 ⟨num.hAdd z.re z.im, zeroH⟩ = .ok m2 ∧
        cput m2 out (r.fftLenRFFT / 2) ⟨num.hSub z.re z.im, zeroH⟩ = .ok m3 ∧
        splitLoop splitForward r inp out m3 = .ok m' := by
  simp only [rfftForward, bind_ok_iff]
  constructor
  · rintro ⟨m1, h1, z, h2, m2, h3, m3, h4, h5⟩
    exact ⟨m1, z, m2, m3, h1, h2, h3, h4, h5⟩
  · rintro ⟨m1, z, m2, m3, h1, h2, h3, h4, h5⟩
    exact ⟨m1, h1, z, h2, m2, h3, m3, h4, h5⟩

theorem rfftForward_keeps {r : RealInstance} {inp out : Nat} {m m' : Memory}
    (h : rfftForward r inp out m = .ok m') : Within (fun _ => True) m m' := by
  obtain ⟨m1, z, m2, m3, h1, -, h3, h4, h5⟩ := (rfftForward_ok_iff r inp out m m').mp h
  exact ((cfftCore_keeps h1).trans ((cput_within h3).weaken fun _ _ => trivial)).trans
    (((cput_within h4).weaken fun _ _ => trivial).trans ((splitLoop_within h5).weaken fun _ _ => trivial))

theorem rfftForward_within {r : RealInstance} {inp out : Nat} {m m' : Memory} (hr : r.Wf)
    (h : rfftForward r inp out m = .ok m') :
    Within (fun a => Region inp r.fftLenRFFT a ∨ Region out (r.fftLenRFFT + 2) a) m m' := by
  obtain ⟨m1, z, m2, m3, h1, -, h3, h4, h5⟩ := (rfftForward_ok_iff r inp out m m').mp h
  have hl := hr.length_eq
  refine (((cfftCore_within hr.cfft_wf h1).weaken fun x hx => Or.inl (hl ▸ hx)).trans
    ((cput_within h3).weaken fun x hx => Or.inr (complexAt_region hx (by omega)))).trans
    (((cput_within h4).weaken fun x hx => Or.inr (complexAt_region hx (by omega))).trans
      ((splitLoop_within h5).weaken fun x hx => Or.inr ⟨hx.1, by have := hx.2; omega⟩))

theorem rfftForward_completes {r : RealInstance} {inp out : Nat} {m : Memory} (hr : r.Wf)
    (hf : Filled m inp r.fftLenRFFT) (hout : out + (r.fftLenRFFT + 2) ≤ Config.dmemWords) :
    ∃ m', rfftForward r inp out m = .ok m' ∧ Filled m' out (r.fftLenRFFT + 2) := by
  have hl := hr.length_eq
  have hp := hr.length_pos
  have hf' : Filled m inp (2 * r.cfft.fftLen) := hl ▸ hf
  obtain ⟨m1, h1⟩ := cfftCore_completes false true hr.cfft_wf hf'
  have f1 := hf.of_within (cfftCore_within hr.cfft_wf h1)
  obtain ⟨z, h2⟩ := cget_completes (i := 0) f1 (by omega)
  obtain ⟨m2, h3⟩ := cput_completes m1 ⟨num.hAdd z.re z.im, zeroH⟩ (i := 0) hout (by omega)
  have f2 := f1.of_within (cput_within h3)
  obtain ⟨m3, h4⟩ := cput_completes m2 ⟨num.hSub z.re z.im, zeroH⟩ (i := r.fftLenRFFT / 2) hout (by omega)
  have f3 := f2.of_within (cput_within h4)
  obtain ⟨m4, h5⟩ := splitLoop_completes (split := splitForward) (out := out) (by omega)
    (f3.mono (b' := inp + 2) (n' := r.fftLenRFFT - 2) (by omega) (by omega))
  refine ⟨m4, (rfftForward_ok_iff _ _ _ _ _).mpr ⟨m1, z, m2, m3, h1, h2, h3, h4, h5⟩, hout, fun a ha => ?_⟩
  have hk : ∃ k, k ≤ r.fftLenRFFT / 2 ∧ ComplexAt out k a := by
    refine ⟨(a - out) / 2, ?_, ?_⟩
    · have := ha.2; omega
    · have := ha.1
      simp only [ComplexAt, complexRe, complexIm]
      omega
  obtain ⟨k, hk1, hk2⟩ := hk
  by_cases e0 : k = 0
  · subst e0
    exact (splitLoop_within h5).mono a ((cput_within h4).mono a (cput_written h3 hk2))
  · by_cases em : k = r.fftLenRFFT / 2
    · subst em
      exact (splitLoop_within h5).mono a (cput_written h4 hk2)
    · exact splitLoop_written h5 (by omega) (by omega) hk2

/-! ### Inverse -/

/-- Everything the inverse transform does when it answers (R238). -/
theorem rfftInverse_ok_iff (r : RealInstance) (inp out : Nat) (m m' : Memory) :
    rfftInverse r inp out m = .ok m' ↔
      ∃ x0 xm m1 m2, memRead m (complexRe inp 0) = .ok x0 ∧ memRead m (complexRe inp (r.fftLenRFFT / 2)) = .ok xm ∧
        cput m out 0 ⟨num.hMul halfH (num.hAdd x0 xm), num.hMul halfH (num.hSub x0 xm)⟩ = .ok m1 ∧
        splitLoop splitInverse r inp out m1 = .ok m2 ∧ cfftCore r.cfft out true true m2 = .ok m' := by
  simp only [rfftInverse, bind_ok_iff]
  constructor
  · rintro ⟨x0, h1, xm, h2, m1, h3, m2, h4, h5⟩
    exact ⟨x0, xm, m1, m2, h1, h2, h3, h4, h5⟩
  · rintro ⟨x0, xm, m1, m2, h1, h2, h3, h4, h5⟩
    exact ⟨x0, h1, xm, h2, m1, h3, m2, h4, h5⟩

theorem rfftInverse_keeps {r : RealInstance} {inp out : Nat} {m m' : Memory}
    (h : rfftInverse r inp out m = .ok m') : Within (fun _ => True) m m' := by
  obtain ⟨x0, xm, m1, m2, -, -, h3, h4, h5⟩ := (rfftInverse_ok_iff r inp out m m').mp h
  exact (((cput_within h3).weaken fun _ _ => trivial).trans ((splitLoop_within h4).weaken fun _ _ => trivial)).trans
    (cfftCore_keeps h5)

theorem rfftInverse_within {r : RealInstance} {inp out : Nat} {m m' : Memory} (hr : r.Wf)
    (h : rfftInverse r inp out m = .ok m') : Within (Region out r.fftLenRFFT) m m' := by
  obtain ⟨x0, xm, m1, m2, -, -, h3, h4, h5⟩ := (rfftInverse_ok_iff r inp out m m').mp h
  have hl := hr.length_eq
  have hp := hr.length_pos
  exact (((cput_within h3).weaken fun x hx => complexAt_region hx (by omega)).trans (splitLoop_within h4)).trans
    ((cfftCore_within hr.cfft_wf h5).weaken fun x hx => hl ▸ hx)

theorem rfftInverse_completes {r : RealInstance} {inp out : Nat} {m : Memory} (hr : r.Wf)
    (hin : inp + (r.fftLenRFFT + 2) ≤ Config.dmemWords) (hout : out + r.fftLenRFFT ≤ Config.dmemWords)
    (h0 : written m inp = true) (hm : written m (inp + r.fftLenRFFT) = true)
    (hf : Filled m (inp + 2) (r.fftLenRFFT - 2)) :
    ∃ m', rfftInverse r inp out m = .ok m' := by
  have hl := hr.length_eq
  have hp := hr.length_pos
  obtain ⟨x0, h1, -⟩ := memRead_completes (a := complexRe inp 0) (by simp only [complexRe]; omega) h0
  have em : complexRe inp (r.fftLenRFFT / 2) = inp + r.fftLenRFFT := by simp only [complexRe]; omega
  obtain ⟨xm, h2, -⟩ := memRead_completes (a := complexRe inp (r.fftLenRFFT / 2)) (m := m)
    (by rw [em]; omega) (by rw [em]; exact hm)
  obtain ⟨m1, h3⟩ := cput_completes m ⟨num.hMul halfH (num.hAdd x0 xm), num.hMul halfH (num.hSub x0 xm)⟩ (i := 0)
    hout (by omega)
  obtain ⟨m2, h4⟩ := splitLoop_completes (split := splitInverse) hout (hf.of_within (cput_within h3))
  have f2 : Filled m2 out (2 * r.cfft.fftLen) := by
    refine ⟨by omega, fun a ha => ?_⟩
    obtain ⟨k, hk1, hk2⟩ : ∃ k, k < r.fftLenRFFT / 2 ∧ ComplexAt out k a := by
      have := ha.1
      have := ha.2
      refine ⟨(a - out) / 2, by omega, ?_⟩
      simp only [ComplexAt, complexRe, complexIm]
      omega
    by_cases e0 : k = 0
    · subst e0
      exact (splitLoop_within h4).mono a (cput_written h3 hk2)
    · exact splitLoop_written h4 (by omega) hk1 hk2
  obtain ⟨m3, h5⟩ := cfftCore_completes true true hr.cfft_wf f2
  exact ⟨m3, (rfftInverse_ok_iff _ _ _ _ _).mpr ⟨x0, xm, m1, m2, h1, h2, h3, h4, h5⟩⟩

/-! ### The body of the command -/

/-- The body of `RFFT` keeps the canonical form, whatever the instance. -/
theorem rfftRun_keeps {r : RealInstance} {inv : Bool} {inp out : Nat} {m m' : Memory}
    (h : rfftRun r inv inp out m = .ok m') : Within (fun _ => True) m m' := by
  cases inv <;> simp only [rfftRun, reduceIte, Bool.false_eq_true] at h
  · split at h
    · cases h
    · split at h
      · cases h
      · exact rfftForward_keeps h
  · split at h
    · cases h
    · split at h
      · cases h
      · exact rfftInverse_keeps h

end Sys2Proof.Machine
end

