-- ==== Sys2Proof/Laws/Extractor.lean ====
section
/-! SUPPORT. What the six steps of the MFCC can do, said once: where they write, that they keep the canonical form, and when they complete, for both builds. -/

namespace Sys2Proof.Machine

/-! ### Instances -/

/-- The two shapes of a built instance (49_mfcc_extractor.md R273). -/
theorem MfccInstance.BuiltFor.cases {be : MfccBackend} {f : MfccInstance} (h : f.BuiltFor be) :
    (∃ r, f.backend = .real r ∧ r.Wf ∧ r.fftLenRFFT = f.fftLen) ∨
      ∃ c, f.backend = .complex c ∧ c.Wf ∧ c.fftLen = f.fftLen := by
  cases be with
  | real => exact Or.inl ⟨_, h.2, ⟨h.1, rfl⟩, rfl⟩
  | complex => exact Or.inr ⟨_, h.2, ⟨h.1, rfl⟩, rfl⟩

theorem MfccInstance.BuiltFor.length_pos {be : MfccBackend} {f : MfccInstance} (h : f.BuiltFor be) :
    2 ≤ f.fftLen := by
  rcases h.cases with ⟨r, -, hr, e⟩ | ⟨c, -, hc, e⟩
  · have := hr.length_pos
    omega
  · obtain ⟨m, hm, -, e'⟩ := exists_log_of_mem_cfftLengths hc.1
    have : 2 ^ 1 ≤ 2 ^ m := Nat.pow_le_pow_right (by omega) hm
    omega

/-! ### Reads of what nothing wrote over -/

theorem memReadNat_ok_iff (m : Memory) (a n : Nat) :
    memReadNat m a = .ok n ↔ a < Config.dmemWords ∧ ∃ v, elementAt m a = some v ∧ v.toNat = n := by
  simp only [memReadNat, bind_ok_iff, memRead_ok_iff]
  constructor
  · rintro ⟨v, ⟨h1, h2⟩, h3⟩
    cases h3
    exact ⟨h1, v, h2, rfl⟩
  · rintro ⟨h1, v, h2, rfl⟩
    exact ⟨v, ⟨h1, h2⟩, rfl⟩

theorem Filled.memReadNat {m : Memory} {b n a : Nat} (hf : Filled m b n) (h1 : b ≤ a) (h2 : a < b + n) :
    memReadNat m a = .ok (naturalAt m a) := by
  obtain ⟨v, -, hv⟩ := hf.memRead h1 h2
  exact (memReadNat_ok_iff _ _ _).mpr ⟨by have := hf.1; omega, v, hv, by simp [naturalAt, hv]⟩

theorem naturalAt_congr {m m' : Memory} {a : Nat} (h : elementAt m' a = elementAt m a) :
    naturalAt m' a = naturalAt m a := by
  simp only [naturalAt, h]

/-! ### Window -/

theorem storeSample_within {be : Backend} {scr i n : Nat} {y : Half} {m m' : Memory}
    (h : storeSample be scr i y m = .ok m') (hi : i < n) : Within (Region scr (2 * n)) m m' := by
  cases be with
  | real r =>
    refine (memWrite_within h).weaken fun x hx => ?_
    subst hx
    exact ⟨by simp [realElement], by simp only [realElement]; omega⟩
  | complex c => exact (cput_within h).weaken fun x hx => complexAt_region hx (by omega)

theorem windowStep_within {f : MfccInstance} {inp scr : Nat} {m m' : Memory}
    (h : windowStep f inp scr m = .ok m') : Within (Region scr (2 * f.fftLen)) m m' := by
  refine forUpTo_within h fun i hi a d hd => ?_
  simp only [bind_ok_iff] at hd
  obtain ⟨_, -, _, -, h3⟩ := hd
  exact storeSample_within h3 hi

theorem storeSample_completes (be : Backend) {scr i n : Nat} (y : Half) (m : Memory)
    (hs : scr + 2 * n ≤ Config.dmemWords) (hi : i < n) : ∃ m', storeSample be scr i y m = .ok m' := by
  cases be with
  | real r => exact ⟨_, memWrite_completes m y (by simp only [realElement]; omega)⟩
  | complex c => exact cput_completes m _ hs (by omega)

/-- How many elements the windowed samples fill. -/
def windowedLength (f : MfccInstance) : Nat :=
  match f.backend with
  | .real _ => f.fftLen
  | .complex _ => 2 * f.fftLen

theorem windowedLength_le (f : MfccInstance) : windowedLength f ≤ 2 * f.fftLen := by
  unfold windowedLength
  split <;> omega

/-- The windowing completes when samples and window are there and lie outside the scratch, and then the windowed
samples are there. -/
theorem windowStep_completes {f : MfccInstance} {inp scr : Nat} {m : Memory}
    (hs : scr + 2 * f.fftLen ≤ Config.dmemWords) (hx : Filled m inp f.fftLen)
    (hw : Filled m f.windowCoefs f.fftLen) :
    ∃ m', windowStep f inp scr m = .ok m' ∧ Filled m' scr (windowedLength f) := by
  obtain ⟨m', h, -, -, hr⟩ := forUpTo_rule
    (fun i a => Filled a inp f.fftLen ∧ Filled a f.windowCoefs f.fftLen ∧
      ∀ x, (match f.backend with
        | .real _ => Region scr i x
        | .complex _ => Region scr (2 * i) x) → written a x = true)
    (n := f.fftLen)
    (f := fun i m => do
      let x ← memRead m (realElement inp i)
      let w ← memRead m (realElement f.windowCoefs i)
      storeSample f.backend scr i (num.hMul x w) m) (a := m)
    ⟨hx, hw, by
      intro x h
      split at h <;> exact absurd h.1 (by have := h.2; omega)⟩
    (by
      rintro i hi a ⟨h1, h2, h3⟩
      obtain ⟨x, e1, -⟩ := h1.memRead (a := realElement inp i) (by simp [realElement]) (by simp only [realElement]; omega)
      obtain ⟨w, e2, -⟩ := h2.memRead (a := realElement f.windowCoefs i) (by simp [realElement])
        (by simp only [realElement]; omega)
      obtain ⟨c, e3⟩ := storeSample_completes f.backend (num.hMul x w) a hs hi
      have hwi := storeSample_within e3 hi
      refine ⟨c, by rw [bind_of_ok e1, bind_of_ok e2, e3], h1.of_within hwi, h2.of_within hwi, fun y hy => ?_⟩
      cases hb : f.backend with
      | real r =>
        simp only [hb] at hy h3 e3
        by_cases e : y = realElement scr i
        · obtain ⟨-, rfl⟩ := (memWrite_ok_iff _ _ _ _).mp e3
          simp [written_setElement, e]
        · exact hwi.mono y (h3 y ⟨hy.1, by have := hy.2; simp only [realElement] at e; omega⟩)
      | complex c' =>
        simp only [hb] at hy h3 e3
        by_cases e : ComplexAt scr i y
        · exact cput_written e3 e
        · refine hwi.mono y (h3 y ⟨hy.1, ?_⟩)
          have := hy.2
          have := hy.1
          simp only [ComplexAt, complexRe, complexIm] at e
          omega)
  refine ⟨m', h, by have := windowedLength_le f; omega, fun a ha => hr a ?_⟩
  unfold windowedLength at ha
  split <;> simp_all

/-! ### Transform -/

theorem transformStep_within {be : MfccBackend} {f : MfccInstance} {scr : Nat} {m m' : Memory}
    (hb : f.BuiltFor be) (h : transformStep f scr m = .ok m') : Within (Region scr (2 * f.fftLen + 2)) m m' := by
  unfold transformStep at h
  rcases hb.cases with ⟨r, e, hr, hl⟩ | ⟨c, e, hc, hl⟩
  · rw [e] at h
    refine (rfftForward_within hr h).weaken fun x hx => ?_
    rw [hl] at hx
    rcases hx with hx | hx <;> exact ⟨by have := hx.1; omega, by have := hx.2; omega⟩
  · rw [e] at h
    exact (cfftCore_within hc h).weaken fun x hx => ⟨hx.1, by have := hx.2; omega⟩

/-- The transform completes on the windowed samples and leaves the bins 0 .. N/2 at the spectrum's place. -/
theorem transformStep_completes {be : MfccBackend} {f : MfccInstance} {scr : Nat} {m : Memory}
    (hb : f.BuiltFor be) (hs : scr + (2 * f.fftLen + 2) ≤ Config.dmemWords) (hw : Filled m scr (windowedLength f)) :
    ∃ m', transformStep f scr m = .ok m' ∧ Filled m' (spectrumBase f scr) (2 * (f.fftLen / 2 + 1)) := by
  unfold transformStep spectrumBase
  unfold windowedLength at hw
  rcases hb.cases with ⟨r, e, hr, hl⟩ | ⟨c, e, hc, hl⟩
  · simp only [e] at hw ⊢
    rw [← hl] at hw ⊢
    obtain ⟨m', h, hf⟩ := rfftForward_completes hr hw (out := scr + r.fftLenRFFT) (by omega)
    exact ⟨m', h, hf.mono (le_refl _) (by omega)⟩
  · simp only [e] at hw ⊢
    have hp := hb.length_pos
    obtain ⟨m', h⟩ := cfftCore_completes false true hc (hl ▸ hw)
    exact ⟨m', h, (hw.of_within (cfftCore_within hc h)).mono (le_refl _) (by omega)⟩

/-! ### Magnitude -/

theorem magnitudeStep_within {sp : MfccSpectrum} {f : MfccInstance} {spectrum scr : Nat} {m m' : Memory}
    (h : magnitudeStep sp f spectrum scr m = .ok m') : Within (Region scr (f.fftLen / 2 + 1)) m m' := by
  refine forUpTo_within h fun i hi a d hd => ?_
  obtain ⟨z, -, h2⟩ := (bind_ok_iff _ _ _).mp hd
  refine (memWrite_within h2).weaken fun x hx => ?_
  subst hx
  exact ⟨by simp [realElement], by simp only [realElement]; omega⟩

theorem magnitudeStep_completes {sp : MfccSpectrum} {f : MfccInstance} {spectrum scr : Nat} {m : Memory}
    (hs : scr + (f.fftLen / 2 + 1) ≤ Config.dmemWords) (hf : Filled m spectrum (2 * (f.fftLen / 2 + 1))) :
    ∃ m', magnitudeStep sp f spectrum scr m = .ok m' ∧ Filled m' scr (f.fftLen / 2 + 1) := by
  obtain ⟨m', h, -, hr⟩ := forUpTo_rule
    (fun i a => Filled a spectrum (2 * (f.fftLen / 2 + 1)) ∧ ∀ x, Region scr i x → written a x = true)
    (n := f.fftLen / 2 + 1)
    (f := fun k m => do
      let z ← cget m spectrum k
      memWrite m (realElement scr k) (binMagnitude sp z)) (a := m)
    ⟨hf, fun x hx => absurd hx.1 (by have := hx.2; omega)⟩
    (by
      rintro i hi a ⟨h1, h2⟩
      obtain ⟨z, e1⟩ := cget_completes (i := i) h1 (by omega)
      have hr : realElement scr i < Config.dmemWords := by simp only [realElement]; omega
      refine ⟨_, by rw [bind_of_ok e1, memWrite_completes _ _ hr], h1.of_within (setElement_within _ _ hr),
        fun x hx => ?_⟩
      rw [written_setElement]
      by_cases e : x = realElement scr i
      · simp [e]
      · rw [h2 x ⟨hx.1, by have := hx.2; simp only [realElement] at e; omega⟩, Bool.or_true])
  exact ⟨m', h, hs, hr⟩

/-! ### Mel energies -/

theorem melSum_completes {f : MfccInstance} {mag pos off len total : Nat} {m : Memory}
    (hm : Filled m mag (f.fftLen / 2 + 1)) (hp : pos + len ≤ f.fftLen / 2 + 1)
    (hc : Filled m f.filterCoefs total) (ho : off + len ≤ total) : ∃ acc, melSum f mag pos off len m = .ok acc := by
  obtain ⟨acc, h, -⟩ := forUpTo_rule (fun _ _ => True) (n := len)
    (f := fun j acc => do
      let x ← memRead m (realElement mag (pos + j))
      let w ← memRead m (filterCoefficient f.filterCoefs off j)
      .ok (accumulate acc x w)) (a := zeroA) trivial
    (by
      intro j hj acc _
      obtain ⟨x, e1, -⟩ := hm.memRead (a := realElement mag (pos + j)) (by simp [realElement])
        (by simp only [realElement]; omega)
      obtain ⟨w, e2, -⟩ := hc.memRead (a := filterCoefficient f.filterCoefs off j)
        (by simp only [filterCoefficient]; omega) (by simp only [filterCoefficient]; omega)
      exact ⟨_, by rw [bind_of_ok e1, bind_of_ok e2], trivial⟩)
  exact ⟨acc, h⟩

/-- Everything `MelEnergy` does when it answers (47_mel_filterbank.md R252). -/
theorem melEnergy_ok_iff (f : MfccInstance) (mag i off : Nat) (m : Memory) (e : Half × Nat) :
    melEnergy f mag i off m = .ok e ↔
      ∃ pos acc, memReadNat m (filterEntry f.filterPos i) = .ok pos ∧
        memReadNat m (filterEntry f.filterLengths i) = .ok e.2 ∧ pos + e.2 ≤ f.fftLen / 2 + 1 ∧
        melSum f mag pos off e.2 m = .ok acc ∧ e.1 = num.hOfA acc := by
  simp only [melEnergy, bind_ok_iff]
  constructor
  · rintro ⟨pos, h1, len, h2, h3⟩
    split at h3
    · cases h3
    · obtain ⟨acc, h4, h5⟩ := (bind_ok_iff _ _ _).mp h3
      cases h5
      exact ⟨pos, acc, h1, h2, by omega, h4, rfl⟩
  · rintro ⟨pos, acc, h1, h2, h3, h4, h5⟩
    refine ⟨pos, h1, e.2, h2, ?_⟩
    rw [if_neg (by omega), bind_of_ok h4, ← h5]

theorem melLoop_within {f : MfccInstance} {scr : Nat} {m : Memory} {acc : Memory × Nat}
    (h : melLoop f scr m = .ok acc) : Within (Region (scr + f.fftLen) f.nbMelFilters) m acc.1 :=
  forUpTo_ok (fun _ c => Within (Region (scr + f.fftLen) f.nbMelFilters) m c.1) h (Within.refl _ m)
    fun i hi b d hd hb => by
      simp only [bind_ok_iff] at hd
      obtain ⟨e, -, m1, h2, h3⟩ := hd
      cases h3
      refine hb.trans ((memWrite_within h2).weaken fun x hx => ?_)
      subst hx
      exact ⟨by simp [realElement], by simp only [realElement]; omega⟩

theorem filterOffset_mono (f : MfccInstance) (m : Memory) {i j : Nat} (h : i ≤ j) :
    filterOffset f m i ≤ filterOffset f m j := by
  induction j with
  | zero =>
    have : i = 0 := by omega
    subst this
    exact le_refl _
  | succ j ih =>
    by_cases e : i = j + 1
    · subst e
      exact le_refl _
    · exact (ih (by omega)).trans (by simp [filterOffset])

/-- The mel loop completes when the magnitudes are there and the tables are there, outside the scratch, with every
filter inside the bins; and then the log-energies are there. -/
theorem melLoop_completes {f : MfccInstance} {scr : Nat} {m : Memory} (hF : f.nbMelFilters ≤ f.fftLen)
    (hs : scr + (2 * f.fftLen + 2) ≤ Config.dmemWords) (hm : Filled m scr (f.fftLen / 2 + 1))
    (h2 : 2 ≤ f.fftLen)
    (hp : Filled m f.filterPos f.nbMelFilters) (hl : Filled m f.filterLengths f.nbMelFilters)
    (hc : Filled m f.filterCoefs (filterOffset f m f.nbMelFilters))
    (ap : ∀ a, Region f.filterPos f.nbMelFilters a → ¬ Region scr (2 * f.fftLen + 2) a)
    (al : ∀ a, Region f.filterLengths f.nbMelFilters a → ¬ Region scr (2 * f.fftLen + 2) a)
    (hr : ∀ i < f.nbMelFilters,
      naturalAt m (filterEntry f.filterPos i) + naturalAt m (filterEntry f.filterLengths i) ≤ f.fftLen / 2 + 1) :
    ∃ acc, melLoop f scr m = .ok acc ∧ Filled acc.1 (scr + f.fftLen) f.nbMelFilters := by
  obtain ⟨acc, h, -, -, hw⟩ := forUpTo_rule
    (fun i (c : Memory × Nat) => Within (Region (scr + f.fftLen) f.nbMelFilters) m c.1 ∧ c.2 = filterOffset f m i ∧
      ∀ x, Region (scr + f.fftLen) i x → written c.1 x = true)
    (n := f.nbMelFilters)
    (f := fun i acc => do
      let e ← melEnergy f scr i acc.2 acc.1
      let m ← memWrite acc.1 (realElement (scr + f.fftLen) i) (logCompress e.1)
      .ok (m, acc.2 + e.2)) (a := (m, 0))
    ⟨Within.refl _ m, rfl, fun x hx => absurd hx.1 (by have := hx.2; omega)⟩
    (by
      rintro i hi ⟨a, off⟩ ⟨h1, rfl, h3⟩
      dsimp only at h1 h3
      have keep : ∀ x, ¬ Region scr (2 * f.fftLen + 2) x → elementAt a x = elementAt m x := fun x hx =>
        h1.elementAt fun hc => hx ⟨by have := hc.1; omega, by have := hc.2; omega⟩
      have e1 := (hp.of_within h1).memReadNat (a := filterEntry f.filterPos i) (by simp [filterEntry])
        (by simp only [filterEntry]; omega)
      have e2 := (hl.of_within h1).memReadNat (a := filterEntry f.filterLengths i) (by simp [filterEntry])
        (by simp only [filterEntry]; omega)
      rw [naturalAt_congr (keep _ (ap _ ⟨by simp [filterEntry], by simp only [filterEntry]; omega⟩))] at e1
      rw [naturalAt_congr (keep _ (al _ ⟨by simp [filterEntry], by simp only [filterEntry]; omega⟩))] at e2
      have hoff : filterOffset f m i + naturalAt m (filterEntry f.filterLengths i) ≤
          filterOffset f m f.nbMelFilters := filterOffset_mono f m (i := i + 1) (by omega)
      obtain ⟨s, e3⟩ := melSum_completes (hm.of_within h1) (hr i hi) (hc.of_within h1) hoff
      have e4 := (melEnergy_ok_iff f scr i (filterOffset f m i) a
        (num.hOfA s, naturalAt m (filterEntry f.filterLengths i))).mpr ⟨_, s, e1, e2, hr i hi, e3, rfl⟩
      have hra : realElement (scr + f.fftLen) i < Config.dmemWords := by simp only [realElement]; omega
      have hwr := setElement_within a (logCompress (num.hOfA s)) hra
      refine ⟨(setElement a (realElement (scr + f.fftLen) i) (logCompress (num.hOfA s)),
        filterOffset f m i + naturalAt m (filterEntry f.filterLengths i)),
        by rw [bind_of_ok e4, bind_of_ok (memWrite_completes _ _ hra)],
        h1.trans (hwr.weaken fun x hx => ?_), rfl, fun x hx => ?_⟩
      · subst hx
        exact ⟨by simp [realElement], by simp only [realElement]; omega⟩
      · dsimp only
        rw [written_setElement]
        by_cases e : x = realElement (scr + f.fftLen) i
        · simp [e]
        · rw [h3 x ⟨hx.1, by have := hx.2; simp only [realElement] at e; omega⟩, Bool.or_true])
  exact ⟨acc, h, by omega, hw⟩

/-! ### The projection -/

theorem dctProject_within {f : MfccInstance} {le out : Nat} {m m' : Memory}
    (h : dctProject f le out m = .ok m') : Within (Region out f.nbDctOutputs) m m' := by
  refine forUpTo_within h fun i hi a d hd => ?_
  obtain ⟨z, -, h2⟩ := (bind_ok_iff _ _ _).mp hd
  refine (memWrite_within h2).weaken fun x hx => ?_
  subst hx
  exact ⟨by simp [realElement], by simp only [realElement]; omega⟩

theorem dctSum_completes {f : MfccInstance} {le j : Nat} {m : Memory} (hj : j < f.nbDctOutputs)
    (hc : Filled m f.dctCoefs (f.nbDctOutputs * f.nbMelFilters)) (he : Filled m le f.nbMelFilters) :
    ∃ acc, dctSum f le j m = .ok acc := by
  obtain ⟨acc, h, -⟩ := forUpTo_rule (fun _ _ => True) (n := f.nbMelFilters)
    (f := fun i acc => do
      let c ← memRead m (dctCoefficient f.dctCoefs f.nbMelFilters j i)
      let e ← memRead m (realElement le i)
      .ok (accumulate acc c e)) (a := zeroA) trivial
    (by
      intro i hi acc _
      have hrow : (j + 1) * f.nbMelFilters ≤ f.nbDctOutputs * f.nbMelFilters := Nat.mul_le_mul_right _ hj
      rw [Nat.succ_mul] at hrow
      obtain ⟨x, e1, -⟩ := hc.memRead (a := dctCoefficient f.dctCoefs f.nbMelFilters j i)
        (by simp only [dctCoefficient]; omega) (by simp only [dctCoefficient]; omega)
      obtain ⟨w, e2, -⟩ := he.memRead (a := realElement le i) (by simp [realElement])
        (by simp only [realElement]; omega)
      exact ⟨_, by rw [bind_of_ok e1, bind_of_ok e2], trivial⟩)
  exact ⟨acc, h⟩

theorem dctProject_completes {f : MfccInstance} {le out : Nat} {m : Memory}
    (ho : out + f.nbDctOutputs ≤ Config.dmemWords) (hc : Filled m f.dctCoefs (f.nbDctOutputs * f.nbMelFilters))
    (he : Filled m le f.nbMelFilters) :
    ∃ m', dctProject f le out m = .ok m' ∧ Filled m' out f.nbDctOutputs := by
  obtain ⟨m', h, -, -, hr⟩ := forUpTo_rule
    (fun i a => Filled a f.dctCoefs (f.nbDctOutputs * f.nbMelFilters) ∧ Filled a le f.nbMelFilters ∧
      ∀ x, Region out i x → written a x = true)
    (n := f.nbDctOutputs)
    (f := fun j m => do
      let acc ← dctSum f le j m
      memWrite m (realElement out j) (num.hOfA acc)) (a := m)
    ⟨hc, he, fun x hx => absurd hx.1 (by have := hx.2; omega)⟩
    (by
      rintro i hi a ⟨h1, h2, h3⟩
      obtain ⟨z, e1⟩ := dctSum_completes hi h1 h2
      have hr : realElement out i < Config.dmemWords := by simp only [realElement]; omega
      have hw := setElement_within a (num.hOfA z) hr
      refine ⟨_, by rw [bind_of_ok e1, memWrite_completes _ _ hr], h1.of_within hw, h2.of_within hw,
        fun x hx => ?_⟩
      rw [written_setElement]
      by_cases e : x = realElement out i
      · simp [e]
      · rw [h3 x ⟨hx.1, by have := hx.2; simp only [realElement] at e; omega⟩, Bool.or_true])
  exact ⟨m', h, ho, hr⟩

/-! ### The six steps together -/

theorem mfccSteps_within {be : MfccBackend} {sp : MfccSpectrum} {f : MfccInstance} {inp out scr : Nat}
    {m m' : Memory} (hb : f.BuiltFor be) (hF : f.nbMelFilters ≤ f.fftLen)
    (h : mfccSteps sp f inp out scr m = .ok m') :
    Within (fun a => Region scr (2 * f.fftLen + 2) a ∨ Region out f.nbDctOutputs a) m m' := by
  simp only [mfccSteps, bind_ok_iff] at h
  obtain ⟨m1, h1, m2, h2, m3, h3, m4, h4, h5⟩ := h
  have hp := hb.length_pos
  refine ((((windowStep_within h1).weaken fun x hx => ?_).trans
    ((transformStep_within hb h2).weaken fun x hx => Or.inl hx)).trans
    (((magnitudeStep_within h3).weaken fun x hx => ?_).trans
    ((melLoop_within h4).weaken fun x hx => ?_))).trans
    ((dctProject_within h5).weaken fun x hx => Or.inr hx)
  · exact Or.inl ⟨hx.1, by have := hx.2; omega⟩
  · exact Or.inl ⟨hx.1, by have := hx.2; omega⟩
  · exact Or.inl ⟨by have := hx.1; omega, by have := hx.2; omega⟩

theorem filterTotal_eq {f : MfccInstance} {m : Memory} (hl : Filled m f.filterLengths f.nbMelFilters) :
    filterTotal f m = .ok (filterOffset f m f.nbMelFilters) := by
  obtain ⟨t, h, e⟩ := forUpTo_rule (fun i t => t = filterOffset f m i) (n := f.nbMelFilters)
    (f := fun i t => do
      let len ← memReadNat m (filterEntry f.filterLengths i)
      .ok (t + len)) (a := 0) rfl
    (by
      rintro i hi t rfl
      have e2 := hl.memReadNat (a := filterEntry f.filterLengths i) (by simp [filterEntry])
        (by simp only [filterEntry]; omega)
      exact ⟨filterOffset f m (i + 1), by rw [bind_of_ok e2]; rfl, rfl⟩)
  rw [← e]
  exact h

theorem checkTables_ok {f : MfccInstance} {out scr : Nat} {ts : List Buffer}
    (h : ∀ t ∈ ts, inRange t = true ∧ overlap t (mfccScratch f scr) = false ∧ overlap t (mfccOutput f out) = false) :
    checkTables f out scr ts = .ok () := by
  induction ts with
  | nil => rfl
  | cons t ts ih =>
    obtain ⟨h1, h2, h3⟩ := h t (List.mem_cons_self ..)
    have : checkTable f out scr t = .ok () := by simp [checkTable, h1, h2, h3]
    rw [checkTables, bind_of_ok this]
    exact ih fun t' ht => h t' (List.mem_cons_of_mem _ ht)

/-- Everything the body of `MFCC` does when it answers: its checks held and the six steps ran (R275). -/
theorem mfccRun_ok {sp : MfccSpectrum} {f : MfccInstance} {inp out scr : Nat} {m m' : Memory}
    (h : mfccRun sp f inp out scr m = .ok m') :
    f.nbMelFilters ≤ f.fftLen ∧ mfccSteps sp f inp out scr m = .ok m' := by
  unfold mfccRun at h
  split at h
  · cases h
  · split at h
    · cases h
    · split at h
      · cases h
      · simp only [bind_ok_iff] at h
        obtain ⟨_, -, _, -, h3⟩ := h
        exact ⟨by omega, h3⟩

theorem mfccRun_within {be : MfccBackend} {sp : MfccSpectrum} {f : MfccInstance} {inp out scr : Nat}
    {m m' : Memory} (hb : f.BuiltFor be) (h : mfccRun sp f inp out scr m = .ok m') :
    Within (fun a => Region scr (2 * f.fftLen + 2) a ∨ Region out f.nbDctOutputs a) m m' :=
  mfccSteps_within hb (mfccRun_ok h).1 (mfccRun_ok h).2

theorem overlap_false_disjoint {b c : Buffer} (h : overlap b c = false) {a : Nat}
    (hb : Region b.base b.length a) : ¬ Region c.base c.length a := by
  intro hc
  have := hb.1; have := hb.2; have := hc.1; have := hc.2
  simp only [overlap, decide_eq_false_iff_not] at h
  exact h ⟨by omega, by omega, by omega, by omega⟩

theorem overlap_comm (b c : Buffer) : overlap b c = overlap c b := by
  simp only [overlap, decide_eq_decide]
  omega

theorem not_overlap_iff (b c : Buffer) :
    overlap b c = false ↔ ¬ (0 < b.length ∧ 0 < c.length ∧ b.base < c.base + c.length ∧ c.base < b.base + b.length) := by
  simp only [overlap, decide_eq_false_iff_not]

/-- The precondition of an MFCC, one buffer at a time. -/
theorem MfccReady.source {f : MfccInstance} {inp out scr : Nat} {m : Memory} (h : MfccReady f inp out scr m)
    {b : Buffer} (hb : b ∈ mfccSources f inp m) :
    Filled m b.base b.length ∧ overlap b (mfccScratch f scr) = false ∧ overlap b (mfccOutput f out) = false := by
  obtain ⟨h1, h2, h3, h4⟩ := h.2.2.2.2.1 b hb
  exact ⟨(filled_iff m b.base b.length).mpr ⟨h1, (allWritten_iff m b.base b.length).mpr fun a ha =>
    h2 a ((inBuffer_iff b a).mpr ha)⟩, h3, h4⟩

/-- Elements of a source are what they were once only the scratch has been written. -/
theorem source_elementAt {f : MfccInstance} {scr : Nat} {m m' : Memory} {b : Buffer}
    (ho : overlap b (mfccScratch f scr) = false) (hw : Within (Region scr (2 * f.fftLen + 2)) m m') {a : Nat}
    (ha : Region b.base b.length a) : elementAt m' a = elementAt m a :=
  hw.elementAt fun hc => overlap_false_disjoint ho ha hc

/-- The six steps complete when the MFCC breaks no contract, and leave the D outputs written. -/
theorem mfccSteps_completes {be : MfccBackend} {sp : MfccSpectrum} {f : MfccInstance} {inp out scr : Nat}
    {m : Memory} (hb : f.BuiltFor be) (h : MfccReady f inp out scr m) :
    ∃ m', mfccSteps sp f inp out scr m = .ok m' ∧ Filled m' out f.nbDctOutputs := by
  have hp := hb.length_pos
  have hs : scr + (2 * f.fftLen + 2) ≤ Config.dmemWords := (inRange_iff _).mp h.2.2.1
  have ho : out + f.nbDctOutputs ≤ Config.dmemWords := (inRange_iff _).mp h.2.1
  obtain ⟨fx, -, -⟩ := h.source (b := mfccInput f inp) (by simp [mfccSources])
  obtain ⟨fw, -, -⟩ := h.source (b := ⟨f.windowCoefs, f.fftLen⟩) (by simp [mfccSources, mfccTables])
  obtain ⟨fp, op, -⟩ := h.source (b := ⟨f.filterPos, f.nbMelFilters⟩) (by simp [mfccSources, mfccTables])
  obtain ⟨fl, ol, -⟩ := h.source (b := ⟨f.filterLengths, f.nbMelFilters⟩) (by simp [mfccSources, mfccTables])
  obtain ⟨fc, -, -⟩ := h.source (b := ⟨f.filterCoefs, filterOffset f m f.nbMelFilters⟩)
    (by simp [mfccSources, mfccTables])
  obtain ⟨fd, -, -⟩ := h.source (b := ⟨f.dctCoefs, f.nbDctOutputs * f.nbMelFilters⟩)
    (by simp [mfccSources, mfccTables])
  obtain ⟨m1, e1, w1⟩ := windowStep_completes (inp := inp) (scr := scr) (by omega) fx fw
  have i1 := (windowStep_within e1).weaken (w' := Region scr (2 * f.fftLen + 2)) fun x hx =>
    ⟨hx.1, by have := hx.2; omega⟩
  obtain ⟨m2, e2, w2⟩ := transformStep_completes hb hs w1
  have i2 := i1.trans (transformStep_within hb e2)
  obtain ⟨m3, e3, w3⟩ := magnitudeStep_completes (sp := sp) (scr := scr) (by omega) w2
  have i3 := i2.trans ((magnitudeStep_within e3).weaken (w' := Region scr (2 * f.fftLen + 2)) fun x hx =>
    ⟨hx.1, by have := hx.2; omega⟩)
  have natp : ∀ i < f.nbMelFilters, naturalAt m3 (filterEntry f.filterPos i) = naturalAt m (filterEntry f.filterPos i) :=
    fun i hi => naturalAt_congr (source_elementAt op i3 ⟨by simp [filterEntry], by simp only [filterEntry]; omega⟩)
  have natl : ∀ i < f.nbMelFilters,
      naturalAt m3 (filterEntry f.filterLengths i) = naturalAt m (filterEntry f.filterLengths i) :=
    fun i hi => naturalAt_congr (source_elementAt ol i3 ⟨by simp [filterEntry], by simp only [filterEntry]; omega⟩)
  have hoff : ∀ n ≤ f.nbMelFilters, filterOffset f m3 n = filterOffset f m n := by
    intro n hn
    induction n with
    | zero => rfl
    | succ n ih => rw [filterOffset, filterOffset, ih (by omega), natl n (by omega)]
  obtain ⟨acc, e4, w4⟩ := melLoop_completes h.1 hs w3 hp (fp.of_within i3) (fl.of_within i3)
    (by rw [hoff _ (le_refl _)]; exact fc.of_within i3)
    (fun a ha => overlap_false_disjoint op ha) (fun a ha => overlap_false_disjoint ol ha)
    (fun i hi => by rw [natp i hi, natl i hi]; exact h.2.2.2.2.2 i hi)
  have i4 := melLoop_within e4
  obtain ⟨m5, e5, w5⟩ := dctProject_completes ho ((fd.of_within i3).of_within i4) w4
  exact ⟨m5, by rw [mfccSteps, bind_of_ok e1, bind_of_ok e2, bind_of_ok e3, bind_of_ok e4, e5], w5⟩

/-- The body of `MFCC` completes when the MFCC breaks no contract. -/
theorem mfccRun_completes {be : MfccBackend} {sp : MfccSpectrum} {f : MfccInstance} {inp out scr : Nat}
    {m : Memory} (hb : f.BuiltFor be) (h : MfccReady f inp out scr m) :
    ∃ m', mfccRun sp f inp out scr m = .ok m' ∧ Filled m' out f.nbDctOutputs := by
  obtain ⟨m', e, w⟩ := mfccSteps_completes (sp := sp) hb h
  refine ⟨m', ?_, w⟩
  obtain ⟨fl, -, -⟩ := h.source (b := ⟨f.filterLengths, f.nbMelFilters⟩) (by simp [mfccSources, mfccTables])
  have hin := (h.2.2.2.2.1 (mfccInput f inp) (by simp [mfccSources]))
  have ht : checkTables f out scr (mfccTables f (filterOffset f m f.nbMelFilters)) = .ok () :=
    checkTables_ok fun t ht => by
      obtain ⟨h1, -, h3, h4⟩ := h.2.2.2.2.1 t (List.mem_cons_of_mem _ ht)
      exact ⟨h1, h3, h4⟩
  unfold mfccRun
  rw [if_neg (by have := h.1; omega), if_neg (by simp [hin.1, h.2.1, h.2.2.1]),
    if_neg (by simp [overlap_comm (mfccScratch f scr) (mfccInput f inp), hin.2.2.1, hin.2.2.2, h.2.2.2.1]),
    bind_of_ok (filterTotal_eq fl), bind_of_ok ht, e]

end Sys2Proof.Machine
end

