-- ==== Sys2Proof/Laws/PerInstr.lean ====
section
/-! SUPPORT. The statements made per instruction: one family, its Statement, and one lemma per constructor of Instr. -/

namespace Sys2Proof.Laws.EncodeRow

/-- The word of a command is selected by the match and mask of its own row (30_encoding.md R92). -/
def Statement (i : Instr) : Prop := encode i &&& (opcodeRow i).mask = (opcodeRow i).pattern

/-- The bits of a command word outside the slot number, whatever the slot. -/
theorem commandWord_and_slotMask (k : BitVec 8) (b f : Bool) (o : BitVec 4) :
    commandWord k b f o &&& 0xFFFF00FF#32 = commandWord 0#8 b f o := by
  revert k b f o
  decide +kernel

theorem cfftInit (k : BitVec 8) : Statement (.cfftInit k) := commandWord_and_slotMask k false false 0x1#4
theorem cfftR2Init (k : BitVec 8) : Statement (.cfftR2Init k) := commandWord_and_slotMask k false false 0x2#4
theorem cfftR4Init (k : BitVec 8) : Statement (.cfftR4Init k) := commandWord_and_slotMask k false false 0x3#4
theorem rfftInit (k : BitVec 8) : Statement (.rfftInit k) := commandWord_and_slotMask k false false 0x4#4
theorem mfccInit (k : BitVec 8) : Statement (.mfccInit k) := commandWord_and_slotMask k false false 0x5#4

/-- Every flag of a row that has one is among the bits its mask leaves free. -/
theorem statement_of_slotMask {i : Instr} {k : BitVec 8} {b f : Bool} {o : BitVec 4} (he : encode i = commandWord k b f o)
    (hm : 0xFFFF00FF#32 &&& (opcodeRow i).mask = (opcodeRow i).mask)
    (hr : commandWord 0#8 b f o &&& (opcodeRow i).mask = (opcodeRow i).pattern) : Statement i := by
  rw [Statement, he, ← hm, ← BitVec.and_assoc, commandWord_and_slotMask, hr]

theorem cfft (k : BitVec 8) (f b : Bool) : Statement (.cfft k f b) :=
  statement_of_slotMask rfl (by decide +revert) (by decide +revert)
theorem cfftR2 (k : BitVec 8) (f b : Bool) : Statement (.cfftR2 k f b) :=
  statement_of_slotMask rfl (by decide +revert) (by decide +revert)
theorem cfftR4 (k : BitVec 8) (f b : Bool) : Statement (.cfftR4 k f b) :=
  statement_of_slotMask rfl (by decide +revert) (by decide +revert)
theorem rfft (k : BitVec 8) (f : Bool) : Statement (.rfft k f) :=
  statement_of_slotMask rfl (by decide +revert) (by decide +revert)
theorem mfcc (k : BitVec 8) : Statement (.mfcc k) := commandWord_and_slotMask k false false 0xD#4

end Sys2Proof.Laws.EncodeRow
end

