-- ==== Sys2Proof/Tests/Slice0.lean ====
section
/-! SUPPORT. The model's own tests, every expectation taken from spec/ (its rule or vector is named), and for each statement with hypotheses a state and operands that meet them. -/

namespace Sys2Proof.Tests

-- One theorem at a time: the kernel evaluations of this file are not run beside each other.
set_option Elab.async false

open Sys2Proof.Machine

/-! ### Helpers -/

/-- Whether a result is a next state with a property. -/
def nextIs (r : Result) (p : State → Bool) : Bool :=
  match r with
  | .next s => p s
  | .fault _ => false
  | .refused _ => false

/-- Whether a result is a certain violation. -/
def faultIs (r : Result) (e : Fault) : Bool :=
  match r with
  | .next _ => false
  | .fault f => decide (f = e)
  | .refused _ => false

/-- A memory in which values stand from a base on. -/
def place (base : Nat) : List Nat → Memory → Memory
  | [], m => m
  | v :: vs, m => place (base + 1) vs (setElement m base (BitVec.ofNat 16 v))

/-- The elements from a base on, as numbers, none where nothing was written. -/
def elements (m : Memory) (base n : Nat) : List (Option Nat) :=
  (List.range n).map fun i => (elementAt m (base + i)).map fun v => v.toNat

/-- A state after reset but for one slot, the first three argument registers, and data memory. -/
def withSlot (k : BitVec 8) (r : Slot) (a0 a1 a2 : Word) (m : Memory) : State :=
  ((((State.reset.setSlot k r).setArg 0 a0).setArg 1 a1).setArg 2 a2).withDmem m

/-- A state after reset but for `A[0]`. -/
def withLength (n : Word) : State := State.reset.setArg 0 n

/-- A state after reset but for what the host has yet to do. -/
def withPending (l : List HostTxn) : State := { State.reset with pending := l }

theorem exists_next {r : Result} (h : nextIs r (fun _ => true) = true) : ∃ t, r = .next t := by
  cases r with
  | next s => exact ⟨s, rfl⟩
  | fault e => cases h
  | refused e => cases h

theorem bufferWritten_of {m : Memory} {b : Buffer} (h : allWritten m b.base b.length = true) : bufferWritten m b :=
  fun a ha => (allWritten_iff m b.base b.length).mp h a ((inBuffer_iff b a).mp ha)

/-! ### Well-formedness (30_encoding.md R90) -/

theorem test_wellFormed_slot7 : (Instr.mfcc 7).wellFormed = true := by decide
theorem test_illFormed_slot8 : (Instr.cfft 8 true true).wellFormed = false := by decide
theorem test_illFormed_slot255 : (Instr.cfftInit 255).wellFormed = false := by decide
theorem test_meaning_refuses_slot8 : faultIs (exec (.cfftInit 8) (withLength 64)) .badSlot = true := by decide

/-! ### Decoding: words written from the fields of 30_encoding.md R90 and the opcodes of R92 -/

theorem test_decode_cfftInit : decode 0b00000000000000000000011100000001#32 = .ok (.cfftInit 7) := by decide
theorem test_decode_cfftR2Init : decode 0b00000000000000000000000100000010#32 = .ok (.cfftR2Init 1) := by decide
theorem test_decode_cfftR4Init : decode 0b00000000000000000000001000000011#32 = .ok (.cfftR4Init 2) := by decide
theorem test_decode_rfftInit : decode 0b00000000000000000000001100000100#32 = .ok (.rfftInit 3) := by decide
theorem test_decode_mfccInit : decode 0b00000000000000000000010000000101#32 = .ok (.mfccInit 4) := by decide
theorem test_decode_cfft_inv_br : decode 0b00000000000000000000001000111001#32 = .ok (.cfft 2 true true) := by decide
theorem test_decode_cfft_br : decode 0b00000000000000000000000000101001#32 = .ok (.cfft 0 false true) := by decide
theorem test_decode_cfftR2_inv : decode 0b00000000000000000000000100011010#32 = .ok (.cfftR2 1 true false) := by decide
theorem test_decode_cfftR4 : decode 0b00000000000000000000001000001011#32 = .ok (.cfftR4 2 false false) := by decide
theorem test_decode_rfft_inv : decode 0b00000000000000000000001100011100#32 = .ok (.rfft 3 true) := by decide
theorem test_decode_mfcc : decode 0b00000000000000000000010000001101#32 = .ok (.mfcc 4) := by decide

/-- The refused words of 95_test_vectors.md V4.1, each with its violation. -/
theorem test_reserved_bits :
    [0x00010001#32, 0x80000009#32, 0x00000041#32, 0x00000081#32, 0x00000011#32, 0x00000021#32, 0x0000002C#32,
      0x0000003C#32, 0x0000001D#32, 0x0000002D#32].map decode = List.replicate 10 (.error .reservedBits) := by
  decide +kernel
theorem test_reserved_opcodes :
    [0x00000000#32, 0x00000006#32, 0x00000007#32, 0x00000008#32, 0x0000000E#32, 0x0000000F#32].map decode =
      List.replicate 6 (.error .reservedOpcode) := by decide +kernel
theorem test_bad_slots : [0x00000801#32, 0x0000FF01#32].map decode = List.replicate 2 (.error .badSlot) := by
  decide +kernel
theorem test_tableWord : decodeTableWord 32 0x0000030C = some (.rfft 3 false) := by decide

/-- A fetched word runs on the next step: V4.1, `cfft.init s0` with `A[0]` = 32 makes `STATUS` 0. -/
theorem test_withFetchWord :
    nextIs (step ((withLength 32).withFetchWord 32 0x00000001))
      (fun t => decide (t.status = 0#32 ∧ t.pending = [] ∧ t.slotAt 0 ≠ some .invalid)) = true := by decide +kernel

/-! ### Numerics: 95_test_vectors.md V1 -/

theorem test_hAdd : num.hAdd 0x3C00#16 0x1000#16 = 0x3C00#16 ∧ num.hAdd 0x3C01#16 0x1000#16 = 0x3C02#16 ∧
    num.hAdd 0x7BFF#16 0x4C00#16 = 0x7C00#16 ∧ num.hAdd 0x7BFF#16 0x4BFF#16 = 0x7BFF#16 ∧
    num.hAdd 0x8000#16 0x8000#16 = 0x8000#16 ∧ num.hAdd 0x3C00#16 0xBC00#16 = 0x0000#16 ∧
    num.hAdd 0x7C00#16 0xFC00#16 = 0x7E00#16 ∧ num.hAdd 0x03FF#16 0x0001#16 = 0x0400#16 := by decide +kernel
theorem test_hSub : num.hSub 0x8000#16 0x0000#16 = 0x8000#16 ∧ num.hSub 0x8000#16 0x8000#16 = 0x0000#16 ∧
    num.hSub 0xFBFF#16 0x7BFF#16 = 0xFC00#16 ∧ num.hSub 0x3C00#16 0x7E00#16 = 0x7E00#16 := by decide +kernel
theorem test_hMul : num.hMul 0x3555#16 0x4200#16 = 0x3C00#16 ∧ num.hMul 0x0003#16 0x3800#16 = 0x0002#16 ∧
    num.hMul 0x0001#16 0x3800#16 = 0x0000#16 ∧ num.hMul 0xC000#16 0x0000#16 = 0x8000#16 ∧
    num.hMul 0x7C00#16 0x0000#16 = 0x7E00#16 ∧ num.hMul 0x39A8#16 0x39A8#16 = 0x3800#16 := by decide +kernel
theorem test_conversions : num.aOfH 0x0001#16 = 0x33800000#32 ∧ num.aOfH 0xFBFF#16 = 0xC77FE000#32 ∧
    num.hOfA 0x477FEFFF#32 = 0x7BFF#16 ∧ num.hOfA 0x477FF000#32 = 0x7C00#16 ∧ num.hOfA 0x33000001#32 = 0x0001#16 ∧
    num.hOfA 0x41AD5C00#32 = 0x4D6B#16 := by decide +kernel
theorem test_accumulator : num.aAdd 0x3F800000#32 0x33800000#32 = 0x3F800000#32 ∧
    num.aMul 0x477FE000#32 0x477FE000#32 = 0x4F7FC004#32 ∧ num.aMul 0x33800000#32 0x33800000#32 = 0x27800000#32 := by
  decide +kernel
theorem test_aSqrt : num.aSqrt 0x40000000#32 = 0x3FB504F3#32 ∧ num.aSqrt 0x00000001#32 = 0x1A3504F3#32 ∧
    num.aSqrt 0x80000000#32 = 0x80000000#32 ∧ num.aSqrt 0xBF800000#32 = 0x7FC00000#32 := by decide +kernel
theorem test_aLog : num.aLog 0x3F800000#32 = 0x00000000#32 ∧ num.aLog 0x38800000#32 = 0xC11B43D5#32 ∧
    num.aLog 0x40000000#32 = 0x3F317218#32 ∧ num.aLog 0x402DF854#32 = 0x3F7FFFFF#32 ∧
    num.aLog 0x80000000#32 = 0xFF800000#32 := by decide +kernel
theorem test_hLt : num.hLt 0x8000#16 0x0000#16 = false ∧ num.hLt 0x03FF#16 0x0400#16 = true ∧
    num.hLt 0xFC00#16 0x0400#16 = true ∧ num.hLt 0x7E00#16 0x0400#16 = false := by decide +kernel

/-! ### Tables: 41_twiddle_rom.md R152 (check values) and 95_test_vectors.md V2.1, 42 R172 -/

theorem test_quarter_table_check :
    ((List.range 1025).map fun r => (quarterCos r).toNat).sum = 14634669 ∧
    ((List.range 1025).map fun r => (quarterCos r).toNat).foldl Nat.xor 0 = 0x2535 := by decide +kernel
theorem test_twiddle_samples : twiddle 1 = ⟨0x3C00#16, 0x1648#16⟩ ∧ twiddle 1025 = ⟨0x9648#16, 0x3C00#16⟩ ∧
    twiddle 2304 = ⟨0xBB64#16, 0xB61F#16⟩ ∧ twiddle 3071 = ⟨0x9648#16, 0xBC00#16⟩ ∧ twiddle 3072 = ⟨0x0000#16, 0xBC00#16⟩ ∧
    twiddle 4095 = ⟨0x3C00#16, 0x9648#16⟩ := by decide +kernel
theorem test_bitrev_view8 :
    (List.range 8).map (brView (makeCfft .general 8)) = [0, 4, 2, 6, 1, 5, 3, 7] := by decide +kernel

/-! ### One step of each command -/

/-- 45_complex_fft_engine.md R204, the example. -/
theorem test_cfftInit_64 :
    nextIs (exec (.cfftInit 0) (withLength 64))
      (fun t => decide (t.slotAt 0 = some (.cfft ⟨.general, 64, 64, 64, 64, 0x2400#16⟩) ∧ t.status = 0#32)) = true := by
  decide +kernel
/-- 95_test_vectors.md V4.4: a failed initialisation destroys what the slot held. -/
theorem test_cfftInit_12 :
    nextIs (exec (.cfftInit 0) (withSlot 0 (.cfft (makeCfft .general 4)) 12 0 0 []))
      (fun t => decide (t.slotAt 0 = some .invalid ∧ t.status = 1#32)) = true := by decide +kernel
/-- 45_complex_fft_engine.md R205, the example. -/
theorem test_cfftR2Init_8 :
    nextIs (exec (.cfftR2Init 1) (withLength 8))
      (fun t => decide (t.slotAt 1 = some (.cfft ⟨.radix2, 8, 512, 512, 8, 0x3000#16⟩) ∧ t.status = 0#32)) = true := by
  decide +kernel
/-- 95_test_vectors.md V4.2, length 4096. -/
theorem test_cfftR4Init_4096 :
    nextIs (exec (.cfftR4Init 2) (withLength 4096))
      (fun t => decide (t.slotAt 2 = some (.cfft ⟨.radix4, 4096, 1, 1, 4096, 0x0C00#16⟩) ∧ t.status = 0#32)) = true := by
  decide +kernel
/-- 45_complex_fft_engine.md R206, the example. -/
theorem test_cfftR4Init_12 :
    nextIs (exec (.cfftR4Init 2) (withLength 12)) (fun t => decide (t.slotAt 2 = some .invalid ∧ t.status = 1#32)) = true := by
  decide +kernel
/-- 46_real_fft_adapter.md R233, the example. -/
theorem test_rfftInit_32 :
    nextIs (exec (.rfftInit 3) (withLength 32))
      (fun t => decide (t.slotAt 3 = some (.rfft ⟨32, ⟨.general, 16, 256, 256, 16, 0x2C00#16⟩, 128⟩) ∧
        t.status = 0#32)) = true := by decide +kernel
/-- 46_real_fft_adapter.md R233, the corner case. -/
theorem test_rfftInit_16 :
    nextIs (exec (.rfftInit 3) (withLength 16)) (fun t => decide (t.status = 1#32)) = true := by decide +kernel
/-- 95_test_vectors.md V4.3: 48 fails and 32 succeeds, whatever the backend. -/
theorem test_mfccInit_48 : exec (.mfccInit 4) (withLength 48) = .next (raiseArgumentError (withLength 48) 4) := by
  simp only [exec, execMfccInit, makeMfccSlot]
  cases Config.mfccBackend <;> rfl
theorem test_mfccInit_32 :
    exec (.mfccInit 4) (withLength 32) =
      .next (((withLength 32).setSlot 4 (.mfcc ⟨32, 0, 0, 0, 0, 0, 0, 0, makeBackend Config.mfccBackend 32⟩)).setStatus
        0#32) := by
  simp only [exec, execMfccInit, makeMfccSlot]
  cases Config.mfccBackend <;> rfl

/-- The buffer 1, 2, 3, 4 with zero imaginary parts at 0x10. -/
def ramp4 : Memory := place 0x10 [0x3C00, 0, 0x4000, 0, 0x4200, 0, 0x4400, 0] []

/-- 45_complex_fft_engine.md R213, the example: 10, -2+2j, -2, -2-2j. -/
theorem test_cfft_br :
    nextIs (exec (.cfft 0 false true) (withSlot 0 (.cfft (makeCfft .general 4)) 0x10 0 0 ramp4))
      (fun t => decide (elements t.dmem 0x10 8 =
        [some 0x4900, some 0, some 0xC000, some 0x4000, some 0xC000, some 0, some 0xC000, some 0xC000])) = true := by
  decide +kernel
/-- 45_complex_fft_engine.md R214, the example: 4+j and -2+3j. -/
theorem test_cfftR2 :
    nextIs (exec (.cfftR2 1 false false)
        (withSlot 1 (.cfft (makeCfft .radix2 2)) 0x10 0 0 (place 0x10 [0x3C00, 0x4000, 0x4200, 0xBC00] [])))
      (fun t => decide (elements t.dmem 0x10 4 = [some 0x4400, some 0x3C00, some 0xC000, some 0x4200])) = true := by
  decide +kernel
/-- 45_complex_fft_engine.md R215, the example: back to 1, 2, 3, 4. -/
theorem test_cfftR4_inv_br :
    nextIs (exec (.cfftR4 2 true true)
        (withSlot 2 (.cfft (makeCfft .radix4 4)) 0x10 0 0
          (place 0x10 [0x4900, 0, 0xC000, 0x4000, 0xC000, 0, 0xC000, 0xC000] [])))
      (fun t => decide (t.dmem = ramp4)) = true := by
  decide +kernel
/-- 45_complex_fft_engine.md R212: the tag of another command. -/
theorem test_cfft_wrong_tag :
    faultIs (exec (.cfft 1 false true) (withSlot 1 (.cfft (makeCfft .radix2 4)) 0x10 0 0 ramp4)) .kindMismatch = true := by
  decide +kernel

/-- A one followed by zeros, n elements. -/
def impulse (n : Nat) : List Nat := 0x3C00 :: List.replicate (n - 1) 0

/-- 46_real_fft_adapter.md R235, the example: 17 bins (0x3C00, 0x0000). -/
theorem test_rfft_impulse :
    nextIs (exec (.rfft 3 false) (withSlot 3 (.rfft (makeRfft 32)) 0 0x40 0 (place 0 (impulse 32) [])))
      (fun t => decide (elements t.dmem 0x40 34 = (List.replicate 17 [some 0x3C00, some 0]).flatten)) = true := by
  decide +kernel

/-- The set-up of 95_test_vectors.md V9: input, window, filter tables, DCT table. -/
def mfccMemory : Memory :=
  place 0x100 [0xC400, 0xC380, 0xC300, 0xC280, 0xC200, 0xC180, 0xC100, 0xC080, 0xC000, 0xBF00, 0xBE00, 0xBD00, 0xBC00,
      0xBA00, 0xB800, 0xB400, 0x0000, 0x3400, 0x3800, 0x3A00, 0x3C00, 0x3D00, 0x3E00, 0x3F00, 0x4000, 0x4080, 0x4100,
      0x4180, 0x4200, 0x4280, 0x4300, 0x4380]
    (place 0x200 (List.replicate 8 0x3800 ++ List.replicate 16 0x3C00 ++ List.replicate 8 0x3800)
      (place 0x300 [1, 3, 6] (place 0x310 [3, 4, 5]
        (place 0x320 [0x3800, 0x3C00, 0x3800, 0x3400, 0x3A00, 0x3A00, 0x3400, 0x3400, 0x3800, 0x3C00, 0x3800, 0x3400]
          (place 0x340 [0x3800, 0x3800, 0x3800, 0x3A00, 0x0000, 0xBA00] [])))))

/-- The instance of 95_test_vectors.md V9, of a `REAL` build. -/
def rampMfcc : MfccInstance := ⟨32, 3, 2, 0x340, 0x300, 0x310, 0x320, 0x200, makeBackend .real 32⟩

/-- The machine of 95_test_vectors.md V9 before its `mfcc s4`. -/
def rampState : State := withSlot 4 (.mfcc rampMfcc) 0x100 0x380 0x400 mfccMemory

/-- A COMPLEX build of length 2 with filters (0.5, 0.5) and (none): x = (1, 0), window 1, so both bins are 1, the energies
1 and +0, and the log-energies +0 and the floor's 0xC8DA (49_mfcc_extractor.md R279; 47_mel_filterbank.md R255). The
rows (1, 1) and (0, 0.5) give 0xC8DA and its half 0xC4DA. -/
theorem test_mfcc_complex :
    nextIs (exec (.mfcc 4)
        (withSlot 4 (.mfcc ⟨2, 2, 2, 0x20, 0x12, 0x14, 0x16, 0x10, makeBackend .complex 2⟩) 0x30 0x50 0x40
          (place 0x10 [0x3C00, 0x3C00, 0, 0, 2, 0, 0x3800, 0x3800]
            (place 0x20 [0x3C00, 0x3C00, 0, 0x3800] (place 0x30 [0x3C00, 0] [])))))
      (fun t => decide (elements t.dmem 0x50 2 = [some 0xC8DA, some 0xC4DA] ∧
        elements t.dmem 0x40 6 = [some 0x3C00, some 0x3C00, some 0, some 0xC8DA, none, none])) = true := by
  decide +kernel

/-- 47_mel_filterbank.md R257: the energy of the first filter of the set-up below is 0x4D6B, its length 3. -/
theorem test_melEnergy :
    (melEnergy rampMfcc 0x400 0 0 (place 0x401 [0x4EBA, 0x4520, 0x462F] mfccMemory)).toOption =
      some (0x4D6B#16, 3) := by decide +kernel

/-- 48_dct_core.md R265: the two outputs from the three log-energies. -/
theorem test_dctProject :
    ((dctProject rampMfcc 0x420 0x380 (place 0x420 [0x4227, 0x40D7, 0x401E] mfccMemory)).toOption.map
      fun m => elements m 0x380 2) = some [some 0x438E, some 0x3A1B] := by decide +kernel

/-- 42_bit_reversal_permutation.md: 95_test_vectors.md V3.3 on the elements that move, (1, 4) and (3, 6). -/
theorem test_bitReverse8 :
    ((bitReverse (makeCfft .general 8) 0x40
        (place 0x40 [1000, 2000, 1001, 2001, 1002, 2002, 1003, 2003, 1004, 2004, 1005, 2005, 1006, 2006, 1007, 2007]
          [])).toOption.map fun m => elements m 0x40 8) =
      some [some 1000, some 2000, some 1004, some 2004, some 1002, some 2002, some 1006, some 2006] := by decide +kernel

/-! ### Witnesses: states and operands that meet the hypotheses of the statements, at the boundaries of their clauses -/

theorem witness_DecodeOfEncodeIsTheInstruction : (Instr.cfft 7 true true).wellFormed = true := by decide
theorem witness_DecodedWordIsTheEncodingOfItsInstruction : decode 0x00000739#32 = .ok (.cfft 7 true true) := by
  decide +kernel

/-- One word for each branch of the rule of decoding, the last at the highest slot, the one before it just above. -/
theorem witness_IssueFollowsTheDecodingRule :
    (fieldRsv1 0x00010001#32 ≠ 0#16) ∧ (fieldRsv0 0x00000041#32 ≠ 0#2) ∧ fieldOpc 0x0000000F#32 = 0xF#4 ∧
    (fieldOpc 0x0000001D#32 = 0xD#4 ∧ fieldIfft 0x0000001D#32 = true) ∧
    (fieldOpc 0x0000002C#32 = 0xC#4 ∧ fieldBitrev 0x0000002C#32 = true) ∧
    (fieldOpc 0x00000801#32 = 0x1#4 ∧ (fieldInst 0x00000801#32).toNat = Config.nInst) ∧
    ((fieldInst 0x00000739#32).toNat < Config.nInst ∧ fieldOpc 0x00000739#32 = 0x9#4) := by decide +kernel

theorem witness_OpcodeRowsSelectTheirCommands :
    decode 0x0000071C#32 = .ok (.rfft 7 true) ∧
    0x0000071C#32 &&& (opcodeRow (.rfft 0 false)).mask = (opcodeRow (.rfft 0 false)).pattern ∧
    (fieldInst 0x0000071C#32).toNat < Config.nInst := by decide +kernel

theorem witness_StepRunsTheDecodedCommand :
    ((withPending [commandWrite 0x00000701#32]).pending = commandWrite 0x00000701#32 :: [] ∧
      decode 0x00000701#32 = .ok (.cfftInit 7)) ∧
    ((withPending [commandWrite 0x00000801#32]).pending = commandWrite 0x00000801#32 :: [] ∧
      decode 0x00000801#32 = .error .badSlot) := by decide +kernel

theorem witness_IdleBlockHoldsItsState : State.reset.pending = [] := rfl
theorem witness_StepTakesOneTransaction :
    (withPending [.regRead 0x04 4, .reset]).pending = .regRead 0x04 4 :: [.reset] ∧
    (∃ t, step (withPending [.regRead 0x04 4, .reset]) = .next t) ∧ State.reset.pending = [] ∧
    ∃ t, step State.reset = .next t :=
  ⟨rfl, exists_next (by decide +kernel), rfl, exists_next (by decide +kernel)⟩

/-- A[0] and A[7], the ends of the argument registers; offsets just beside them and beside CMD and STATUS. -/
theorem witness_RegisterAccessesFollowTheRegisterMap :
    ((withPending [.regWrite 0x20 4 5#32]).pending = [.regWrite (0x20 + 4 * (0 : Fin 8).val) 4 5#32] ∧
      (withPending [.regWrite 0x3C 4 5#32]).pending = [.regWrite (0x20 + 4 * (7 : Fin 8).val) 4 5#32] ∧
      (withPending [.regRead 0x3C 4]).pending = [.regRead (0x20 + 4 * (7 : Fin 8).val) 4]) ∧
    (∀ o ∈ [0x04, 0x08, 0x1C, 0x40], (withPending [.regWrite o 4 5#32]).pending = [.regWrite o 4 5#32] ∧ o % 4 = 0 ∧
      o ≠ 0x00 ∧ ∀ i : Fin 8, o ≠ 0x20 + 4 * i.val) ∧
    (∀ o ∈ [0x00, 0x08, 0x1C, 0x40], (withPending [.regRead o 4]).pending = [.regRead o 4] ∧ o % 4 = 0 ∧ o ≠ 0x04 ∧
      ∀ i : Fin 8, o ≠ 0x20 + 4 * i.val) ∧
    (withPending [.regRead 0x04 4]).pending = [.regRead 0x04 4] := by decide +kernel

theorem witness_MisshapenHostAccessIsAViolation :
    ((withPending [.regRead 0x04 2]).pending = [.regRead 0x04 2] ∧ (2 : Nat) ≠ 4) ∧
    ((withPending [.regWrite 0x22 4 0#32]).pending = [.regWrite 0x22 4 0#32] ∧ 0x22 % 4 ≠ 0) ∧
    ((withPending [.dataRead 0 4]).pending = [.dataRead 0 4] ∧ (4 : Nat) ≠ 2) ∧
    ((withPending [.dataWrite 1 2 0#16]).pending = [.dataWrite 1 2 0#16] ∧ 1 % 2 ≠ 0) := by decide +kernel

/-- The last element of data memory, and the first address beyond it. -/
theorem witness_HostWriteStoresOneElement :
    ((withPending [.dataWrite 131070 2 7#16]).pending = [.dataWrite (2 * 65535) 2 7#16] ∧
      ¬ Config.dmemWords ≤ 65535) ∧
    ((withPending [.dataWrite 131072 2 7#16]).pending = [.dataWrite (2 * 65536) 2 7#16] ∧ Config.dmemWords ≤ 65536) := by
  decide +kernel

theorem witness_HostReadReturnsTheLatestWrite :
    ((withPending [.dataRead 131072 2]).pending = [.dataRead (2 * 65536) 2] ∧ Config.dmemWords ≤ 65536) ∧
    ((withPending [.dataRead 131070 2]).pending = [.dataRead (2 * 65535) 2] ∧
      written (withPending [.dataRead 131070 2]).dmem 65535 = false) ∧
    ((((withPending [.dataRead 131070 2]).withDmem (place 65535 [7] [])).pending = [.dataRead (2 * 65535) 2]) ∧
      written ((withPending [.dataRead 131070 2]).withDmem (place 65535 [7] [])).dmem 65535 = true) ∧
    (65535 < Config.dmemWords ∧ (withPending [.dataWrite 131070 2 7#16, .dataRead 131070 2]).pending =
      [.dataWrite (2 * 65535) 2 7#16, .dataRead (2 * 65535) 2]) := by decide +kernel

theorem witness_ResetGivesEveryPieceItsResetValue :
    (withPending [.reset]).pending = .reset :: [] ∧ (7 : BitVec 8).toNat < 8 := by decide

theorem witness_StepKeepsTheInvariant : State.Inv (withPending [.dataWrite 0 2 7#16]) ∧
    ∃ t, step (withPending [.dataWrite 0 2 7#16]) = .next t := by
  refine ⟨⟨rfl, Or.inl rfl, fun k r h => ?_⟩, exists_next (by decide +kernel)⟩
  have : r = .invalid := by
    simp only [State.slotAt, withPending, State.reset, Vector.getElem?_replicate] at h
    split at h
    · cases h
      rfl
    · cases h
  rw [this]
  trivial

/-- A complex instance of length 2 on the last four elements of data memory. -/
def smallTransform : State :=
  withSlot 7 (.cfft (makeCfft .radix2 2)) 65532 0 0 (place 65532 [0x3C00, 0x4000, 0x4200, 0xBC00] [])

theorem smallTransform_ready :
    smallTransform.slotAt 7 = some (.cfft (makeCfft .radix2 2)) ∧ (makeCfft .radix2 2).tag = .radix2 ∧
      (makeCfft .radix2 2).Wf ∧ CfftReady (makeCfft .radix2 2) (smallTransform.arg 0) smallTransform.dmem :=
  ⟨by decide +kernel, rfl, ⟨by decide, rfl⟩, by decide +kernel, bufferWritten_of (by decide +kernel)⟩

theorem witness_ComplexTransformCompletes :
    ∃ (s : State) (c : ComplexInstance), s.slotAt 7 = some (.cfft c) ∧ c.tag = .radix2 ∧ c.Wf ∧ CfftReady c (s.arg 0) s.dmem :=
  ⟨smallTransform, makeCfft .radix2 2, smallTransform_ready⟩

/-- A hypothesis `exec … = .next t` on each of the orders and directions of a complex transform. -/
theorem smallTransform_answers (inv br : Bool) :
    ∃ t, exec (transformCommand .radix2 7 inv br) smallTransform = .next t := by
  refine exists_next ?_
  cases inv <;> cases br <;> decide +kernel

theorem witness_CommandsUseOnlyTheirArgumentRegisters :
    (∃ t, exec (.cfftR2 7 true true) smallTransform = .next t) ∧
    ∀ j ∈ argumentsRead (.cfftR2 7 true true), (smallTransform.args.set 1 9#32)[j] = smallTransform.args[j] :=
  ⟨smallTransform_answers true true, by decide +kernel⟩

/-- A command on a state, as a host would give it. -/
def commanded (i : Instr) (s : State) : State := { s with pending := [commandWrite (encode i)] }

theorem witness_StatusAndSlotsChangeOnlyByInitialisation :
    nextIs (step (commanded (.cfftInit 0) (withLength 12))) (fun t => decide (t.status ≠ 0#32)) = true ∧
    nextIs (step (commanded (.cfftInit 0) (withLength 2))) (fun t => decide (t.slots ≠ State.reset.slots)) = true := by
  decide +kernel

theorem witness_DataMemoryChangesOnlyByWritesAndExecuteCommands :
    nextIs (step (commanded (.cfftR2 7 false false) smallTransform)) (fun t => decide (t.dmem ≠ smallTransform.dmem)) = true ∧
    nextIs (step (withPending [.dataWrite 131070 2 7#16])) (fun t => decide (t.dmem ≠ [])) = true := by decide +kernel

theorem witness_ArgumentRegistersChangeOnlyByRegisterWrites :
    nextIs (step (withPending [.regWrite 0x3C 4 5#32])) (fun t => decide (t.args ≠ State.reset.args)) = true := by
  decide +kernel

theorem witness_ComplexInstanceFieldsFollowTheLength :
    (1 ≤ 1 ∧ 1 ≤ 12) ∧ (1 ≤ 12 ∧ 12 ≤ 12) ∧ cfftSupported 2 = true ∧ cfftSupported 1 = false ∧ cfftSupported 4096 = true ∧
      cfftSupported 8192 = false := by decide +kernel

/-- Both outcomes of the three complex initialisations, at the ends of the supported lengths. -/
theorem witness_ComplexInitialisationCompletes :
    (7 : BitVec 8).toNat < Config.nInst ∧ (withLength 2).arg 0 ∈ Config.cfftLengths ∧
      (withLength 4096).arg 0 ∈ Config.cfftLengths ∧ (withLength 1).arg 0 ∉ Config.cfftLengths ∧
      (withLength 4097).arg 0 ∉ Config.cfftLengths := by decide +kernel
theorem witness_RealInitialisationCompletes :
    (7 : BitVec 8).toNat < Config.nInst ∧ (withLength 32).arg 0 ∈ Config.rfftLengths ∧
      (withLength 4096).arg 0 ∈ Config.rfftLengths ∧ (withLength 16).arg 0 ∉ Config.rfftLengths := by decide +kernel
theorem witness_MfccInitialisationCompletes :
    (7 : BitVec 8).toNat < Config.nInst ∧ (withLength 32).arg 0 ∈ backendLengths Config.mfccBackend ∧
      (withLength 1).arg 0 ∉ backendLengths Config.mfccBackend := by
  cases Config.mfccBackend <;> decide +kernel

theorem witness_InitialisationChangesOnlyItsSlotAndStatus :
    (Instr.rfftInit 3).isInit = true ∧ (∃ t, exec (.rfftInit 3) (withLength 32) = .next t) ∧
      ∃ t, exec (.rfftInit 3) (withLength 16) = .next t :=
  ⟨rfl, exists_next (by decide +kernel), exists_next (by decide +kernel)⟩
theorem witness_ArgumentErrorExactlyOnUnsupportedLengths :
    ((Instr.cfftInit 7).wellFormed = true ∧ (Instr.cfftInit 7).isInit = true) ∧
    ((Instr.cfftR2 7 true false).wellFormed = true ∧ (Instr.cfftR2 7 true false).isInit = false ∧
      ∃ t, exec (.cfftR2 7 true false) smallTransform = .next t) :=
  ⟨by decide, rfl, rfl, smallTransform_answers true false⟩
theorem witness_RepeatedInitialisationChangesNothing :
    (Instr.cfftInit 0).isInit = true ∧ ∃ t, exec (.cfftInit 0) (withLength 64) = .next t :=
  ⟨rfl, exists_next (by decide +kernel)⟩

theorem witness_ExecuteOnAnUnsuitableSlotIsAViolation :
    (State.reset.slotAt (Instr.mfcc 0).slot = some .invalid ∧ (Instr.mfcc 0).isInit = false) ∧
    (smallTransform.slotAt (Instr.cfft 7 false false).slot = some (.cfft (makeCfft .radix2 2)) ∧
      (Slot.cfft (makeCfft .radix2 2)) ≠ .invalid ∧ suits (.cfft 7 false false) (.cfft (makeCfft .radix2 2)) = false) := by
  decide +kernel

/-- A real instance of length 32: 32 samples at the top of data memory, the spectrum at 0. -/
def realForward : State :=
  withSlot 3 (.rfft (makeRfft 32)) 65504 0 0 (place 65504 (impulse 32) [])

/-- A real instance of length 32: a spectrum at 65502 without the imaginary parts of its ends, the samples to 65470. -/
def realInverse : State :=
  withSlot 3 (.rfft (makeRfft 32)) 65502 65470 0 (place 65502 [0x3C00] (place 65504 (List.replicate 31 0x3C00) []))

theorem realForward_ready :
    realForward.slotAt 3 = some (.rfft (makeRfft 32)) ∧ (makeRfft 32).Wf ∧
      RfftForwardReady (makeRfft 32) (realForward.arg 0) (realForward.arg 1) realForward.dmem :=
  ⟨by decide +kernel, ⟨by decide, rfl⟩, by decide +kernel, by decide +kernel, by decide +kernel,
    bufferWritten_of (by decide +kernel)⟩

theorem realInverse_ready :
    realInverse.slotAt 3 = some (.rfft (makeRfft 32)) ∧ (makeRfft 32).Wf ∧
      RfftInverseReady (makeRfft 32) (realInverse.arg 0) (realInverse.arg 1) realInverse.dmem := by
  refine ⟨by decide +kernel, ⟨by decide, rfl⟩, by decide +kernel, by decide +kernel, by decide +kernel, ?_⟩
  intro a ha h1 h2
  have hb := (inBuffer_iff _ a).mp ha
  have hall : ∀ i < 34, i ≠ 1 → i ≠ 33 → written realInverse.dmem (65502 + i) = true := by decide +kernel
  have e1 : realInverse.arg 0 = 65502 := by decide +kernel
  have e2 : (spectrumBuffer (makeRfft 32) (realInverse.arg 0)).length = 34 := rfl
  have e3 : (spectrumBuffer (makeRfft 32) (realInverse.arg 0)).base = 65502 := e1
  have e4 : (makeRfft 32).fftLenRFFT = 32 := rfl
  rw [e1] at h1 h2
  rw [e4] at h2
  have g1 := hb.1
  have g2 := hb.2
  rw [e3] at g1 g2
  rw [e2] at g2
  have := hall (a - 65502) (by omega) (by omega) (by omega)
  rwa [show 65502 + (a - 65502) = a by omega] at this

theorem witness_RfftForwardCompletes :
    ∃ (s : State) (r : RealInstance), s.slotAt 3 = some (.rfft r) ∧ r.Wf ∧ RfftForwardReady r (s.arg 0) (s.arg 1) s.dmem := 
  ⟨realForward, makeRfft 32, realForward_ready⟩
theorem witness_RfftInverseCompletes :
    ∃ (s : State) (r : RealInstance), s.slotAt 3 = some (.rfft r) ∧ r.Wf ∧ RfftInverseReady r (s.arg 0) (s.arg 1) s.dmem := 
  ⟨realInverse, makeRfft 32, realInverse_ready⟩

theorem realForward_answers : ∃ t, exec (.rfft 3 false) realForward = .next t := exists_next (by decide +kernel)
theorem realInverse_answers : ∃ t, exec (.rfft 3 true) realInverse = .next t := exists_next (by decide +kernel)

theorem witness_TransformsCompleteOnlyWhenReady :
    (∃ (s t : State) (c : ComplexInstance), s.slotAt 7 = some (.cfft c) ∧ c.tag = .radix2 ∧ exec (transformCommand .radix2 7 true true) s = .next t) ∧
    (∃ (s t : State) (r : RealInstance), s.slotAt 3 = some (.rfft r) ∧ r.Wf ∧ exec (.rfft 3 false) s = .next t) ∧
    ∃ (s t : State) (r : RealInstance), s.slotAt 3 = some (.rfft r) ∧ r.Wf ∧ exec (.rfft 3 true) s = .next t :=
  ⟨⟨smallTransform, _, makeCfft .radix2 2, smallTransform_ready.1, rfl, (smallTransform_answers true true).choose_spec⟩,
    ⟨realForward, _, makeRfft 32, realForward_ready.1, realForward_ready.2.1, realForward_answers.choose_spec⟩,
    ⟨realInverse, _, makeRfft 32, realInverse_ready.1, realInverse_ready.2.1, realInverse_answers.choose_spec⟩⟩

/-- An MFCC instance of a `COMPLEX` build of length 2 with as many filters as that, the first up to the last bin. -/
def smallMfcc : MfccInstance := ⟨2, 2, 1, 0x20, 0x12, 0x14, 0x16, 0x10, makeBackend .complex 2⟩

/-- Samples at 0x30, the one output at the last element of data memory, the scratch at 0x40. -/
def mfccState (f : MfccInstance) : State :=
  withSlot 4 (.mfcc f) 0x30 65535 0x40
    (place 0x10 [0x3C00, 0x3C00, 0, 1, 2, 1, 0x3C00, 0x3800, 0x3C00] (place 0x20 [0x3C00, 0xBC00]
      (place 0x30 [0x4000, 0x3C00] [])))

theorem mfcc_ready_of {f : MfccInstance} {inp out scr : Nat} {m : Memory}
    (h1 : f.nbMelFilters ≤ f.fftLen ∧ inRange (mfccOutput f out) = true ∧ inRange (mfccScratch f scr) = true ∧
      overlap (mfccScratch f scr) (mfccOutput f out) = false)
    (h2 : ∀ b ∈ mfccSources f inp m, inRange b = true ∧ allWritten m b.base b.length = true ∧
      overlap b (mfccScratch f scr) = false ∧ overlap b (mfccOutput f out) = false)
    (h3 : ∀ i < f.nbMelFilters,
      naturalAt m (filterEntry f.filterPos i) + naturalAt m (filterEntry f.filterLengths i) ≤ f.fftLen / 2 + 1) :
    MfccReady f inp out scr m :=
  ⟨h1.1, h1.2.1, h1.2.2.1, h1.2.2.2, fun b hb =>
    ⟨(h2 b hb).1, bufferWritten_of (h2 b hb).2.1, (h2 b hb).2.2.1, (h2 b hb).2.2.2⟩, h3⟩

theorem smallMfcc_ready :
    (mfccState smallMfcc).slotAt 4 = some (.mfcc smallMfcc) ∧ smallMfcc.BuiltFor .complex ∧
      MfccReady smallMfcc ((mfccState smallMfcc).arg 0) ((mfccState smallMfcc).arg 1) ((mfccState smallMfcc).arg 2)
        (mfccState smallMfcc).dmem :=
  ⟨by decide +kernel, ⟨by decide, rfl⟩,
    mfcc_ready_of (by decide +kernel) (by decide +kernel) (by decide +kernel)⟩

theorem smallMfcc_answers : ∃ t, exec (.mfcc 4) (mfccState smallMfcc) = .next t := exists_next (by decide +kernel)

theorem witness_MfccCompletes :
    ∃ (be : MfccBackend) (s : State) (f : MfccInstance), s.slotAt 4 = some (.mfcc f) ∧ f.BuiltFor be ∧ MfccReady f (s.arg 0) (s.arg 1) (s.arg 2) s.dmem :=
  ⟨.complex, mfccState smallMfcc, smallMfcc, smallMfcc_ready⟩

/-- A `REAL` build: the set-up of 95_test_vectors.md V9. -/
theorem witness_MfccCompletes_real :
    ∃ (s : State) (f : MfccInstance), s.slotAt 4 = some (.mfcc f) ∧ f.BuiltFor .real ∧ MfccReady f (s.arg 0) (s.arg 1) (s.arg 2) s.dmem :=
  ⟨rampState, rampMfcc, by decide +kernel, ⟨by decide, rfl⟩, mfcc_ready_of (by decide +kernel) (by decide +kernel) (by decide +kernel)⟩

theorem witness_MfccCompletesOnlyWhenReady :
    ∃ (s t : State) (f : MfccInstance), s.slotAt 4 = some (.mfcc f) ∧ f.BuiltFor .complex ∧ exec (.mfcc 4) s = .next t :=
  ⟨mfccState smallMfcc, _, smallMfcc, smallMfcc_ready.1, smallMfcc_ready.2.1, smallMfcc_answers.choose_spec⟩

/-- The same instance without filters. -/
def filterlessMfcc : MfccInstance := { smallMfcc with nbMelFilters := 0 }

theorem witness_MfccWithoutFiltersWritesZeros :
    ∃ (s : State) (f : MfccInstance), s.slotAt 4 = some (.mfcc f) ∧ f.BuiltFor .complex ∧ MfccReady f (s.arg 0) (s.arg 1) (s.arg 2) s.dmem ∧
      f.nbMelFilters = 0 :=
  ⟨mfccState filterlessMfcc, filterlessMfcc, by decide +kernel, ⟨by decide, rfl⟩,
    mfcc_ready_of (by decide +kernel) (by decide +kernel) (by decide +kernel), rfl⟩

/-- The same buffer contents elsewhere, under another slot. -/
def smallTransformMoved : State :=
  withSlot 0 (.cfft (makeCfft .radix2 2)) 1 0 0 (place 1 [0x3C00, 0x4000, 0x4200, 0xBC00] [])

theorem witness_ComplexTransformDependsOnlyOnItsBuffer :
    ∃ (s s' t : State) (c : ComplexInstance), s.slotAt 7 = some (.cfft c) ∧ s'.slotAt 0 = some (.cfft c) ∧ c.tag = .radix2 ∧ c.Wf ∧
      inRange (complexBuffer c (s'.arg 0)) = true ∧
      (∀ i < 2 * c.fftLen, elementAt s'.dmem (s'.arg 0 + i) = elementAt s.dmem (s.arg 0 + i)) ∧
      exec (transformCommand .radix2 7 true true) s = .next t :=
  ⟨smallTransform, smallTransformMoved, _, makeCfft .radix2 2, smallTransform_ready.1, by decide +kernel, rfl,
    smallTransform_ready.2.2.1, by decide +kernel, by decide +kernel, (smallTransform_answers true true).choose_spec⟩

/-- The second memory holds a value at the imaginary part of bin 0, the first does not; and an unwritten spectrum. -/
theorem witness_RfftInverseIgnoresTheImaginaryEnds :
    (∃ (s : State) (r : RealInstance) (t : State), s.slotAt 3 = some (.rfft r) ∧ r.Wf ∧ exec (.rfft 3 true) s = .next t ∧
      ∃ m, m ≠ s.dmem ∧ ∀ a, inBuffer (spectrumBuffer r (s.arg 0)) a = true → a ≠ s.arg 0 + 1 →
        a ≠ s.arg 0 + r.fftLenRFFT + 1 → elementAt m a = elementAt s.dmem a) ∧
    ∃ a, inBuffer (spectrumBuffer (makeRfft 32) (realInverse.arg 0)) a = true ∧ a ≠ realInverse.arg 0 + 1 ∧
      a ≠ realInverse.arg 0 + (makeRfft 32).fftLenRFFT + 1 ∧ written (realInverse.withDmem []).dmem a = false := by
  refine ⟨⟨realInverse, makeRfft 32, _, realInverse_ready.1, realInverse_ready.2.1, realInverse_answers.choose_spec,
    setElement realInverse.dmem (realInverse.arg 0 + 1) 5#16, by decide +kernel, fun a _ h1 _ => ?_⟩,
    65504, by decide +kernel⟩
  exact elementAt_setElement_other _ _ h1

theorem witness_MfccOutputsDependOnlyOnInstanceInputAndTables :
    ∃ (s s' t t' : State) (f : MfccInstance), s.slotAt 4 = some (.mfcc f) ∧ s'.slotAt 4 = some (.mfcc f) ∧ f.BuiltFor .complex ∧
      (∀ i < f.fftLen, elementAt s'.dmem (s'.arg 0 + i) = elementAt s.dmem (s.arg 0 + i)) ∧
      (∀ b ∈ mfccTables f (filterOffset f s.dmem f.nbMelFilters), sameIn b s.dmem s'.dmem) ∧
      exec (.mfcc 4) s = .next t ∧ exec (.mfcc 4) s' = .next t' :=
  ⟨mfccState smallMfcc, mfccState smallMfcc, _, _, smallMfcc, smallMfcc_ready.1, smallMfcc_ready.1, smallMfcc_ready.2.1,
    fun _ _ => rfl, fun _ _ _ _ => rfl, smallMfcc_answers.choose_spec, smallMfcc_answers.choose_spec⟩

theorem witness_BitReversalReadsTheBitsBackwards : 0 < 2 ^ 0 ∧ 4095 < 2 ^ 12 ∧ 0 < 12 ∧ 11 < 12 := by decide
theorem witness_NaturalOrderIsTheReversalOfTheOutput :
    ∃ (s t t' : State) (c : ComplexInstance), s.slotAt 7 = some (.cfft c) ∧ c.tag = .radix2 ∧ c.Wf ∧ c.fftLen = 2 ^ 1 ∧
      exec (transformCommand .radix2 7 false false) s = .next t ∧ exec (transformCommand .radix2 7 false true) s = .next t' :=
  ⟨smallTransform, _, _, makeCfft .radix2 2, smallTransform_ready.1, rfl, smallTransform_ready.2.2.1, rfl,
    (smallTransform_answers false false).choose_spec, (smallTransform_answers false true).choose_spec⟩

/-- Whether a sequence of operations on data memory answers. -/
def answers (r : Except Fault Memory) : Bool :=
  match r with
  | .ok _ => true
  | .error _ => false

theorem exists_ok {r : Except Fault Memory} (h : answers r = true) : ∃ m, r = .ok m := by
  cases r with
  | ok m => exact ⟨m, rfl⟩
  | error e => cases h

theorem ramp4_filled : Filled ramp4 0x10 (2 * (makeCfft .general 4).fftLen) :=
  (filled_iff _ _ _).mpr ⟨by decide +kernel, by decide +kernel⟩

theorem witness_ReorderingTwiceRestoresTheMemory :
    ∃ (c : ComplexInstance) (m m' m'' : Memory), c.Wf ∧ Memory.wf m = true ∧ bitReverse c 0x10 m = .ok m' ∧ bitReverse c 0x10 m' = .ok m'' := by
  have hc : (makeCfft .general 4).Wf := ⟨by decide, rfl⟩
  obtain ⟨m', h⟩ := bitReverse_completes hc ramp4_filled
  obtain ⟨m'', h'⟩ := bitReverse_completes hc (ramp4_filled.of_within (bitReverse_within hc h))
  exact ⟨_, _, m', m'', hc, by decide +kernel, h, h'⟩
theorem witness_ScalingMultipliesEveryElement : ∃ m', scale (makeCfft .general 4) 0x10 ramp4 = .ok m' :=
  exists_ok (by decide +kernel)
/-- The composition of stages at an even and an odd exponent, and slots that hold instances of all three tags. -/
theorem witness_GeneralAndRadix4AreBitIdentical :
    ((makeCfft .radix2 4096).fftLen = 2 ^ 12 ∧ (makeCfft .radix2 4096).tag = .radix2) ∧
    ((makeCfft .general 2).fftLen = 2 ^ 1 ∧ (makeCfft .general 2).tag ≠ .radix2) ∧
    ∃ s : State, s.slotAt 0 = some (.cfft (makeCfft .general 2)) ∧ s.slotAt 1 = some (.cfft (makeCfft .radix4 2)) ∧
      s.slotAt 2 = some (.cfft (makeCfft .radix2 2)) :=
  ⟨by decide, by decide, ((State.reset.setSlot 0 (.cfft (makeCfft .general 2))).setSlot 1 (.cfft (makeCfft .radix4 2))).setSlot 2
    (.cfft (makeCfft .radix2 2)), by decide +kernel⟩
theorem witness_ButterfliesOfAStageMayBeReordered :
    Memory.wf ramp4 = true ∧ List.Perm [(0, 1), (0, 0)] (stagePlaces (4 / 4) (4 / 2)) ∧
    List.Perm [(0, 0)] (stagePlaces (4 / 4) (4 / 4)) ∧
    (∃ m', stage2 (makeCfft .general 4) 0x10 4 true ramp4 = .ok m') ∧
    ∃ m', stage4 (makeCfft .general 4) 0x10 4 true ramp4 = .ok m' :=
  ⟨by decide +kernel, by decide +kernel, by decide +kernel, exists_ok (by decide +kernel), exists_ok (by decide +kernel)⟩

/-- The last place of the smallest and of the largest block size that the buffer above takes, of either radix. -/
theorem witness_ButterfliesOfAStageMayBeReordered_values :
    (makeCfft .general 4).Wf ∧
    (1 < (makeCfft .general 4).fftLen / 2 ^ 1 ∧ 0 < 2 ^ 1 / 2 ∧
      ∃ m', stage2 (makeCfft .general 4) 0x10 (2 ^ 1) false ramp4 = .ok m') ∧
    (2 ^ 2 ≤ (makeCfft .general 4).fftLen ∧ 0 < (makeCfft .general 4).fftLen / 2 ^ 2 ∧ 1 < 2 ^ 2 / 2 ∧
      ∃ m', stage2 (makeCfft .general 4) 0x10 (2 ^ 2) true ramp4 = .ok m') ∧
    0 < 2 ^ 2 / 4 ∧ ∃ m', stage4 (makeCfft .general 4) 0x10 (2 ^ 2) false ramp4 = .ok m' :=
  ⟨⟨by decide, rfl⟩, ⟨by decide, by decide, exists_ok (by decide +kernel)⟩,
    ⟨by decide, by decide, by decide, exists_ok (by decide +kernel)⟩, by decide, exists_ok (by decide +kernel)⟩

/-- The impulse of length 8 at the end of data memory. -/
def impulseState : State := withSlot 0 (.cfft (makeCfft .general 8)) 65520 0 0 (place 65520 (impulse 16) [])

theorem impulseState_zeros :
    ∀ i < 8, 0 < i → complexIm (impulseState.arg 0) i < Config.dmemWords ∧
      elementAt impulseState.dmem (complexRe (impulseState.arg 0) i) = some zeroH ∧
      elementAt impulseState.dmem (complexIm (impulseState.arg 0) i) = some zeroH := by decide +kernel

theorem witness_ComplexImpulseHasAConstantSpectrum :
    ∃ (s : State) (c : ComplexInstance), s.slotAt 0 = some (.cfft c) ∧ c.tag = .general ∧ c.Wf ∧
      cget s.dmem (s.arg 0) 0 = .ok ⟨oneH, zeroH⟩ ∧ inRange (complexBuffer c (s.arg 0)) = true ∧
      ∀ i, 0 < i → i < c.fftLen → cget s.dmem (s.arg 0) i = .ok ⟨zeroH, zeroH⟩ :=
  ⟨impulseState, makeCfft .general 8, by decide +kernel, rfl, ⟨by decide, rfl⟩,
    (cget_ok_iff _ _ _ _).mpr (by decide +kernel), by decide +kernel,
    fun i h1 h2 => (cget_ok_iff _ _ _ _).mpr (impulseState_zeros i h2 h1)⟩

theorem realForward_zeros :
    ∀ i < 32, 0 < i → elementAt realForward.dmem (realForward.arg 0 + i) = some zeroH := by decide +kernel

theorem witness_RealImpulseHasAConstantSpectrum :
    ∃ (s : State) (r : RealInstance), s.slotAt 3 = some (.rfft r) ∧ r.Wf ∧ inRange (timeBuffer r (s.arg 0)) = true ∧
      inRange (spectrumBuffer r (s.arg 1)) = true ∧
      overlap (timeBuffer r (s.arg 0)) (spectrumBuffer r (s.arg 1)) = false ∧ elementAt s.dmem (s.arg 0) = some oneH ∧
      ∀ i, 0 < i → i < r.fftLenRFFT → elementAt s.dmem (s.arg 0 + i) = some zeroH :=
  ⟨realForward, makeRfft 32, by decide +kernel, ⟨by decide, rfl⟩, by decide +kernel, by decide +kernel, by decide +kernel,
    by decide +kernel, fun i h1 h2 => realForward_zeros i h2 h1⟩

/-- A magnitude step in place, and one on a spectrum that begins where the magnitudes end. -/
theorem witness_MagnitudesAreThoseOfTheGivenSpectrum :
    (∃ m', magnitudeStep .magnitude smallMfcc 0x10 0x10 ramp4 = .ok m') ∧
    (0x0E + (smallMfcc.fftLen / 2 + 1) ≤ 0x10 ∧ ∃ m', magnitudeStep .power smallMfcc 0x10 0x0E ramp4 = .ok m') :=
  ⟨exists_ok (by decide +kernel), by decide, exists_ok (by decide +kernel)⟩
theorem witness_LogarithmHasItsFloor : num.hLt 0x03FF#16 0x0400#16 = true ∧ num.hIsNaN 0xFE00#16 = true := by
  decide +kernel
theorem witness_TwiddleQuarterTurn : 3071 < 3072 := by decide
theorem witness_TwiddleIndicesLieInTheRom :
    ((makeCfft .radix4 4096).Wf ∧ 2 ^ 12 ≤ (makeCfft .radix4 4096).fftLen ∧ 2047 < 2 ^ 12 / 2 ∧ 1023 < 2 ^ 12 / 4) ∧
    (makeRfft 4096).Wf ∧ 2047 < (makeRfft 4096).fftLenRFFT / 2 :=
  ⟨⟨⟨by decide, rfl⟩, by decide, by decide, by decide⟩, ⟨by decide, rfl⟩, by decide⟩

/-- Below, at and above the middle beyond the largest finite half-precision value (65520 in units of 2^-24). -/
theorem witness_RoundingIsToNearestEven :
    0x7BFF < infinityPattern formatH ∧ roundMagnitude formatH (65520 * 2 ^ 24 - 1) 0 = 0x7BFF ∧
      roundMagnitude formatH (65520 * 2 ^ 24) 0 = infinityPattern formatH := by decide +kernel
/-- The largest finite patterns and the zeros of either sign are finite; the patterns just above are not. -/
theorem witness_RoundingIsToNearestEven_operations :
    isFinite formatH (0xFBFF#16).toNat = true ∧ isFinite formatH (0x8000#16).toNat = true ∧
    isFinite formatA (0xFF7FFFFF#32).toNat = true ∧ isFinite formatA (0x80000000#32).toNat = true ∧
    isFinite formatH 0x7C00 = false ∧ isFinite formatA 0x7F800000 = false := by decide +kernel
theorem witness_ProducedNaNsAreCanonical :
    halfIsNaN 0x7D01#16 = true ∧ halfIsNaN (num.hAdd 0x7C00#16 0xFC00#16) = true ∧
    isNaN formatA 0x7F800001 = true ∧ isNaN formatA (num.aSqrt 0xBF800000#32).toNat = true ∧
    halfIsNaN (num.hOfA 0xFFC00000#32) = true ∧ isNaN formatA (num.aOfH 0xFE00#16).toNat = true := by decide +kernel
theorem witness_ProductsAndSumsWithOneAndZero :
    (halfIsNaN 0x7BFF#16 = false ∧ isInfinite formatH 0x7BFF = false) ∧
    (halfIsNaN 0xFC00#16 = false ∧ isInfinite formatH 0xFC00 = true) := by decide +kernel
theorem witness_WideningIsExact : halfIsNaN 0x0001#16 = false ∧ isInfinite formatH 0x0001 = false := by decide +kernel
theorem witness_SquareRootIsCorrectlyRounded :
    signOf formatA 0x7F7FFFFF = false ∧ isZero formatA 0x7F7FFFFF = false ∧ 0x7F7FFFFF < infinityPattern formatA ∧
      (signOf formatA 0x00000001 = false ∧ isZero formatA 0x00000001 = false) := by decide +kernel
/-- The smallest and the largest positive finite accumulator value. -/
theorem witness_FixedPointLogarithmIsClose :
    (0 < 1 ∧ 1 < 2 ^ 277 ∧ 2 ^ 277 - 1 < 2 ^ 277) ∧
    (0 < (0x00000001#32).toNat ∧ (0x00000001#32).toNat < infinityPattern formatA) ∧
    (0 < (0x7F7FFFFF#32).toNat ∧ (0x7F7FFFFF#32).toNat < infinityPattern formatA) ∧
    isFinite formatA (0xFF7FFFFF#32).toNat = true := by decide +kernel
/-- The smallest and the largest positive finite half. -/
theorem witness_LogarithmIsCorrectlyRounded :
    (0 < (0x0001#16).toNat ∧ (0x0001#16).toNat < infinityPattern formatH) ∧
    (0 < (0x7BFF#16).toNat ∧ (0x7BFF#16).toNat < infinityPattern formatH) ∧
    isFinite formatA (0xFF7FFFFF#32).toNat = true := by decide +kernel

theorem witness_AssemblerLinesAreTheirTransactions :
    (withPending [.regWrite 0x3C 4 5#32]).pending = [asmTransaction (.seta 7 5#32)] ∧
    (withPending [commandWrite 0x00000239#32]).pending = [asmTransaction (.command (.cfft 2 true true))] ∧
    (Instr.cfft 2 true true).wellFormed = true ∧ (withPending [.regRead 0x04 4]).pending = [asmTransaction .rdst] ∧
    (withPending [.dataWrite 131070 2 7#16]).pending = [asmTransaction (.hwr 65535 7#16)] ∧
    (withPending [.dataRead 131070 2]).pending = [asmTransaction (.hrd 65535)] := by decide +kernel

end Sys2Proof.Tests
end

section
/-! The reset state, and the lengths and instances that an initialisation command accepts and makes. -/

namespace Sys2Proof.Machine

/-! ### Reset (10_state.md R39) -/

@[simp] theorem reset_args_get (i : Fin 8) : State.reset.args[i] = 0#32 := by
  simp [State.reset]

theorem slotAt_reset_eq_some_iff (k : BitVec 8) (r : Slot) :
    State.reset.slotAt k = some r ↔ k.toNat < Config.nInst ∧ r = .invalid := by
  simp only [State.slotAt, State.reset, Vector.getElem?_eq_some_iff, Vector.getElem_replicate, exists_prop,
    eq_comm (a := Slot.invalid)]

@[simp] theorem elementAt_reset (a : Nat) : elementAt State.reset.dmem a = none := rfl

/-- Settles O14, one lemma per piece of state. -/
theorem resetGivesEveryPieceItsResetValue : Obligations.ResetGivesEveryPieceItsResetValue := by
  refine ⟨reset_args_get, rfl, fun k hk => (slotAt_reset_eq_some_iff k _).mpr ⟨hk, rfl⟩, elementAt_reset, ?_⟩
  intro s rest hp
  simp only [step, hp, perform, resetBlock, takeTransaction_pending]

/-- Settles O15: memory is empty, `STATUS` is 0, and an `INVALID` slot is well-formed. -/
theorem resetSatisfiesTheInvariant : Obligations.ResetSatisfiesTheInvariant := by
  refine ⟨Memory.wf_nil, Or.inl rfl, fun k r h => ?_⟩
  obtain ⟨-, rfl⟩ := (slotAt_reset_eq_some_iff k r).mp h
  trivial

/-! ### Supported lengths -/

theorem lengthSupported_two_pow_iff (l v : Nat) :
    lengthSupported (2 ^ l) v = true ↔ ∃ m, l ≤ m ∧ m ≤ 12 ∧ v = 2 ^ m := by
  have hle : ∀ a b, 2 ^ a ≤ 2 ^ b ↔ a ≤ b := fun a b => Nat.pow_le_pow_iff_right (by decide)
  rw [lengthSupported_iff, isPow2_iff, show Config.nmax = 2 ^ 12 from rfl]
  constructor
  · rintro ⟨⟨m, rfl⟩, hl, hu⟩
    exact ⟨m, (hle l m).mp hl, (hle m 12).mp hu, rfl⟩
  · rintro ⟨m, hl, hu, rfl⟩
    exact ⟨⟨m, rfl⟩, (hle l m).mpr hl, (hle m 12).mpr hu⟩

/-- `CFFT_LENGTHS` is the powers of two from 2 to `NMAX` (45_complex_fft_engine.md R203). -/
theorem cfftSupported_iff (v : Nat) : cfftSupported v = true ↔ v ∈ Config.cfftLengths := by
  refine (lengthSupported_two_pow_iff 1 v).trans ⟨?_, exists_log_of_mem_cfftLengths⟩
  rintro ⟨m, hl, hu, rfl⟩
  interval_cases m <;> decide

/-- `RFFT_LENGTHS` is the powers of two from 32 to `NMAX` (46_real_fft_adapter.md R232). -/
theorem rfftSupported_iff (v : Nat) : rfftSupported v = true ↔ v ∈ Config.rfftLengths := by
  refine (lengthSupported_two_pow_iff 5 v).trans ⟨?_, fun h => RealInstance.Wf.exists_log (r := makeRfft v) ⟨h, rfl⟩⟩
  rintro ⟨m, hl, hu, rfl⟩
  interval_cases m <;> decide

theorem mfccSupported_iff (be : MfccBackend) (v : Nat) : mfccSupported be v = true ↔ v ∈ backendLengths be := by
  cases be with
  | real => exact rfftSupported_iff v
  | complex => exact cfftSupported_iff v

/-! ### What an initialisation command makes -/

theorem makeCfftSlot_wf {tag : Tag} {n : Nat} {r : Slot} (h : makeCfftSlot tag n = some r) : r.Wf := by
  obtain ⟨hn, hr⟩ := Option.ite_none_right_eq_some.mp h
  cases hr
  exact ⟨(cfftSupported_iff n).mp hn, rfl⟩

theorem makeRfftSlot_wf {n : Nat} {r : Slot} (h : makeRfftSlot n = some r) : r.Wf := by
  obtain ⟨hn, hr⟩ := Option.ite_none_right_eq_some.mp h
  cases hr
  exact ⟨(rfftSupported_iff n).mp hn, rfl⟩

theorem makeMfccSlot_wf {s : State} {r : Slot} (h : makeMfccSlot Config.mfccBackend s = some r) : r.Wf := by
  obtain ⟨hn, hr⟩ := Option.ite_none_right_eq_some.mp h
  cases hr
  exact ⟨⟨(mfccSupported_iff _ _).mp hn, rfl⟩, arg_lt s 1, arg_lt s 2, arg_lt s 3, arg_lt s 4, arg_lt s 5, arg_lt s 6,
    arg_lt s 7⟩

/-- What an initialisation command makes of the argument registers, nothing where the length is unsupported; tied to
`exec` by `exec_of_isInit`. -/
def madeSlot (i : Instr) (s : State) : Option Slot :=
  match i with
  | .cfftInit _ => makeCfftSlot .general (lengthArg s)
  | .cfftR2Init _ => makeCfftSlot .radix2 (lengthArg s)
  | .cfftR4Init _ => makeCfftSlot .radix4 (lengthArg s)
  | .rfftInit _ => makeRfftSlot (lengthArg s)
  | .mfccInit _ => makeMfccSlot Config.mfccBackend s
  | .cfft _ _ _ | .cfftR2 _ _ _ | .cfftR4 _ _ _ | .rfft _ _ | .mfcc _ => none

theorem exec_of_isInit {i : Instr} (s : State) (h : i.isInit = true) :
    exec i s = finishInit s i.slot (madeSlot i s) := by
  cases i with
  | cfftInit | cfftR2Init | cfftR4Init | rfftInit | mfccInit => rfl
  | cfft | cfftR2 | cfftR4 | rfft | mfcc => cases h

theorem madeSlot_wf {i : Instr} {s : State} {r : Slot} (h : madeSlot i s = some r) : r.Wf := by
  cases i with
  | cfftInit | cfftR2Init | cfftR4Init => exact makeCfftSlot_wf h
  | rfftInit => exact makeRfftSlot_wf h
  | mfccInit => exact makeMfccSlot_wf h
  | cfft | cfftR2 | cfftR4 | rfft | mfcc => cases h

end Sys2Proof.Machine
end

section
/-! What a step can do, said once as an inversion. -/

namespace Sys2Proof.Machine

/-- The most that a transaction performed at s can do when it answers, by what it changes; `performed_of_perform` ties
it to `perform`. -/
inductive Performed (s : State) : HostTxn → State → Prop
  | reset : Performed s .reset (resetBlock s)
  | command {w : Word} {i : Instr} {t : State} (hd : decode w = .ok i) (he : exec i s = .next t) :
      Performed s (commandWrite w) t
  | argument (j : Fin 8) (v : Word) : Performed s (.regWrite (0x20 + 4 * j.val) 4 v) (s.setArg j v)
  | store {a : Nat} (v : Half) (ha : a < Config.dmemWords) :
      Performed s (.dataWrite (2 * a) 2 v) (s.withDmem (setElement s.dmem a v))
  /-- A read, or a write that is discarded. -/
  | respond (x : HostTxn) (r : Response) : Performed s x { s with response := r }

theorem registerAccessOk_iff (o width : Nat) : registerAccessOk o width = true ↔ width = 4 ∧ o % 4 = 0 :=
  decide_eq_true_iff

theorem dataAccessOk_iff (o width : Nat) : dataAccessOk o width = true ↔ width = 2 ∧ o % 2 = 0 :=
  decide_eq_true_iff

theorem performed_regWrite {s t : State} {o : Nat} {v : Word} (h4 : o % 4 = 0) (h : writeRegister s o v = .next t) :
    Performed s (.regWrite o 4 v) t := by
  obtain ⟨rfl, i, hd, he⟩ | ⟨j, hj, rfl⟩ | rfl := writeRegister_next_cases h
  · exact .command hd he
  · rw [(argAtOffset_eq_some h4).mp hj]
    exact .argument j v
  · exact .respond _ _

theorem performed_dataWrite {s t : State} {a : Nat} {v : Half} (h : hostWrite s a v = .next t) :
    Performed s (.dataWrite (2 * a) 2 v) t := by
  obtain ⟨m, hm, rfl⟩ := (commit_next_iff _ _ _).mp h
  obtain ⟨ha, rfl⟩ := (memWrite_ok_iff _ _ _ _).mp hm
  exact .store v ha

theorem hostRead_next {s t : State} {a : Nat} (h : hostRead s a = .next t) : ∃ r, t = { s with response := r } := by
  unfold hostRead at h
  split at h
  · cases h
    exact ⟨_, rfl⟩
  · cases h

theorem ite_fault_eq_next_iff {p : Prop} [Decidable p] {x : Result} {e : Fault} {t : State} :
    (if p then x else .fault e) = .next t ↔ p ∧ x = .next t := by
  split <;> simp [*]

/-- Everything a transaction can do when it answers. -/
theorem performed_of_perform {x : HostTxn} {s t : State} (h : perform x s = .next t) : Performed s x t := by
  cases x with
  | regRead o width =>
    obtain ⟨-, h⟩ := ite_fault_eq_next_iff.mp h
    cases h
    exact .respond _ _
  | regWrite o width v =>
    obtain ⟨hok, hw⟩ := ite_fault_eq_next_iff.mp h
    obtain ⟨rfl, h4⟩ := (registerAccessOk_iff _ _).mp hok
    exact performed_regWrite h4 hw
  | dataRead o width =>
    obtain ⟨-, h⟩ := ite_fault_eq_next_iff.mp h
    obtain ⟨r, rfl⟩ := hostRead_next h
    exact .respond _ r
  | dataWrite o width v =>
    obtain ⟨hok, hw⟩ := ite_fault_eq_next_iff.mp h
    obtain ⟨rfl, h2⟩ := (dataAccessOk_iff _ _).mp hok
    obtain ⟨a, rfl⟩ := Nat.dvd_of_mod_eq_zero h2
    rw [Nat.mul_div_cancel_left a two_pos] at hw
    exact performed_dataWrite hw
  | reset =>
    cases h
    exact .reset

/-- Everything a step can do when it answers. -/
theorem step_next_cases {s t : State} (h : step s = .next t) :
    (s.pending = [] ∧ t = s) ∨ ∃ x rest, s.pending = x :: rest ∧ Performed (takeTransaction s rest) x t := by
  unfold step at h
  split at h
  · cases h
    exact Or.inl ⟨‹_›, rfl⟩
  · exact Or.inr ⟨_, _, ‹_›, performed_of_perform h⟩

end Sys2Proof.Machine
end

section
/-! The invariant of the machine: every operation that a step consists of keeps it. -/

namespace Sys2Proof.Machine

variable {s t : State}

theorem State.Inv.withDmem {m : Memory} (h : s.Inv) (hm : Memory.wf m = true) : (s.withDmem m).Inv :=
  ⟨hm, h.2⟩

theorem State.Inv.setSlot {k : BitVec 8} {r : Slot} (h : s.Inv) (hk : k.toNat < Config.nInst) (hr : r.Wf) :
    (s.setSlot k r).Inv := by
  obtain ⟨hm, hst, hsl⟩ := h
  refine ⟨hm, hst, fun j q hj => ?_⟩
  by_cases e : j = k
  · subst e
    rw [slotAt_setSlot_same _ _ _ hk] at hj
    cases hj
    exact hr
  · rw [slotAt_setSlot_other _ _ _ e] at hj
    exact hsl j q hj

theorem State.Inv.setStatus {v : Word} (h : s.Inv) (hv : v = statusSuccess ∨ v = statusArgumentError) :
    (s.setStatus v).Inv := by
  obtain ⟨hm, -, hsl⟩ := h
  exact ⟨hm, hv, hsl⟩

/-- `MFCC` keeps the canonical form of data memory. -/
theorem mfccRun_keeps {be : MfccBackend} {sp : MfccSpectrum} {f : MfccInstance} {inp out scr : Nat} {m m' : Memory}
    (hb : f.BuiltFor be) (h : mfccRun sp f inp out scr m = .ok m') : Within (fun _ => True) m m' :=
  (mfccRun_within hb h).weaken fun _ _ => trivial

/-- An execute command only replaces data memory, by one that its writes have kept canonical. -/
theorem exec_execute_within {i : Instr} (hi : i.isInit = false) (hinv : s.Inv) (h : exec i s = .next t) :
    ∃ m, t = s.withDmem m ∧ Within (fun _ => True) s.dmem m := by
  cases i with
  | cfftInit | cfftR2Init | cfftR4Init | rfftInit | mfccInit => cases hi
  | cfft | cfftR2 | cfftR4 =>
    obtain ⟨c, m, -, -, hm, rfl⟩ := complexTransform_next h
    exact ⟨m, rfl, cfftCore_keeps hm⟩
  | rfft =>
    obtain ⟨r, m, -, hm, rfl⟩ := execRfft_next h
    exact ⟨m, rfl, rfftRun_keeps hm⟩
  | mfcc =>
    obtain ⟨f, m, hf, hm, rfl⟩ := execMfcc_next h
    obtain ⟨-, -, hslots⟩ := hinv
    obtain ⟨hb, -⟩ : f.Wf := hslots _ _ hf
    exact ⟨m, rfl, mfccRun_keeps hb hm⟩

theorem exec_keeps_inv {i : Instr} (hinv : s.Inv) (h : exec i s = .next t) : t.Inv := by
  cases hi : i.isInit with
  | true =>
    rw [exec_of_isInit s hi] at h
    obtain ⟨hk, ⟨r, hr, rfl⟩ | ⟨-, rfl⟩⟩ := (finishInit_next_iff _ _ _ _).mp h
    · exact (hinv.setSlot hk (madeSlot_wf hr)).setStatus (Or.inl rfl)
    · exact (hinv.setSlot hk (r := .invalid) trivial).setStatus (Or.inr rfl)
  | false =>
    obtain ⟨m, rfl, hw⟩ := exec_execute_within hi hinv h
    exact hinv.withDmem (hw.keeps hinv.1)

/-- A transaction keeps the invariant: a reset starts it afresh, a command and a stored element keep its parts, and the
others touch nothing that it speaks of. -/
theorem Performed.keeps_inv {x : HostTxn} (h : Performed s x t) (hinv : s.Inv) : t.Inv := by
  cases h with
  | reset => exact resetSatisfiesTheInvariant
  | command hd he => exact exec_keeps_inv hinv he
  | argument j v => exact hinv
  | store v ha => exact hinv.withDmem (Memory.wf_setElement v ha hinv.1)
  | respond _ r => exact hinv

/-- Settles O16, by cases on what the step performed. -/
theorem stepKeepsTheInvariant : Obligations.StepKeepsTheInvariant := by
  intro s t hinv h
  obtain ⟨-, rfl⟩ | ⟨x, rest, -, hp⟩ := step_next_cases h
  · exact hinv
  · exact hp.keeps_inv hinv

end Sys2Proof.Machine
end

section
/-! Which argument registers a command looks at (30_encoding.md R94): a command commutes with a change of the others. -/

namespace Sys2Proof.Machine

section
variable (s : State) (a : Vector Word 8)

@[simp] theorem withArgs_dmem : (s.withArgs a).dmem = s.dmem := rfl
@[simp] theorem slotAt_withArgs (k : BitVec 8) : (s.withArgs a).slotAt k = s.slotAt k := rfl

theorem arg_withArgs {j : Fin 8} (h : a[j] = s.args[j]) : (s.withArgs a).arg j = s.arg j := congrArg BitVec.toNat h

theorem commit_withArgs (x : Except Fault Memory) :
    commit (s.withArgs a) x = mapNext (fun t => t.withArgs a) (commit s x) := by
  cases x <;> rfl

theorem finishInit_withArgs (k : BitVec 8) (made : Option Slot) :
    finishInit (s.withArgs a) k made = mapNext (fun t => t.withArgs a) (finishInit s k made) := by
  unfold finishInit
  split
  · cases made <;> rfl
  · rfl

end

variable {s : State} {a : Vector Word 8}

theorem mem_argumentsRead_mfccInit (k : BitVec 8) (j : Fin 8) : j ∈ argumentsRead (.mfccInit k) := by
  fin_cases j <;> simp [argumentsRead]

theorem madeSlot_withArgs {i : Instr} (h : ∀ j ∈ argumentsRead i, a[j] = s.args[j]) :
    madeSlot i (s.withArgs a) = madeSlot i s := by
  have harg : ∀ j ∈ argumentsRead i, (s.withArgs a).arg j = s.arg j := fun j hj => arg_withArgs s a (h j hj)
  cases i with
  | cfftInit | cfftR2Init | cfftR4Init | rfftInit =>
    simp only [madeSlot, lengthArg, harg 0 List.mem_cons_self]
  | mfccInit =>
    have hall : (s.withArgs a).arg = s.arg := funext fun j => harg j (mem_argumentsRead_mfccInit _ j)
    unfold madeSlot makeMfccSlot lengthArg
    rw [hall]
  | cfft | cfftR2 | cfftR4 | rfft | mfcc => rfl

theorem complexTransform_withArgs {tag : Tag} {k : BitVec 8} {inv br : Bool} (h : (s.withArgs a).arg 0 = s.arg 0) :
    complexTransform tag k inv br (s.withArgs a) =
      mapNext (fun t => t.withArgs a) (complexTransform tag k inv br s) := by
  simp only [complexTransform, inputArg, slotAt_withArgs, withArgs_dmem, h]
  cases s.slotAt k with
  | none => rfl
  | some r =>
    dsimp only
    cases complexInstanceOf tag r with
    | error e => rfl
    | ok x => exact commit_withArgs s a _

theorem execRfft_withArgs {k : BitVec 8} {inv : Bool} (h0 : (s.withArgs a).arg 0 = s.arg 0)
    (h1 : (s.withArgs a).arg 1 = s.arg 1) :
    execRfft k inv (s.withArgs a) = mapNext (fun t => t.withArgs a) (execRfft k inv s) := by
  simp only [execRfft, inputArg, outputArg, slotAt_withArgs, withArgs_dmem, h0, h1]
  cases s.slotAt k with
  | none => rfl
  | some r =>
    dsimp only
    cases realInstanceOf r with
    | error e => rfl
    | ok x => exact commit_withArgs s a _

theorem execMfcc_withArgs {k : BitVec 8} (h0 : (s.withArgs a).arg 0 = s.arg 0) (h1 : (s.withArgs a).arg 1 = s.arg 1)
    (h2 : (s.withArgs a).arg 2 = s.arg 2) :
    execMfcc k (s.withArgs a) = mapNext (fun t => t.withArgs a) (execMfcc k s) := by
  simp only [execMfcc, inputArg, outputArg, scratchArg, slotAt_withArgs, withArgs_dmem, h0, h1, h2]
  cases s.slotAt k with
  | none => rfl
  | some r =>
    dsimp only
    cases mfccInstanceOf r with
    | error e => rfl
    | ok x => exact commit_withArgs s a _

/-- A command that reads the same values in the registers of its row does the same (30_encoding.md R94). -/
theorem exec_withArgs {i : Instr} (h : ∀ j ∈ argumentsRead i, a[j] = s.args[j]) :
    exec i (s.withArgs a) = mapNext (fun t => t.withArgs a) (exec i s) := by
  have harg : ∀ j ∈ argumentsRead i, (s.withArgs a).arg j = s.arg j := fun j hj => arg_withArgs s a (h j hj)
  cases hi : i.isInit with
  | true => rw [exec_of_isInit _ hi, exec_of_isInit _ hi, madeSlot_withArgs h, finishInit_withArgs]
  | false =>
    cases i with
    | cfftInit | cfftR2Init | cfftR4Init | rfftInit | mfccInit => cases hi
    | cfft | cfftR2 | cfftR4 => exact complexTransform_withArgs (harg 0 List.mem_cons_self)
    | rfft => exact execRfft_withArgs (harg 0 List.mem_cons_self) (harg 1 (by simp [argumentsRead]))
    | mfcc =>
      exact execMfcc_withArgs (harg 0 List.mem_cons_self) (harg 1 (by simp [argumentsRead]))
        (harg 2 (by simp [argumentsRead]))

theorem exec_args {i : Instr} {t : State} (h : exec i s = .next t) : t.args = s.args := by
  obtain ⟨-, -, ⟨r, rfl⟩ | rfl⟩ | ⟨-, m, rfl⟩ := exec_next_cases h <;> rfl

/-- Settles O18: the first half from what commands can do at all, the second command by command. -/
theorem commandsUseOnlyTheirArgumentRegisters : Obligations.CommandsUseOnlyTheirArgumentRegisters :=
  ⟨fun _ _ _ => exec_args, fun _ _ _ => exec_withArgs⟩

end Sys2Proof.Machine
end

section
/-! Which transaction changes which piece of state (10_state.md R20). -/

namespace Sys2Proof.Machine

variable {s t : State}

theorem exec_dmem_of_isInit {i : Instr} (hi : i.isInit = true) (h : exec i s = .next t) : t.dmem = s.dmem := by
  obtain ⟨-, -, ⟨r, rfl⟩ | rfl⟩ | ⟨hn, -⟩ := exec_next_cases h
  · rfl
  · rfl
  · rw [hi] at hn
    cases hn

theorem exec_status_slots_of_not_isInit {i : Instr} (hi : i.isInit = false) (h : exec i s = .next t) :
    t.status = s.status ∧ t.slots = s.slots := by
  obtain ⟨hn, -⟩ | ⟨-, m, rfl⟩ := exec_next_cases h
  · rw [hi] at hn
    cases hn
  · exact ⟨rfl, rfl⟩

theorem Performed.status_slots_cases {x : HostTxn} (h : Performed s x t) :
    (t.status = s.status ∧ t.slots = s.slots) ∨ x = .reset ∨
      ∃ w i, x = commandWrite w ∧ decode w = .ok i ∧ i.isInit = true := by
  cases h with
  | reset => exact Or.inr (Or.inl rfl)
  | @command w i _ hd he =>
    cases hi : i.isInit with
    | true => exact Or.inr (Or.inr ⟨w, i, rfl, hd, hi⟩)
    | false => exact Or.inl (exec_status_slots_of_not_isInit hi he)
  | argument | store | respond => exact Or.inl ⟨rfl, rfl⟩

theorem Performed.dmem_cases {x : HostTxn} (h : Performed s x t) :
    t.dmem = s.dmem ∨ x = .reset ∨ (∃ a v, x = .dataWrite (2 * a) 2 v ∧ a < Config.dmemWords) ∨
      ∃ w i, x = commandWrite w ∧ decode w = .ok i ∧ i.isInit = false := by
  cases h with
  | reset => exact Or.inr (Or.inl rfl)
  | @command w i _ hd he =>
    cases hi : i.isInit with
    | true => exact Or.inl (exec_dmem_of_isInit hi he)
    | false => exact Or.inr (Or.inr (Or.inr ⟨w, i, rfl, hd, hi⟩))
  | @store a v ha => exact Or.inr (Or.inr (Or.inl ⟨a, v, rfl, ha⟩))
  | argument | respond => exact Or.inl rfl

theorem Performed.args_cases {x : HostTxn} (h : Performed s x t) :
    t.args = s.args ∨ x = .reset ∨ ∃ (j : Fin 8) (v : Word), x = .regWrite (0x20 + 4 * j.val) 4 v := by
  cases h with
  | reset => exact Or.inr (Or.inl rfl)
  | command hd he => exact Or.inl (exec_args he)
  | argument j v => exact Or.inr (Or.inr ⟨j, v, rfl⟩)
  | store | respond => exact Or.inl rfl

/-- Settles O19, by cases on what the step performed. -/
theorem statusAndSlotsChangeOnlyByInitialisation : Obligations.StatusAndSlotsChangeOnlyByInitialisation := by
  intro s t h hne
  obtain ⟨-, rfl⟩ | ⟨x, rest, hp, hx⟩ := step_next_cases h
  · simp at hne
  · obtain ⟨hst, hsl⟩ | rfl | ⟨w, i, rfl, hd, hi⟩ := hx.status_slots_cases
    · exact (hne.elim (· hst) (· hsl)).elim
    · exact Or.inl ⟨rest, hp⟩
    · exact Or.inr ⟨w, i, rest, hp, hd, hi⟩

/-- Settles O20, by cases on what the step performed. -/
theorem dataMemoryChangesOnlyByWritesAndExecuteCommands :
    Obligations.DataMemoryChangesOnlyByWritesAndExecuteCommands := by
  intro s t h hne
  obtain ⟨-, rfl⟩ | ⟨x, rest, hp, hx⟩ := step_next_cases h
  · exact absurd rfl hne
  · obtain hm | rfl | ⟨a, v, rfl, ha⟩ | ⟨w, i, rfl, hd, hi⟩ := hx.dmem_cases
    · exact absurd hm hne
    · exact Or.inl ⟨rest, hp⟩
    · exact Or.inr (Or.inl ⟨a, v, rest, hp, ha⟩)
    · exact Or.inr (Or.inr ⟨w, i, rest, hp, hd, hi⟩)

/-- Settles O21, by cases on what the step performed. -/
theorem argumentRegistersChangeOnlyByRegisterWrites : Obligations.ArgumentRegistersChangeOnlyByRegisterWrites := by
  intro s t h hne
  obtain ⟨-, rfl⟩ | ⟨x, rest, hp, hx⟩ := step_next_cases h
  · exact absurd rfl hne
  · obtain ha | rfl | ⟨j, v, rfl⟩ := hx.args_cases
    · exact absurd ha hne
    · exact Or.inl ⟨rest, hp⟩
    · exact Or.inr ⟨j, v, rest, hp⟩

end Sys2Proof.Machine
end

section
/-! What one host transaction does: the order of the transactions, the data window and its byte order (20_memory.md R61 to R65, R73, R74). -/

namespace Sys2Proof.Machine

variable {s t : State}

/-! ### One transaction a step (20_memory.md R74) -/

theorem step_of_pending {x : HostTxn} {rest : List HostTxn} (h : s.pending = x :: rest) :
    step s = perform x (takeTransaction s rest) := by
  unfold step
  rw [h]

theorem exec_pending {i : Instr} (h : exec i s = .next t) : t.pending = s.pending := by
  obtain ⟨-, -, ⟨r, rfl⟩ | rfl⟩ | ⟨-, m, rfl⟩ := exec_next_cases h <;> rfl

/-- No transaction touches those that the host has still to perform. -/
theorem Performed.pending_eq {x : HostTxn} (h : Performed s x t) : t.pending = s.pending := by
  cases h with
  | command hd he => exact exec_pending he
  | reset | argument | store | respond => rfl

/-- Settles O8, by cases on what the step performed. -/
theorem stepTakesOneTransaction : Obligations.StepTakesOneTransaction := by
  refine fun s => ⟨fun x rest => step_of_pending, fun t h => ?_⟩
  obtain ⟨hnil, rfl⟩ | ⟨x, rest, hp, hx⟩ := step_next_cases h
  · exact ⟨by rw [hnil, List.tail_nil], fun _ => rfl⟩
  · refine ⟨?_, fun hnil => by rw [hnil] at hp; cases hp⟩
    rw [hx.pending_eq, takeTransaction_pending, hp, List.tail_cons]

/-! ### The data window (20_memory.md R64, R65, R73) -/

theorem memWrite_outOfRange (m : Memory) {a : Nat} (v : Half) (h : Config.dmemWords ≤ a) :
    memWrite m a v = .error .outOfRange := if_neg (Nat.not_lt.mpr h)

theorem memRead_outOfRange (m : Memory) {a : Nat} (h : Config.dmemWords ≤ a) :
    memRead m a = .error .outOfRange := if_neg (Nat.not_lt.mpr h)

theorem memRead_unwritten {m : Memory} {a : Nat} (ha : a < Config.dmemWords) (hw : written m a = false) :
    memRead m a = .error .unwrittenRead := by
  have hnone : elementAt m a = none := Option.isNone_iff_eq_none.mp (Option.isSome_eq_false_iff.mp hw)
  simp only [memRead, if_pos ha, hnone]

theorem perform_dataWrite (s : State) (a : Nat) (v : Half) : perform (.dataWrite (2 * a) 2 v) s = hostWrite s a v := by
  simp [perform, dataAccessOk]

theorem perform_dataRead (s : State) (a : Nat) : perform (.dataRead (2 * a) 2) s = hostRead s a := by
  simp [perform, dataAccessOk]

theorem hostRead_of_ok {a : Nat} {v : Half} (h : memRead s.dmem a = .ok v) :
    hostRead s a = .next { s with response := .element v } := by
  unfold hostRead
  rw [h]

theorem hostRead_of_error {a : Nat} {e : Fault} (h : memRead s.dmem a = .error e) : hostRead s a = .fault e := by
  unfold hostRead
  rw [h]

theorem step_dataWrite {rest : List HostTxn} {a : Nat} {v : Half} (hp : s.pending = .dataWrite (2 * a) 2 v :: rest)
    (ha : a < Config.dmemWords) : step s = .next ((takeTransaction s rest).withDmem (setElement s.dmem a v)) := by
  rw [step_of_pending hp, perform_dataWrite, hostWrite, takeTransaction_dmem, memWrite_completes _ v ha]
  rfl

theorem step_dataRead {rest : List HostTxn} {a : Nat} {v : Half} (hp : s.pending = .dataRead (2 * a) 2 :: rest)
    (ha : a < Config.dmemWords) (hv : elementAt s.dmem a = some v) :
    step s = .next { takeTransaction s rest with response := .element v } := by
  rw [step_of_pending hp, perform_dataRead]
  exact hostRead_of_ok ((memRead_ok_iff _ _ _).mpr ⟨ha, hv⟩)

theorem step_dataRead_of_error {rest : List HostTxn} {a : Nat} {e : Fault}
    (hp : s.pending = .dataRead (2 * a) 2 :: rest) (he : memRead s.dmem a = .error e) : step s = .fault e := by
  rw [step_of_pending hp, perform_dataRead]
  exact hostRead_of_error he

/-- Settles O11: `HostWrite` is `MemWrite`, and that is the write of one element. -/
theorem hostWriteStoresOneElement : Obligations.HostWriteStoresOneElement := by
  intro s rest a v hp
  split
  case isTrue ha =>
    rw [step_of_pending hp, perform_dataWrite, hostWrite, memWrite_outOfRange _ v ha]
    rfl
  case isFalse ha =>
    exact ⟨setElement s.dmem a v, step_dataWrite hp (Nat.not_le.mp ha), elementAt_setElement_same _ _ _,
      fun n hn => byteAt_setElement_other _ v hn⟩

/-- Settles O12: the outcomes of `MemRead` in its order, and a read of the element just written. -/
theorem hostReadReturnsTheLatestWrite : Obligations.HostReadReturnsTheLatestWrite := by
  constructor
  · intro s rest a hp
    split
    case isTrue ha => exact step_dataRead_of_error hp (memRead_outOfRange _ ha)
    case isFalse ha =>
      have ha' := Nat.not_le.mp ha
      split
      case isTrue hw => exact step_dataRead_of_error hp (memRead_unwritten ha' hw)
      case isFalse hw =>
        obtain ⟨v, hv⟩ := (written_iff _ _).mp (Bool.eq_true_of_not_eq_false hw)
        exact ⟨v, hv, step_dataRead hp ha' hv⟩
  · intro s rest a v ha hp
    exact ⟨_, _, step_dataWrite hp ha, step_dataRead rfl ha (elementAt_setElement_same _ _ _), rfl⟩

/-! ### The byte order (20_memory.md R61) -/

theorem lowerByte_eq (v : Half) : lowerByte v = v.extractLsb' 0 8 := rfl

theorem higherByte_eq (v : Half) : higherByte v = v.extractLsb' 8 8 := rfl

/-- Settles O13, from where the two bytes of an element are written. -/
theorem elementBytesAreLittleEndian : Obligations.ElementBytesAreLittleEndian := by
  intro m a v
  constructor
  · rw [byteAt_setElement, if_neg (by omega), if_pos rfl, lowerByte_eq]
  · rw [byteAt_setElement, if_pos rfl, higherByte_eq]

end Sys2Proof.Machine
end

section
/-! Buffers (20_memory.md R67), and that a transform which answers had met its preconditions (R70). -/

namespace Sys2Proof.Machine

/-! ### Overlap (20_memory.md R67) -/

/-- Settles O50: of two buffers that overlap, the higher base is a common element. -/
theorem overlapMeansACommonElement : Obligations.OverlapMeansACommonElement := by
  intro b c
  constructor
  · intro h
    obtain ⟨hb, hc, hbc, hcb⟩ := of_decide_eq_true h
    refine ⟨max b.base c.base, (inBuffer_iff b _).mpr ⟨le_max_left _ _, ?_⟩,
      (inBuffer_iff c _).mpr ⟨le_max_right _ _, ?_⟩⟩ <;> omega
  · rintro ⟨a, hb, hc⟩
    by_contra h
    exact overlap_false_disjoint (Bool.eq_false_of_not_eq_true h) ((inBuffer_iff b a).mp hb) ((inBuffer_iff c a).mp hc)

/-! ### What an answered access or loop had found written -/

theorem bufferWritten_of_filled {m : Memory} {b : Buffer} (h : Filled m b.base b.length) : bufferWritten m b :=
  fun a ha => h.2 a ((inBuffer_iff b a).mp ha)

theorem memRead_written {m : Memory} {a : Nat} {v : Half} (h : memRead m a = .ok v) : written m a = true :=
  (written_iff m a).mpr ⟨v, ((memRead_ok_iff m a v).mp h).2⟩

theorem cget_written {m : Memory} {b i a : Nat} {z : Complex16} (h : cget m b i = .ok z) (ha : ComplexAt b i a) :
    written m a = true := by
  obtain ⟨-, hre, him⟩ := (cget_ok_iff m b i z).mp h
  obtain rfl | rfl := ha
  · exact (written_iff m _).mpr ⟨_, hre⟩
  · exact (written_iff m _).mpr ⟨_, him⟩

theorem Within.written_eq {w : Nat → Prop} {m m' : Memory} (h : Within w m m') {a : Nat} (ha : ¬ w a) :
    written m' a = written m a := by
  simp only [written, h.elementAt ha]

/-- A loop that answered performed each of its iterations, after the ones before it. -/
theorem forUpTo_performed {α : Type} {n : Nat} {f : Nat → α → Except Fault α} {a c : α} (h : forUpTo n f a = .ok c)
    {i : Nat} (hi : i < n) : ∃ b d, forUpTo i f a = .ok b ∧ f i b = .ok d := by
  induction n generalizing c with
  | zero => omega
  | succ n ih =>
    obtain ⟨b, hb, hc⟩ := (bind_ok_iff _ _ _).mp h
    by_cases e : i = n
    · subst e
      exact ⟨b, c, hb, hc⟩
    · exact ih hb (by omega)

theorem splitStep_reads {split : Complex16 → Complex16 → RomEntry → Complex16} {r : RealInstance}
    {inp out k a : Nat} {m m' : Memory} (h : splitStep split r inp out k m = .ok m') (ha : ComplexAt inp k a) :
    written m a = true := by
  obtain ⟨z, hz, -⟩ := (bind_ok_iff _ _ _).mp h
  exact cget_written hz ha

/-- Bins 1 .. M-1 of the loop's input, where its output does not lie on them, had been written before it. -/
theorem splitLoop_reads {split : Complex16 → Complex16 → RomEntry → Complex16} {r : RealInstance}
    {inp out k a : Nat} {m m' : Memory} (h : splitLoop split r inp out m = .ok m') (h1 : 1 ≤ k)
    (h2 : k < r.fftLenRFFT / 2) (ha : ComplexAt inp k a) (hout : ¬ Region out r.fftLenRFFT a) :
    written m a = true := by
  obtain ⟨b, d, hb, hd⟩ := forUpTo_performed h (i := k - 1) (by omega)
  have hread : written b a = true := splitStep_reads hd (by rwa [Nat.sub_add_cancel h1])
  have hframe : Within (Region out r.fftLenRFFT) m b := forUpTo_within hb fun j hj x y hxy =>
    (splitStep_within hxy).weaken fun c hc => complexAt_region hc (by omega)
  rwa [hframe.written_eq hout] at hread

/-! ### The real transform -/

theorem rfftForward_filled {r : RealInstance} {inp out : Nat} {m m' : Memory} (hr : r.Wf)
    (h : rfftForward r inp out m = .ok m') : Filled m inp r.fftLenRFFT := by
  obtain ⟨m1, -, -, -, hcore, -⟩ := (rfftForward_ok_iff r inp out m m').mp h
  rw [hr.length_eq]
  exact ((cfftCore_ok_iff _ _ _ _ _ _).mp hcore).1

/-- An inverse transform that answered had found its whole spectrum written, but for the imaginary parts of bins 0 and M
(46_real_fft_adapter.md R239). -/
theorem rfftInverse_written {r : RealInstance} {inp out a : Nat} {m m' : Memory} (hr : r.Wf)
    (h : rfftInverse r inp out m = .ok m') (ho : overlap (spectrumBuffer r inp) (timeBuffer r out) = false)
    (ha : Region inp (r.fftLenRFFT + 2) a) (h0 : a ≠ inp + 1) (hM : a ≠ inp + r.fftLenRFFT + 1) :
    written m a = true := by
  obtain ⟨x0, xM, m1, m2, hx0, hxM, hput, hloop, -⟩ := (rfftInverse_ok_iff r inp out m m').mp h
  have hlen := hr.length_eq
  have hpos := hr.length_pos
  have hout : ¬ Region out r.fftLenRFFT a := overlap_false_disjoint ho ha
  obtain ⟨k, hk, hka⟩ : ∃ k, k ≤ r.fftLenRFFT / 2 ∧ ComplexAt inp k a := by
    obtain ⟨hlo, hhi⟩ := ha
    refine ⟨(a - inp) / 2, by omega, ?_⟩
    simp only [ComplexAt, complexRe, complexIm]
    omega
  obtain rfl | rfl | ⟨h1, h2⟩ : k = 0 ∨ k = r.fftLenRFFT / 2 ∨ (1 ≤ k ∧ k < r.fftLenRFFT / 2) := by omega
  · have hre : a = complexRe inp 0 := hka.resolve_right h0
    exact hre ▸ memRead_written hx0
  · have hre : a = complexRe inp (r.fftLenRFFT / 2) :=
      hka.resolve_right fun him => hM (him.trans (by simp only [complexIm]; omega))
    exact hre ▸ memRead_written hxM
  · have hw := splitLoop_reads hloop h1 h2 hka hout
    rwa [((cput_within hput).weaken fun c hc => complexAt_region hc (by omega)).written_eq hout] at hw

theorem ite_error_eq_ok_iff {α : Type} {p : Prop} [Decidable p] {x : Except Fault α} {e : Fault} {a : α} :
    (if p then .error e else x) = .ok a ↔ ¬ p ∧ x = .ok a := by
  split <;> simp [*]

theorem rfftRun_forward_ok_iff (r : RealInstance) (inp out : Nat) (m m' : Memory) :
    rfftRun r false inp out m = .ok m' ↔
      (inRange (timeBuffer r inp) = true ∧ inRange (spectrumBuffer r out) = true) ∧
        overlap (timeBuffer r inp) (spectrumBuffer r out) = false ∧ rfftForward r inp out m = .ok m' := by
  simp only [rfftRun, Bool.false_eq_true, reduceIte, ite_error_eq_ok_iff, not_or, Bool.not_eq_false, Bool.not_eq_true]

theorem rfftRun_inverse_ok_iff (r : RealInstance) (inp out : Nat) (m m' : Memory) :
    rfftRun r true inp out m = .ok m' ↔
      (inRange (spectrumBuffer r inp) = true ∧ inRange (timeBuffer r out) = true) ∧
        overlap (spectrumBuffer r inp) (timeBuffer r out) = false ∧ rfftInverse r inp out m = .ok m' := by
  simp only [rfftRun, reduceIte, ite_error_eq_ok_iff, not_or, Bool.not_eq_false, Bool.not_eq_true]

theorem rfftRun_forward_ready {r : RealInstance} {inp out : Nat} {m m' : Memory} (hr : r.Wf)
    (h : rfftRun r false inp out m = .ok m') : RfftForwardReady r inp out m := by
  obtain ⟨⟨hin, hout⟩, ho, hrun⟩ := (rfftRun_forward_ok_iff r inp out m m').mp h
  exact ⟨hin, hout, ho, bufferWritten_of_filled (rfftForward_filled hr hrun)⟩

theorem rfftRun_inverse_ready {r : RealInstance} {inp out : Nat} {m m' : Memory} (hr : r.Wf)
    (h : rfftRun r true inp out m = .ok m') : RfftInverseReady r inp out m := by
  obtain ⟨⟨hin, hout⟩, ho, hrun⟩ := (rfftRun_inverse_ok_iff r inp out m m').mp h
  exact ⟨hin, hout, ho, fun a ha h0 hM => rfftInverse_written hr hrun ho ((inBuffer_iff _ a).mp ha) h0 hM⟩

/-! ### The commands -/

/-- Settles O30: what each transform that answers had checked or read. -/
theorem transformsCompleteOnlyWhenReady : Obligations.TransformsCompleteOnlyWhenReady := by
  refine ⟨fun tag k inv br s t c hs htag h => ?_, fun k s t r hs hr h => ?_, fun k s t r hs hr h => ?_⟩
  · rw [exec_transformCommand inv br hs htag] at h
    obtain ⟨m, hm, -⟩ := (commit_next_iff _ _ _).mp h
    exact (cfftReady_iff _ _ _).mpr ((cfftCore_ok_iff _ _ _ _ _ _).mp hm).1
  · rw [exec_rfft false hs] at h
    obtain ⟨m, hm, -⟩ := (commit_next_iff _ _ _).mp h
    exact rfftRun_forward_ready hr hm
  · rw [exec_rfft true hs] at h
    obtain ⟨m, hm, -⟩ := (commit_next_iff _ _ _).mp h
    exact rfftRun_inverse_ready hr hm

end Sys2Proof.Machine
end

section
/-! The fields of a command word (30_encoding.md R90, R91): a word is its six fields, and a command word is the one with
these fields and no reserved bit. -/

namespace Sys2Proof

theorem append_fields (w : Word) :
    fieldRsv1 w ++ (fieldInst w ++ (fieldRsv0 w ++
      (BitVec.ofBool (fieldBitrev w) ++ (BitVec.ofBool (fieldIfft w) ++ fieldOpc w)))) = w := by
  ext n hn
  simp only [BitVec.getElem_append, fieldRsv1, fieldInst, fieldRsv0, fieldBitrev, fieldIfft, fieldOpc,
    BitVec.getElem_extractLsb', BitVec.getElem_ofBool]
  split_ifs <;> rw [← BitVec.getLsbD_eq_getElem] <;> congr 1 <;> omega

theorem append_eq_append_iff {n m : Nat} {x x' : BitVec n} {y y' : BitVec m} :
    x ++ y = x' ++ y' ↔ x = x' ∧ y = y' := by
  refine ⟨fun h => ⟨?_, ?_⟩, fun ⟨hx, hy⟩ => hx ▸ hy ▸ rfl⟩
  · simpa only [BitVec.extractLsb'_append_eq_left] using congrArg (BitVec.extractLsb' m n) h
  · simpa only [BitVec.extractLsb'_append_eq_right] using congrArg (BitVec.extractLsb' 0 m) h

theorem eq_append_iff {w : Word} {r₁ : BitVec 16} {k : BitVec 8} {r₀ : BitVec 2} {b f : Bool} {o : BitVec 4} :
    w = r₁ ++ (k ++ (r₀ ++ (BitVec.ofBool b ++ (BitVec.ofBool f ++ o)))) ↔
      fieldRsv1 w = r₁ ∧ fieldInst w = k ∧ fieldRsv0 w = r₀ ∧ fieldBitrev w = b ∧ fieldIfft w = f ∧ fieldOpc w = o := by
  nth_rewrite 1 [← append_fields w]
  rw [append_eq_append_iff]
  simp only [append_eq_append_iff, BitVec.ofBool_eq_iff_eq]

theorem eq_commandWord_iff {w : Word} {k : BitVec 8} {b f : Bool} {o : BitVec 4} :
    w = commandWord k b f o ↔
      fieldRsv1 w = 0#16 ∧ fieldInst w = k ∧ fieldRsv0 w = 0#2 ∧ fieldBitrev w = b ∧ fieldIfft w = f ∧ fieldOpc w = o :=
  eq_append_iff

theorem commandWord_inj {k k' : BitVec 8} {b b' f f' : Bool} {o o' : BitVec 4}
    (h : commandWord k b f o = commandWord k' b' f' o') : k = k' ∧ b = b' ∧ f = f' ∧ o = o' := by
  obtain ⟨-, hk, -, hb, hf, ho⟩ := eq_commandWord_iff.mp h
  obtain ⟨-, hk', -, hb', hf', ho'⟩ := eq_commandWord_iff.mp (rfl : commandWord k b f o = commandWord k b f o)
  exact ⟨hk'.symm.trans hk, hb'.symm.trans hb, hf'.symm.trans hf, ho'.symm.trans ho⟩

/-! ### A word under a mask, field by field -/

@[simp] theorem fieldRsv1_and (v w : Word) : fieldRsv1 (v &&& w) = fieldRsv1 v &&& fieldRsv1 w := BitVec.extractLsb'_and
@[simp] theorem fieldInst_and (v w : Word) : fieldInst (v &&& w) = fieldInst v &&& fieldInst w := BitVec.extractLsb'_and
@[simp] theorem fieldRsv0_and (v w : Word) : fieldRsv0 (v &&& w) = fieldRsv0 v &&& fieldRsv0 w := BitVec.extractLsb'_and
@[simp] theorem fieldOpc_and (v w : Word) : fieldOpc (v &&& w) = fieldOpc v &&& fieldOpc w := BitVec.extractLsb'_and
@[simp] theorem fieldBitrev_and (v w : Word) : fieldBitrev (v &&& w) = (fieldBitrev v && fieldBitrev w) :=
  BitVec.getLsbD_and
@[simp] theorem fieldIfft_and (v w : Word) : fieldIfft (v &&& w) = (fieldIfft v && fieldIfft w) := BitVec.getLsbD_and

end Sys2Proof
end

section
/-! The decoder and the encoder (30_encoding.md R90 to R92, R95): the commands that an opcode names, the outcomes of
decoding in the order of its checks, and that decoding and encoding undo each other. -/

namespace Sys2Proof

/-! ### The commands of an opcode (30_encoding.md R92) -/

/-- The opcode of a command's row; tied to the decoder by `opcode_slot_of_instrOfOpcode` and
`exists_instrOfOpcode_opcode`. -/
def Instr.opcode : Instr → BitVec 4
  | .cfftInit _ => 0x1#4
  | .cfftR2Init _ => 0x2#4
  | .cfftR4Init _ => 0x3#4
  | .rfftInit _ => 0x4#4
  | .mfccInit _ => 0x5#4
  | .cfft _ _ _ => 0x9#4
  | .cfftR2 _ _ _ => 0xA#4
  | .cfftR4 _ _ _ => 0xB#4
  | .rfft _ _ => 0xC#4
  | .mfcc _ => 0xD#4

theorem opcode_slot_of_instrOfOpcode {o : BitVec 4} {k : BitVec 8} {f b : Bool} {i : Instr}
    (h : instrOfOpcode o k f b = some i) : i.opcode = o ∧ i.slot = k := by
  unfold instrOfOpcode at h
  split at h <;> cases h <;> exact ⟨(BitVec.eq_of_toNat_eq ‹_›).symm, rfl⟩

/-- The opcode of a row names, with any operands, a command of that row, under the same rule for the flags. -/
theorem exists_instrOfOpcode_opcode (i : Instr) (k : BitVec 8) (f b : Bool) :
    ∃ j, instrOfOpcode i.opcode k f b = some j ∧ opcodeRow j = opcodeRow i ∧
      flagsAdmitted j f b = flagsAdmitted i f b := by
  cases i <;> exact ⟨_, rfl, rfl, rfl⟩

theorem instrOfOpcode_eq_none_iff {o : BitVec 4} {k : BitVec 8} {f b : Bool} :
    instrOfOpcode o k f b = none ↔ o ∈ [0x0#4, 0x6#4, 0x7#4, 0x8#4, 0xE#4, 0xF#4] := by
  obtain ⟨o⟩ := o
  fin_cases o <;> simp [instrOfOpcode]

theorem flagsAdmitted_eq_false_iff (i : Instr) (f b : Bool) :
    flagsAdmitted i f b = false ↔
      (i.opcode ∈ [0x1#4, 0x2#4, 0x3#4, 0x4#4, 0x5#4, 0xD#4] ∧ (f = true ∨ b = true)) ∨
        (i.opcode = 0xC#4 ∧ b = true) := by
  cases i <;> cases f <;> simp [flagsAdmitted, Instr.opcode]

theorem wellFormed_eq_false_iff (i : Instr) : i.wellFormed = false ↔ Config.nInst ≤ i.slot.toNat := by
  rw [Instr.wellFormed, decide_eq_false_iff_not, Nat.not_lt]

/-! ### The encoder against the fields -/

theorem exists_encode_eq_commandWord (i : Instr) : ∃ k b f o, encode i = commandWord k b f o := by
  cases i <;> exact ⟨_, _, _, _, rfl⟩

/-- A command's word has the fields from which the decoder names the command. -/
theorem encode_eq_commandWord_iff {i : Instr} {k : BitVec 8} {b f : Bool} {o : BitVec 4} :
    encode i = commandWord k b f o ↔ instrOfOpcode o k f b = some i ∧ flagsAdmitted i f b = true := by
  constructor
  · intro h
    cases i <;>
    · obtain ⟨rfl, rfl, rfl, rfl⟩ := commandWord_inj h
      exact ⟨rfl, rfl⟩
  · rintro ⟨hi, hf⟩
    obtain ⟨rfl, rfl⟩ := opcode_slot_of_instrOfOpcode hi
    cases i with
    | cfft | cfftR2 | cfftR4 =>
      cases hi
      rfl
    | rfft =>
      cases hi
      obtain rfl : b = false := by simpa [flagsAdmitted] using hf
      rfl
    | cfftInit | cfftR2Init | cfftR4Init | rfftInit | mfccInit | mfcc =>
      obtain ⟨rfl, rfl⟩ : f = false ∧ b = false := by simpa [flagsAdmitted] using hf
      rfl

/-! ### The outcomes of decoding (30_encoding.md R95) -/

section
variable {w : Word} {i : Instr}

theorem decode_of_reserved (hr : fieldRsv1 w ≠ 0#16 ∨ fieldRsv0 w ≠ 0#2) : decode w = .error .reservedBits :=
  if_pos hr

theorem decode_of_reservedOpcode (hr : ¬ (fieldRsv1 w ≠ 0#16 ∨ fieldRsv0 w ≠ 0#2))
    (ho : instrOfOpcode (fieldOpc w) (fieldInst w) (fieldIfft w) (fieldBitrev w) = none) :
    decode w = .error .reservedOpcode := by
  simp only [decode, if_neg hr, ho]

theorem decode_of_instrOfOpcode (hr : ¬ (fieldRsv1 w ≠ 0#16 ∨ fieldRsv0 w ≠ 0#2))
    (hi : instrOfOpcode (fieldOpc w) (fieldInst w) (fieldIfft w) (fieldBitrev w) = some i) :
    decode w =
      if flagsAdmitted i (fieldIfft w) (fieldBitrev w) = false then .error .reservedBits
      else if i.wellFormed = false then .error .badSlot
      else .ok i := by
  simp only [decode, if_neg hr, hi]

/-- A word decodes to a command when it passes every check and its fields name the command. -/
theorem decode_eq_ok_iff :
    decode w = .ok i ↔
      (fieldRsv1 w = 0#16 ∧ fieldRsv0 w = 0#2) ∧
        (instrOfOpcode (fieldOpc w) (fieldInst w) (fieldIfft w) (fieldBitrev w) = some i ∧
          flagsAdmitted i (fieldIfft w) (fieldBitrev w) = true) ∧ i.wellFormed = true := by
  by_cases hr : fieldRsv1 w ≠ 0#16 ∨ fieldRsv0 w ≠ 0#2
  · rw [decode_of_reserved hr]
    exact ⟨nofun, fun ⟨⟨h₁, h₀⟩, _⟩ => (hr.elim (· h₁) (· h₀)).elim⟩
  · have hr' : fieldRsv1 w = 0#16 ∧ fieldRsv0 w = 0#2 := by simpa [not_or] using hr
    cases hi : instrOfOpcode (fieldOpc w) (fieldInst w) (fieldIfft w) (fieldBitrev w) with
    | none => simp [decode_of_reservedOpcode hr hi]
    | some j =>
      rw [decode_of_instrOfOpcode hr hi, Option.some.injEq]
      constructor
      · intro h
        split_ifs at h with hf hw
        cases h
        exact ⟨hr', ⟨rfl, Bool.eq_true_of_not_eq_false hf⟩, Bool.eq_true_of_not_eq_false hw⟩
      · rintro ⟨-, ⟨rfl, hf⟩, hw⟩
        simp [hf, hw]

/-- Decoding and encoding undo each other: both say which fields a word has. -/
theorem decode_eq_ok_iff_encode_eq : decode w = .ok i ↔ encode i = w ∧ i.wellFormed = true := by
  rw [decode_eq_ok_iff]
  constructor
  · rintro ⟨⟨h₁, h₀⟩, hi, hwf⟩
    have hw : w = commandWord (fieldInst w) (fieldBitrev w) (fieldIfft w) (fieldOpc w) :=
      eq_commandWord_iff.mpr ⟨h₁, rfl, h₀, rfl, rfl, rfl⟩
    exact ⟨(encode_eq_commandWord_iff.mpr hi).trans hw.symm, hwf⟩
  · rintro ⟨rfl, hwf⟩
    obtain ⟨k, b, f, o, he⟩ := exists_encode_eq_commandWord i
    obtain ⟨h₁, rfl, h₀, rfl, rfl, rfl⟩ := eq_commandWord_iff.mp he
    exact ⟨⟨h₁, h₀⟩, encode_eq_commandWord_iff.mp he, hwf⟩

/-- The checks left of a word with no reserved bit and no reserved opcode, as the fields show them. -/
theorem exists_decode_eq_of_opcode (hr : ¬ (fieldRsv1 w ≠ 0#16 ∨ fieldRsv0 w ≠ 0#2))
    (ho : fieldOpc w ∉ [0x0#4, 0x6#4, 0x7#4, 0x8#4, 0xE#4, 0xF#4]) :
    ∃ i, decode w =
      if (fieldOpc w ∈ [0x1#4, 0x2#4, 0x3#4, 0x4#4, 0x5#4, 0xD#4] ∧ (fieldIfft w = true ∨ fieldBitrev w = true)) ∨
          (fieldOpc w = 0xC#4 ∧ fieldBitrev w = true) then .error .reservedBits
      else if Config.nInst ≤ (fieldInst w).toNat then .error .badSlot
      else .ok i := by
  obtain ⟨i, hi⟩ := Option.ne_none_iff_exists'.mp (mt instrOfOpcode_eq_none_iff.mp ho)
  obtain ⟨hopc, hslot⟩ := opcode_slot_of_instrOfOpcode hi
  refine ⟨i, (decode_of_instrOfOpcode hr hi).trans ?_⟩
  simp only [flagsAdmitted_eq_false_iff, hopc, wellFormed_eq_false_iff, hslot]

end

theorem decode_encode {i : Instr} (h : i.wellFormed = true) : decode (encode i) = .ok i :=
  decode_eq_ok_iff_encode_eq.mpr ⟨rfl, h⟩

/-- Settles O1: a command has the fields from which the decoder names it. -/
theorem decodeOfEncodeIsTheInstruction : Obligations.DecodeOfEncodeIsTheInstruction :=
  fun _ => decode_encode

/-- Settles O2: the checks that a decoded word passed fix every bit of it but those its command carries. -/
theorem decodedWordIsTheEncodingOfItsInstruction : Obligations.DecodedWordIsTheEncodingOfItsInstruction :=
  fun _ _ => decode_eq_ok_iff_encode_eq.mp

/-- Settles O5: each word is, by evaluation, the word of its command. -/
theorem sampleWordsDecodeToTheirCommands : Obligations.SampleWordsDecodeToTheirCommands := by
  unfold Obligations.SampleWordsDecodeToTheirCommands
  simp only [decode_eq_ok_iff_encode_eq]
  decide

end Sys2Proof
end

section
/-! The match and mask of the opcode table (30_encoding.md R92). -/

namespace Sys2Proof

/-- The bits that a row's mask looks at: the reserved bits, the opcode, and the flags that the row has no operand for. -/
theorem opcodeRow_fields (i : Instr) :
    fieldRsv1 (opcodeRow i).mask = BitVec.allOnes 16 ∧ fieldInst (opcodeRow i).mask = 0#8 ∧
      fieldRsv0 (opcodeRow i).mask = BitVec.allOnes 2 ∧ fieldOpc (opcodeRow i).mask = BitVec.allOnes 4 ∧
      (opcodeRow i).pattern = commandWord 0#8 false false i.opcode := by
  cases i <;>
  · dsimp only [opcodeRow, Instr.opcode]
    decide

theorem flagsAdmitted_iff_mask (i : Instr) (f b : Bool) :
    flagsAdmitted i f b = true ↔
      (b && fieldBitrev (opcodeRow i).mask) = false ∧ (f && fieldIfft (opcodeRow i).mask) = false := by
  cases i <;> simp [flagsAdmitted, opcodeRow, fieldBitrev, fieldIfft, and_comm]

/-- The words that a row's match and mask select. -/
theorem and_mask_eq_pattern_iff {w : Word} {i : Instr} :
    w &&& (opcodeRow i).mask = (opcodeRow i).pattern ↔
      (fieldRsv1 w = 0#16 ∧ fieldRsv0 w = 0#2) ∧ fieldOpc w = i.opcode ∧
        flagsAdmitted i (fieldIfft w) (fieldBitrev w) = true := by
  obtain ⟨h₁, hk, h₀, ho, hp⟩ := opcodeRow_fields i
  rw [hp, eq_commandWord_iff, flagsAdmitted_iff_mask]
  simp only [fieldRsv1_and, fieldInst_and, fieldRsv0_and, fieldBitrev_and, fieldIfft_and, fieldOpc_and, h₁, hk, h₀, ho,
    BitVec.and_allOnes, BitVec.and_zero, true_and]
  tauto

theorem opcodeRow_eq_of_opcode_eq {i j : Instr} (h : i.opcode = j.opcode) : opcodeRow i = opcodeRow j := by
  obtain ⟨x, hx, hxi, -⟩ := exists_instrOfOpcode_opcode i 0 false false
  obtain ⟨y, hy, hyj, -⟩ := exists_instrOfOpcode_opcode j 0 false false
  obtain rfl : x = y := Option.some.inj (hx.symm.trans (h ▸ hy))
  exact hxi.symm.trans hyj

theorem exists_decode_of_selected {w : Word} {i : Instr} (h : w &&& (opcodeRow i).mask = (opcodeRow i).pattern)
    (hk : (fieldInst w).toNat < Config.nInst) : ∃ j, decode w = .ok j ∧ opcodeRow j = opcodeRow i := by
  obtain ⟨hr, ho, hf⟩ := and_mask_eq_pattern_iff.mp h
  obtain ⟨j, hj, hrow, hflags⟩ := exists_instrOfOpcode_opcode i (fieldInst w) (fieldIfft w) (fieldBitrev w)
  rw [← ho] at hj
  obtain ⟨-, hslot⟩ := opcode_slot_of_instrOfOpcode hj
  have hwf : j.wellFormed = true := decide_eq_true (hslot ▸ hk)
  exact ⟨j, decode_eq_ok_iff.mpr ⟨hr, ⟨hj, hflags.trans hf⟩, hwf⟩, hrow⟩

theorem selected_of_decode {w : Word} {i : Instr} (h : decode w = .ok i) :
    w &&& (opcodeRow i).mask = (opcodeRow i).pattern := by
  obtain ⟨hr, ⟨hi, hf⟩, -⟩ := decode_eq_ok_iff.mp h
  obtain ⟨ho, -⟩ := opcode_slot_of_instrOfOpcode hi
  exact and_mask_eq_pattern_iff.mpr ⟨hr, ho.symm, hf⟩

/-- Settles O4, from the fields that a row selects. -/
theorem opcodeRowsSelectTheirCommands : Obligations.OpcodeRowsSelectTheirCommands := by
  refine ⟨fun _ _ => selected_of_decode, fun _ _ => exists_decode_of_selected, fun w i j hi hj => ?_⟩
  obtain ⟨-, hoi, -⟩ := and_mask_eq_pattern_iff.mp hi
  obtain ⟨-, hoj, -⟩ := and_mask_eq_pattern_iff.mp hj
  exact opcodeRow_eq_of_opcode_eq (hoi.symm.trans hoj)

end Sys2Proof
end

section
/-! Issue of a command word (30_encoding.md R95, R96), the register window (10_state.md R28, R97), and the lines of
a host program (R99). -/

namespace Sys2Proof.Machine

variable {s : State} {w : Word} {i : Instr}

/-! ### Issue -/

theorem issue_of_decode_ok (h : decode w = .ok i) (s : State) : issue w s = exec i s := by
  simp only [issue, h]

theorem issue_of_decode_error {e : DecodeError} (h : decode w = .error e) (s : State) :
    issue w s = .fault (faultOfDecodeError e) := by
  simp only [issue, h]

/-- Settles O3: the checks of decoding one by one, and what remains is the word of a command. -/
theorem issueFollowsTheDecodingRule : Obligations.IssueFollowsTheDecodingRule := by
  intro w s
  split_ifs with hr ho hf hf' hk
  · exact issue_of_decode_error (decode_of_reserved hr) s
  · exact issue_of_decode_error (decode_of_reservedOpcode hr (instrOfOpcode_eq_none_iff.mpr ho)) s
  all_goals obtain ⟨i, hd⟩ := exists_decode_eq_of_opcode hr ho
  · exact issue_of_decode_error (hd.trans (if_pos (.inl hf))) s
  · exact issue_of_decode_error (hd.trans (if_pos (.inr hf'))) s
  · rw [if_neg (not_or.mpr ⟨hf, hf'⟩), if_pos hk] at hd
    exact issue_of_decode_error hd s
  · rw [if_neg (not_or.mpr ⟨hf, hf'⟩), if_neg hk] at hd
    obtain ⟨he, -⟩ := decode_eq_ok_iff_encode_eq.mp hd
    exact ⟨i, he, issue_of_decode_ok hd s⟩

theorem perform_commandWrite (w : Word) (s : State) : perform (commandWrite w) s = issue w s := rfl

theorem step_commandWrite {rest : List HostTxn} (hp : s.pending = commandWrite w :: rest) :
    step s = issue w (takeTransaction s rest) :=
  (step_of_pending hp).trans (perform_commandWrite w _)

/-- Settles O6: the step is the issue of the word. -/
theorem stepRunsTheDecodedCommand : Obligations.StepRunsTheDecodedCommand := by
  intro s w rest hp
  rw [step_commandWrite hp]
  exact ⟨fun i hi => issue_of_decode_ok hi _, fun e he => issue_of_decode_error he _⟩

/-! ### The register window (10_state.md R28, 30_encoding.md R97) -/

theorem perform_regWrite {o : Nat} (h4 : o % 4 = 0) (v : Word) (s : State) :
    perform (.regWrite o 4 v) s = writeRegister s o v := if_pos ((registerAccessOk_iff o 4).mpr ⟨rfl, h4⟩)

theorem perform_regRead {o : Nat} (h4 : o % 4 = 0) (s : State) :
    perform (.regRead o 4) s = .next { s with response := .register (readRegister s o) } :=
  if_pos ((registerAccessOk_iff o 4).mpr ⟨rfl, h4⟩)

theorem argAtOffset_arg (j : Fin 8) : argAtOffset (0x20 + 4 * j.val) = some j :=
  (argAtOffset_eq_some (by omega)).mpr rfl

theorem argAtOffset_eq_none {o : Nat} (h4 : o % 4 = 0) (h : ∀ j : Fin 8, o ≠ 0x20 + 4 * j.val) :
    argAtOffset o = none :=
  Option.eq_none_iff_forall_ne_some.mpr fun j hj => h j ((argAtOffset_eq_some h4).mp hj)

theorem writeRegister_arg (s : State) (j : Fin 8) (v : Word) :
    writeRegister s (0x20 + 4 * j.val) v = .next (s.setArg j v) := by
  simp only [writeRegister, argAtOffset_arg, if_neg (show 0x20 + 4 * j.val ≠ cmdOffset by unfold cmdOffset; omega)]

theorem writeRegister_discarded {o : Nat} (s : State) (v : Word) (h0 : o ≠ cmdOffset) (hn : argAtOffset o = none) :
    writeRegister s o v = .next s := by
  simp only [writeRegister, if_neg h0, hn]

theorem readRegister_status (s : State) : readRegister s statusOffset = s.status := if_pos rfl

theorem readRegister_arg (s : State) (j : Fin 8) : readRegister s (0x20 + 4 * j.val) = s.args[j] := by
  simp only [readRegister, argAtOffset_arg, if_neg (show 0x20 + 4 * j.val ≠ statusOffset by unfold statusOffset; omega)]

theorem readRegister_reserved {o : Nat} (s : State) (h : o ≠ statusOffset) (hn : argAtOffset o = none) :
    readRegister s o = 0#32 := by
  simp only [readRegister, if_neg h, hn]

section
variable {rest : List HostTxn}

theorem step_regWrite_arg {j : Fin 8} {v : Word} (hp : s.pending = .regWrite (0x20 + 4 * j.val) 4 v :: rest) :
    step s = .next ((takeTransaction s rest).setArg j v) := by
  rw [step_of_pending hp, perform_regWrite (by omega), writeRegister_arg]

theorem step_regRead {o : Nat} (hp : s.pending = .regRead o 4 :: rest) (h4 : o % 4 = 0) :
    step s = .next { takeTransaction s rest with response := .register (readRegister (takeTransaction s rest) o) } := by
  rw [step_of_pending hp, perform_regRead h4]

theorem step_regRead_status (hp : s.pending = .regRead statusOffset 4 :: rest) :
    step s = .next { takeTransaction s rest with response := .register s.status } := by
  rw [step_regRead hp rfl, readRegister_status, takeTransaction_status]

end

/-- Settles O9: the register at an offset, or none. -/
theorem registerAccessesFollowTheRegisterMap : Obligations.RegisterAccessesFollowTheRegisterMap := by
  refine fun s rest => ⟨fun j v => step_regWrite_arg, fun o v hp h4 h0 hn => ?_, fun j hp => ?_, step_regRead_status,
    fun o hp h4 hst hn => ?_⟩
  · rw [step_of_pending hp, perform_regWrite h4, writeRegister_discarded _ v h0 (argAtOffset_eq_none h4 hn)]
  · rw [step_regRead hp (by omega), readRegister_arg, takeTransaction_args]
  · rw [step_regRead hp h4, readRegister_reserved _ hst (argAtOffset_eq_none h4 hn)]

/-! ### The lines of a host program (30_encoding.md R99) -/

/-- Settles O59: each line is the transaction of one register, one element or one command word. -/
theorem assemblerLinesAreTheirTransactions : Obligations.AssemblerLinesAreTheirTransactions := by
  refine fun s rest => ⟨fun j v => step_regWrite_arg, fun i hwf hp => ?_, step_regRead_status, fun a v hp => ?_,
    fun a hp => ?_⟩
  · rw [step_commandWrite hp, issue_of_decode_ok (decode_encode hwf)]
  · rw [step_of_pending hp, asmTransaction, perform_dataWrite, hostWrite, takeTransaction_dmem]
  · rw [step_of_pending hp, asmTransaction, perform_dataRead]

end Sys2Proof.Machine
end

section
/-! No command and no transaction is refused: every end that one can have is a next state or a violation
(30_encoding.md R92, 60_exceptions.md R297). -/

namespace Sys2Proof.Machine

variable (s : State) (r : Refusal)

theorem next_ne_refused : (.next s : Result) ≠ .refused r := nofun

theorem fault_ne_refused (e : Fault) : (.fault e : Result) ≠ .refused r := nofun

theorem commit_ne_refused (x : Except Fault Memory) : commit s x ≠ .refused r := by
  cases x with
  | ok m => exact next_ne_refused _ r
  | error e => exact fault_ne_refused r e

theorem finishInit_ne_refused (k : BitVec 8) (made : Option Slot) : finishInit s k made ≠ .refused r := by
  unfold finishInit
  split
  · cases made with
    | some x => exact next_ne_refused _ r
    | none => exact next_ne_refused _ r
  · exact fault_ne_refused r _

/-- An initialisation command ends in `finishInit`; an execute command looks at its slot, then at what the slot holds, and
ends in `commit`. -/
theorem exec_ne_refused (i : Instr) : exec i s ≠ .refused r := by
  cases i with
  | cfftInit | cfftR2Init | cfftR4Init | rfftInit | mfccInit => exact finishInit_ne_refused s r _ _
  | cfft | cfftR2 | cfftR4 | rfft | mfcc =>
    simp only [exec, execCfft, execCfftR2, execCfftR4, complexTransform, execRfft, execMfcc]
    split
    · exact fault_ne_refused r _
    · split
      · exact fault_ne_refused r _
      · exact commit_ne_refused s r _

theorem issue_ne_refused (w : Word) : issue w s ≠ .refused r := by
  unfold issue
  split
  · exact exec_ne_refused s r _
  · exact fault_ne_refused r _

theorem writeRegister_ne_refused (o : Nat) (v : Word) : writeRegister s o v ≠ .refused r := by
  unfold writeRegister
  split
  · exact issue_ne_refused s r v
  · split
    · exact next_ne_refused _ r
    · exact next_ne_refused _ r

theorem hostRead_ne_refused (a : Nat) : hostRead s a ≠ .refused r := by
  unfold hostRead
  split
  · exact next_ne_refused _ r
  · exact fault_ne_refused r _

theorem ite_fault_ne_refused {p : Prop} [Decidable p] {x : Result} {e : Fault} (h : x ≠ .refused r) :
    (if p then x else .fault e) ≠ .refused r := by
  split
  · exact h
  · exact fault_ne_refused r e

theorem perform_ne_refused (x : HostTxn) : perform x s ≠ .refused r := by
  cases x with
  | regRead => exact ite_fault_ne_refused r (next_ne_refused _ r)
  | regWrite => exact ite_fault_ne_refused r (writeRegister_ne_refused s r _ _)
  | dataRead => exact ite_fault_ne_refused r (hostRead_ne_refused s r _)
  | dataWrite => exact ite_fault_ne_refused r (commit_ne_refused s r _)
  | reset => exact next_ne_refused _ r

/-- Settles O17, transaction by transaction. -/
theorem noStepIsRefused : Obligations.NoStepIsRefused := by
  intro s r
  unfold step
  split
  · exact next_ne_refused s r
  · exact perform_ne_refused _ r _

end Sys2Proof.Machine
end

section
/-! Patterns of a format in the order of their magnitudes, and rounding to the nearest of them (40_numerics.md R123,
R124). -/

namespace Sys2Proof.Machine

variable {f : FloatFormat}

/-! ### Magnitudes of patterns without a sign -/

theorem infinityPattern_add (f : FloatFormat) : infinityPattern f + 2 ^ f.fracBits = 2 ^ (f.expBits + f.fracBits) := by
  have := Nat.one_le_two_pow (n := f.expBits)
  rw [infinityPattern, topExponent, Nat.sub_mul, pow_add, one_mul]
  exact Nat.sub_add_cancel (Nat.le_mul_of_pos_left _ this)

theorem infinityPattern_lt (f : FloatFormat) : infinityPattern f < 2 ^ (f.expBits + f.fracBits) := by
  have := infinityPattern_add f
  have := Nat.two_pow_pos f.fracBits
  omega

theorem lt_two_pow_of_lt_infinityPattern {p : Nat} (h : p < infinityPattern f) : p < 2 ^ (f.expBits + f.fracBits) :=
  h.trans (infinityPattern_lt f)

theorem magnitudeOf_mul_add {k s : Nat} (hs : s < 2 ^ f.fracBits)
    (hp : k * 2 ^ f.fracBits + s < 2 ^ (f.expBits + f.fracBits)) :
    magnitudeOf f (k * 2 ^ f.fracBits + s) = if k = 0 then s else (2 ^ f.fracBits + s) * 2 ^ (k - 1) := by
  have hdiv : (k * 2 ^ f.fracBits + s) / 2 ^ f.fracBits = k := by
    rw [Nat.add_comm, Nat.add_mul_div_right _ _ (Nat.two_pow_pos _), Nat.div_eq_of_lt hs, zero_add]
  have hk : k < 2 ^ f.expBits := by
    rw [← hdiv]
    exact Nat.div_lt_of_lt_mul (by rwa [← pow_add, Nat.add_comm f.fracBits])
  simp only [magnitudeOf, expField, fracField, hdiv, Nat.mod_eq_of_lt hk, Nat.mul_add_mod', Nat.mod_eq_of_lt hs]

/-- A significand q above k dropped units has the pattern k * 2^F + q, for a subnormal, a normal and a carry alike. -/
theorem magnitudeOf_significand {k q : Nat} (hk : k = 0 ∨ 2 ^ f.fracBits ≤ q) (hq : q ≤ 2 * 2 ^ f.fracBits)
    (hp : k * 2 ^ f.fracBits + q < 2 ^ (f.expBits + f.fracBits)) :
    magnitudeOf f (k * 2 ^ f.fracBits + q) = q * 2 ^ k := by
  have hF := Nat.two_pow_pos f.fracBits
  rcases lt_or_ge q (2 ^ f.fracBits) with hlt | hge
  · obtain rfl : k = 0 := hk.resolve_right (not_le.mpr hlt)
    rw [magnitudeOf_mul_add hlt hp, if_pos rfl, pow_zero, mul_one]
  · rcases hq.lt_or_eq with hlt | rfl
    · have e : k * 2 ^ f.fracBits + q = (k + 1) * 2 ^ f.fracBits + (q - 2 ^ f.fracBits) := by
        rw [Nat.add_mul]; omega
      rw [e] at hp ⊢
      rw [magnitudeOf_mul_add (by omega) hp, if_neg (by omega), Nat.add_sub_cancel' hge, Nat.add_sub_cancel]
    · have e : k * 2 ^ f.fracBits + 2 * 2 ^ f.fracBits = (k + 2) * 2 ^ f.fracBits + 0 := by rw [Nat.add_mul, add_zero]
      rw [e] at hp ⊢
      rw [magnitudeOf_mul_add hF hp, if_neg (by omega), Nat.add_sub_assoc (by decide) k]
      ring

theorem exists_significand (f : FloatFormat) (p : Nat) :
    ∃ k q, p = k * 2 ^ f.fracBits + q ∧ (k = 0 ∨ 2 ^ f.fracBits ≤ q) ∧ q < 2 * 2 ^ f.fracBits := by
  have hdm := Nat.div_add_mod p (2 ^ f.fracBits)
  have hlt := Nat.mod_lt p (Nat.two_pow_pos f.fracBits)
  rcases h : p / 2 ^ f.fracBits with _ | k
  · rw [h, mul_zero, zero_add] at hdm
    exact ⟨0, p, by simp, Or.inl rfl, by omega⟩
  · rw [h, Nat.mul_succ, Nat.mul_comm] at hdm
    exact ⟨k, 2 ^ f.fracBits + p % 2 ^ f.fracBits, by omega, Or.inr (by omega), by omega⟩

theorem magnitudeOf_lt_succ {p : Nat} (hp : p + 1 < 2 ^ (f.expBits + f.fracBits)) :
    magnitudeOf f p < magnitudeOf f (p + 1) := by
  obtain ⟨k, q, rfl, hk, hq⟩ := exists_significand f p
  rw [Nat.add_assoc] at hp ⊢
  rw [magnitudeOf_significand hk hq.le (by omega), magnitudeOf_significand (by omega) (by omega) hp, Nat.add_mul]
  exact Nat.lt_add_of_pos_right (by positivity)

theorem magnitudeOf_lt {p q : Nat} (h : p < q) (hq : q < 2 ^ (f.expBits + f.fracBits)) :
    magnitudeOf f p < magnitudeOf f q := by
  induction q, h using Nat.le_induction with
  | base => exact magnitudeOf_lt_succ hq
  | succ q _ ih => exact (ih (by omega)).trans (magnitudeOf_lt_succ hq)

theorem magnitudeOf_le {p q : Nat} (h : p ≤ q) (hq : q < 2 ^ (f.expBits + f.fracBits)) :
    magnitudeOf f p ≤ magnitudeOf f q := by
  rcases h.lt_or_eq with hlt | rfl
  · exact (magnitudeOf_lt hlt hq).le
  · exact le_rfl

@[simp] theorem magnitudeOf_zero (f : FloatFormat) : magnitudeOf f 0 = 0 := by
  simp [magnitudeOf, expField, fracField]

theorem magnitudeOf_pos {p : Nat} (h0 : 0 < p) (hp : p < infinityPattern f) : 0 < magnitudeOf f p := by
  rw [← magnitudeOf_zero f]
  exact magnitudeOf_lt h0 (lt_two_pow_of_lt_infinityPattern hp)

/-! ### The nearest pattern -/

/-- A format with at least one exponent and one fraction bit, as the two of R121 and R122 are. -/
def FloatFormat.Proper (f : FloatFormat) : Prop := 0 < f.expBits ∧ 0 < f.fracBits

theorem formatH_proper : formatH.Proper := ⟨by decide, by decide⟩

theorem formatA_proper : formatA.Proper := ⟨by decide, by decide⟩

theorem infinityPattern_pos (hf : f.Proper) : 0 < infinityPattern f := by
  have := Nat.one_lt_two_pow hf.1.ne'
  exact Nat.mul_pos (Nat.sub_pos_of_lt this) (Nat.two_pow_pos _)

theorem even_two_pow_fracBits (hf : f.Proper) : Even (2 ^ f.fracBits) := (Nat.even_pow' hf.2.ne').mpr even_two

theorem even_infinityPattern (hf : f.Proper) : Even (infinityPattern f) := (even_two_pow_fracBits hf).mul_left _

theorem even_significand_iff (hf : f.Proper) (k q : Nat) : Even (k * 2 ^ f.fracBits + q) ↔ Even q := by
  simp [Nat.even_add, (even_two_pow_fracBits hf).mul_left k]

/-- The pattern p, or infinity, is the rounding of y ≥ 0: y lies between the middles on either side of p, and on neither
unless p is even (40_numerics.md R124). -/
structure RoundsTo (f : FloatFormat) (y : ℝ) (p : Nat) : Prop where
  le_infinity : p ≤ infinityPattern f
  above : ∀ r, r + 1 = p → (magnitudeOf f r + magnitudeOf f p : ℝ) ≤ 2 * y
  above_tie : ∀ r, r + 1 = p → (magnitudeOf f r + magnitudeOf f p : ℝ) = 2 * y → Even p
  below : p < infinityPattern f → 2 * y ≤ (magnitudeOf f p + magnitudeOf f (p + 1) : ℝ)
  below_tie : p < infinityPattern f → 2 * y = (magnitudeOf f p + magnitudeOf f (p + 1) : ℝ) → Even p

namespace RoundsTo

variable {y : ℝ} {p q : Nat}

theorem above_of_lt (h : RoundsTo f y p) (hq : q < p) : (magnitudeOf f q + magnitudeOf f p : ℝ) ≤ 2 * y := by
  obtain ⟨r, rfl⟩ := Nat.exists_eq_succ_of_ne_zero (Nat.ne_zero_of_lt hq)
  have hle : magnitudeOf f q ≤ magnitudeOf f r :=
    magnitudeOf_le (Nat.lt_succ_iff.mp hq) (by have := h.le_infinity; have := infinityPattern_lt f; omega)
  have := h.above r rfl
  have : (magnitudeOf f q : ℝ) ≤ magnitudeOf f r := by exact_mod_cast hle
  linarith

theorem below_of_lt (h : RoundsTo f y p) (hp : p < infinityPattern f) (hq : p < q)
    (hq' : q < 2 ^ (f.expBits + f.fracBits)) : 2 * y ≤ (magnitudeOf f p + magnitudeOf f q : ℝ) := by
  have : (magnitudeOf f (p + 1) : ℝ) ≤ magnitudeOf f q := by exact_mod_cast magnitudeOf_le hq hq'
  have := h.below hp
  linarith

/-- No finite pattern is nearer than the rounding. -/
theorem nearest (h : RoundsTo f y p) (hp : p < infinityPattern f) (hq : q < infinityPattern f) :
    |y - magnitudeOf f p| ≤ |y - magnitudeOf f q| := by
  rcases lt_trichotomy q p with hlt | rfl | hlt
  · have hV : (magnitudeOf f q : ℝ) < magnitudeOf f p := by
      exact_mod_cast magnitudeOf_lt hlt (lt_two_pow_of_lt_infinityPattern hp)
    have := h.above_of_lt hlt
    exact (abs_le.mpr ⟨by linarith, by linarith⟩).trans (le_abs_self _)
  · exact le_rfl
  · have hV : (magnitudeOf f p : ℝ) < magnitudeOf f q := by
      exact_mod_cast magnitudeOf_lt hlt (lt_two_pow_of_lt_infinityPattern hq)
    have := h.below_of_lt hp hlt (lt_two_pow_of_lt_infinityPattern hq)
    rw [abs_sub_comm y (magnitudeOf f q : ℝ)]
    exact (abs_le.mpr ⟨by linarith, by linarith⟩).trans (le_abs_self _)

/-- Where another pattern is as near, the rounding is even: the other is a neighbour and y the middle between them. -/
theorem even_of_tie (h : RoundsTo f y p) (hp : p < infinityPattern f) (hq : q < infinityPattern f) (hne : q ≠ p)
    (htie : |y - magnitudeOf f p| = |y - magnitudeOf f q|) : Even p := by
  rcases lt_or_gt_of_ne hne with hlt | hlt
  · have hV : (magnitudeOf f q : ℝ) < magnitudeOf f p := by
      exact_mod_cast magnitudeOf_lt hlt (lt_two_pow_of_lt_infinityPattern hp)
    have hmid : (magnitudeOf f q + magnitudeOf f p : ℝ) = 2 * y := by
      rcases abs_eq_abs.mp htie with e | e <;> linarith
    obtain ⟨r, rfl⟩ := Nat.exists_eq_succ_of_ne_zero (Nat.ne_zero_of_lt hlt)
    have hr : (magnitudeOf f q : ℝ) ≤ magnitudeOf f r := by
      exact_mod_cast magnitudeOf_le (Nat.lt_succ_iff.mp hlt) (lt_two_pow_of_lt_infinityPattern (by omega))
    have := h.above r rfl
    exact h.above_tie r rfl (by linarith)
  · have hV : (magnitudeOf f p : ℝ) < magnitudeOf f q := by
      exact_mod_cast magnitudeOf_lt hlt (lt_two_pow_of_lt_infinityPattern hq)
    have hmid : (magnitudeOf f p + magnitudeOf f q : ℝ) = 2 * y := by
      rcases abs_eq_abs.mp htie with e | e <;> linarith
    have hr : (magnitudeOf f (p + 1) : ℝ) ≤ magnitudeOf f q := by
      exact_mod_cast magnitudeOf_le hlt (lt_two_pow_of_lt_infinityPattern hq)
    have := h.below hp
    exact h.below_tie hp (by linarith)

/-- Infinity results exactly from the middle between the largest finite value and the next power of two on. -/
theorem eq_infinity_iff (hf : f.Proper) (h : RoundsTo f y p) :
    p = infinityPattern f ↔
      (magnitudeOf f (infinityPattern f - 1) + magnitudeOf f (infinityPattern f) : ℝ) ≤ 2 * y := by
  have hpos := infinityPattern_pos hf
  constructor
  · rintro rfl
    exact h.above _ (Nat.sub_add_cancel hpos)
  · intro hmid
    by_contra hne
    have hlt : p < infinityPattern f := lt_of_le_of_ne h.le_infinity hne
    have hb := h.below_of_lt hlt hlt (infinityPattern_lt f)
    rcases (Nat.le_sub_one_of_lt hlt).lt_or_eq with h1 | rfl
    · have : (magnitudeOf f p : ℝ) < magnitudeOf f (infinityPattern f - 1) := by
        exact_mod_cast magnitudeOf_lt h1 (lt_two_pow_of_lt_infinityPattern (by omega))
      linarith
    · rw [← Nat.sub_add_cancel hpos] at hb
      have he : Even (infinityPattern f - 1) := by
        refine h.below_tie hlt ?_
        rw [Nat.sub_add_cancel hpos] at hb ⊢
        linarith
      have := even_infinityPattern hf
      rw [Nat.even_iff] at he this
      omega

/-- The rounding is unique. -/
theorem unique (h : RoundsTo f y p) (h' : RoundsTo f y q) : p = q := by
  have key : ∀ {p q}, RoundsTo f y p → RoundsTo f y q → ¬ p < q := by
    intro p q h h' hlt
    have hp : p < infinityPattern f := hlt.trans_le h'.le_infinity
    have hq : q < 2 ^ (f.expBits + f.fracBits) := h'.le_infinity.trans_lt (infinityPattern_lt f)
    have hb := h.below hp
    have ha := h'.above_of_lt hlt
    rcases (Nat.succ_le_of_lt hlt).lt_or_eq with h1 | rfl
    · have : (magnitudeOf f (p + 1) : ℝ) < magnitudeOf f q := by exact_mod_cast magnitudeOf_lt h1 hq
      linarith
    · have h1 := h.below_tie hp (le_antisymm hb ha)
      have h2 := h'.above_tie p rfl (le_antisymm ha hb)
      rw [Nat.even_iff] at h1 h2
      omega
  exact le_antisymm (not_lt.mp (key h' h)) (not_lt.mp (key h h'))

/-- A value of the format rounds to itself. -/
theorem of_magnitudeOf (hp : p < infinityPattern f) : RoundsTo f (magnitudeOf f p) p := by
  have hV : (magnitudeOf f p : ℝ) < magnitudeOf f (p + 1) := by
    exact_mod_cast magnitudeOf_lt_succ ((Nat.succ_le_of_lt hp).trans_lt (infinityPattern_lt f))
  have hr : ∀ r, r + 1 = p → (magnitudeOf f r : ℝ) < magnitudeOf f p := by
    rintro r rfl
    exact_mod_cast magnitudeOf_lt_succ (lt_two_pow_of_lt_infinityPattern hp)
  refine ⟨hp.le, fun r h => ?_, fun r h e => ?_, fun _ => ?_, fun _ e => ?_⟩
  · have := hr r h; linarith
  · have := hr r h; linarith
  · linarith
  · linarith

end RoundsTo

/-! ### `roundMagnitude` is that rounding -/

theorem lt_two_pow_bitLength (n : Nat) : n < 2 ^ bitLength n := by
  unfold bitLength
  split
  · simp_all
  · exact Nat.lt_log2_self

theorem two_pow_le_of_lt_bitLength {n j : Nat} (h : j < bitLength n) : 2 ^ j ≤ n := by
  unfold bitLength at h
  split at h
  · omega
  · exact (Nat.pow_le_pow_right (by decide) (Nat.lt_succ_iff.mp h)).trans (Nat.log2_self_le ‹_›)

/-- The significand that is kept has at most F + 1 bits, and exactly so many where bits above the subnormal spacing are
dropped. -/
theorem kept_significand (f : FloatFormat) (mag extra : Nat) :
    mag / 2 ^ droppedBits f mag extra < 2 * 2 ^ f.fracBits ∧
      (droppedBits f mag extra - extra = 0 ∨ 2 ^ f.fracBits ≤ mag / 2 ^ droppedBits f mag extra) := by
  have hd : droppedBits f mag extra = max extra (bitLength mag - (f.fracBits + 1)) := rfl
  constructor
  · refine Nat.div_lt_of_lt_mul ?_
    rw [← pow_succ', ← pow_add]
    exact (lt_two_pow_bitLength mag).trans_le (Nat.pow_le_pow_right (by decide) (by omega))
  · rcases Nat.eq_zero_or_pos (droppedBits f mag extra - extra) with h | h
    · exact Or.inl h
    · refine Or.inr ((Nat.le_div_iff_mul_le (Nat.two_pow_pos _)).mpr ?_)
      rw [← pow_add]
      exact two_pow_le_of_lt_bitLength (by omega)

/-- `roundShift` gives the quotient or the next number, after the remainder. -/
theorem roundShift_cases (n d : Nat) :
    (roundShift n d = n / 2 ^ d ∧ 2 * (n % 2 ^ d) ≤ 2 ^ d ∧ (2 * (n % 2 ^ d) = 2 ^ d → Even (n / 2 ^ d))) ∨
      (roundShift n d = n / 2 ^ d + 1 ∧ 2 ^ d ≤ 2 * (n % 2 ^ d) ∧
        (2 * (n % 2 ^ d) = 2 ^ d → Even (n / 2 ^ d + 1))) := by
  simp only [roundShift, Nat.even_iff]
  split <;> omega

theorem magnitudeOf_infinityPattern (f : FloatFormat) (hf : f.Proper) :
    magnitudeOf f (infinityPattern f) = 2 ^ f.fracBits * 2 ^ (2 ^ f.expBits - 2) := by
  have h2 : 2 ≤ 2 ^ f.expBits := Nat.one_lt_two_pow hf.1.ne'
  have e : infinityPattern f = (2 ^ f.expBits - 2) * 2 ^ f.fracBits + 2 ^ f.fracBits := by
    rw [infinityPattern, topExponent, show 2 ^ f.expBits - 1 = 2 ^ f.expBits - 2 + 1 by omega, Nat.succ_mul]
  have hlt := infinityPattern_lt f
  rw [e] at hlt ⊢
  exact magnitudeOf_significand (Or.inr le_rfl) (by omega) hlt

theorem magnitudeOf_infinityPattern_le (hf : f.Proper) {k q : Nat} (hk : k = 0 ∨ 2 ^ f.fracBits ≤ q)
    (hq : q < 2 * 2 ^ f.fracBits) (h : infinityPattern f ≤ k * 2 ^ f.fracBits + q) :
    magnitudeOf f (infinityPattern f) ≤ q * 2 ^ k := by
  have h2 : 2 ≤ 2 ^ f.expBits := Nat.one_lt_two_pow hf.1.ne'
  have hlt : (2 ^ f.expBits - 1) * 2 ^ f.fracBits < (k + 2) * 2 ^ f.fracBits := by
    rw [Nat.add_mul]
    exact h.trans_lt (by omega)
  have hk' := Nat.lt_of_mul_lt_mul_right hlt
  have hq' : 2 ^ f.fracBits ≤ q := by
    rcases hk with rfl | hk
    · have : 2 ^ f.expBits - 1 = 1 := by omega
      rw [infinityPattern, topExponent, this] at h
      omega
    · exact hk
  rw [magnitudeOf_infinityPattern f hf]
  exact Nat.mul_le_mul hq' (Nat.pow_le_pow_right (by decide) (by omega))

section Significand

variable (hf : f.Proper) {k q : Nat} (hk : k = 0 ∨ 2 ^ f.fracBits ≤ q) (hq : q < 2 * 2 ^ f.fracBits) {t : ℝ}
include hf hk hq

theorem RoundsTo.of_round_down (hp : k * 2 ^ f.fracBits + q < infinityPattern f) (h0 : 0 ≤ t) (h1 : 2 * t ≤ 1)
    (htie : 2 * t = 1 → Even q) : RoundsTo f ((q + t) * 2 ^ k) (k * 2 ^ f.fracBits + q) := by
  have hlt := infinityPattern_lt f
  have h2k : (0 : ℝ) < 2 ^ k := by positivity
  have hV : (magnitudeOf f (k * 2 ^ f.fracBits + q) : ℝ) = q * 2 ^ k := by
    exact_mod_cast magnitudeOf_significand hk hq.le (by omega)
  have hV' : (magnitudeOf f (k * 2 ^ f.fracBits + q + 1) : ℝ) = (q + 1) * 2 ^ k := by
    exact_mod_cast magnitudeOf_significand (q := q + 1) (by omega) (by omega) (by omega)
  have hr : ∀ r, r + 1 = k * 2 ^ f.fracBits + q → (magnitudeOf f r : ℝ) < q * 2 ^ k := by
    intro r e
    rw [← hV, ← e]
    exact_mod_cast magnitudeOf_lt_succ (by omega)
  have ht0 : 0 ≤ t * 2 ^ k := by positivity
  have ht1 : 2 * t * 2 ^ k ≤ 1 * 2 ^ k := by gcongr
  refine ⟨hp.le, fun r e => ?_, fun r e h => ?_, fun _ => ?_, fun _ h => (even_significand_iff hf k q).mpr (htie ?_)⟩
  · have := hr r e
    linarith
  · have := hr r e
    linarith
  · linarith
  · rw [hV, hV'] at h
    exact mul_right_cancel₀ h2k.ne' (by linarith)

theorem RoundsTo.of_round_up (hp : k * 2 ^ f.fracBits + q < infinityPattern f) (h1 : 1 ≤ 2 * t) (h2 : t < 1)
    (htie : 2 * t = 1 → Even (q + 1)) : RoundsTo f ((q + t) * 2 ^ k) (k * 2 ^ f.fracBits + (q + 1)) := by
  have hlt := infinityPattern_lt f
  have h2k : (0 : ℝ) < 2 ^ k := by positivity
  have hV : (magnitudeOf f (k * 2 ^ f.fracBits + q) : ℝ) = q * 2 ^ k := by
    exact_mod_cast magnitudeOf_significand hk hq.le (by omega)
  have hV' : (magnitudeOf f (k * 2 ^ f.fracBits + (q + 1)) : ℝ) = (q + 1) * 2 ^ k := by
    exact_mod_cast magnitudeOf_significand (q := q + 1) (by omega) (by omega) (by omega)
  have ht1 : 1 * 2 ^ k ≤ 2 * t * 2 ^ k := by gcongr
  have ht2 : t * 2 ^ k < 1 * 2 ^ k := by gcongr
  have habove : k * 2 ^ f.fracBits + (q + 1) < infinityPattern f →
      ((q + 1) * 2 ^ k : ℝ) < magnitudeOf f (k * 2 ^ f.fracBits + (q + 1) + 1) := by
    intro h
    rw [← hV']
    exact_mod_cast magnitudeOf_lt_succ (by omega)
  refine ⟨hp, fun r e => ?_, fun r e h => (even_significand_iff hf k _).mpr (htie ?_), fun h => ?_, fun h e => ?_⟩
  · obtain rfl : r = k * 2 ^ f.fracBits + q := by omega
    linarith
  · obtain rfl : r = k * 2 ^ f.fracBits + q := by omega
    rw [hV, hV'] at h
    exact mul_right_cancel₀ h2k.ne' (by linarith)
  · have := habove h
    linarith
  · have := habove h
    linarith

theorem RoundsTo.of_overflow (hp : infinityPattern f ≤ k * 2 ^ f.fracBits + q) (h0 : 0 ≤ t) :
    RoundsTo f ((q + t) * 2 ^ k) (infinityPattern f) := by
  have hV : (magnitudeOf f (infinityPattern f) : ℝ) ≤ q * 2 ^ k := by
    exact_mod_cast magnitudeOf_infinityPattern_le hf hk hq hp
  have ht0 : 0 ≤ t * 2 ^ k := by positivity
  refine ⟨le_rfl, fun r e => ?_, fun r _ _ => even_infinityPattern hf, fun h => absurd h (lt_irrefl _),
    fun h => absurd h (lt_irrefl _)⟩
  have : (magnitudeOf f r : ℝ) < magnitudeOf f (infinityPattern f) := by
    rw [← e]
    exact_mod_cast magnitudeOf_lt_succ (e ▸ infinityPattern_lt f)
  linarith

end Significand

/-- `round_X` of mag * 2^-extra in units of the subnormal spacing is its rounding to nearest, ties to even. -/
theorem roundMagnitude_roundsTo (hf : f.Proper) (mag extra : Nat) :
    RoundsTo f (mag / 2 ^ extra) (roundMagnitude f mag extra) := by
  obtain ⟨d, hd⟩ : ∃ d, d = droppedBits f mag extra := ⟨_, rfl⟩
  obtain ⟨hq, hk⟩ := kept_significand f mag extra
  have hround : roundMagnitude f mag extra =
    min (infinityPattern f) ((d - extra) * 2 ^ f.fracBits + roundShift mag d) := by rw [hd]; rfl
  have hde : d - extra + extra = d := Nat.sub_add_cancel (hd ▸ le_max_left _ _)
  rw [← hd] at hq hk
  -- the real number is (q + t) * 2^k, with t the remainder as a part of 2^d
  obtain ⟨t, ht⟩ : ∃ t : ℝ, t * 2 ^ d = (mag % 2 ^ d : Nat) := ⟨_, div_mul_cancel₀ _ (by positivity)⟩
  have h2d : (0 : ℝ) < 2 ^ d := by positivity
  have hy : (mag / 2 ^ extra : ℝ) = ((mag / 2 ^ d : Nat) + t) * 2 ^ (d - extra) := by
    have hdm : (mag : ℝ) = 2 ^ d * (mag / 2 ^ d : Nat) + (mag % 2 ^ d : Nat) := by
      exact_mod_cast (Nat.div_add_mod mag (2 ^ d)).symm
    rw [div_eq_iff (by positivity), mul_assoc, ← pow_add, hde, hdm, ← ht]
    ring
  have h0 : 0 ≤ t := by
    refine le_of_mul_le_mul_right ?_ h2d
    rw [ht, zero_mul]
    positivity
  have h1 : t < 1 := by
    refine lt_of_mul_lt_mul_right ?_ h2d.le
    rw [ht, one_mul]
    exact_mod_cast Nat.mod_lt mag (Nat.two_pow_pos d)
  have hcmp : 2 * t * 2 ^ d = (2 * (mag % 2 ^ d) : Nat) := by
    rw [mul_assoc, ht]
    push_cast
    rfl
  have htie : 2 * t = 1 → 2 * (mag % 2 ^ d) = 2 ^ d := by
    intro h
    rw [h, one_mul] at hcmp
    exact_mod_cast hcmp.symm
  rw [hround, hy]
  rcases le_or_gt (infinityPattern f) ((d - extra) * 2 ^ f.fracBits + mag / 2 ^ d) with hov | hfin
  · rw [min_eq_left (hov.trans ?_)]
    · exact RoundsTo.of_overflow hf hk hq hov h0
    · rcases roundShift_cases mag d with ⟨e, -⟩ | ⟨e, -⟩ <;> omega
  rcases roundShift_cases mag d with ⟨e, hle, hev⟩ | ⟨e, hle, hev⟩
  · rw [e, min_eq_right hfin.le]
    refine RoundsTo.of_round_down hf hk hq hfin h0 (le_of_mul_le_mul_right ?_ h2d) (hev ∘ htie)
    rw [hcmp, one_mul]
    exact_mod_cast hle
  · rw [e, min_eq_right (by omega)]
    refine RoundsTo.of_round_up hf hk hq hfin (le_of_mul_le_mul_right ?_ h2d) h1 (hev ∘ htie)
    rw [hcmp, one_mul]
    exact_mod_cast hle

end Sys2Proof.Machine
end

section
/-! The fields of a pattern, and the operations of NUM on finite operands (40_numerics.md R123, R125, R128,
R129). -/

namespace Sys2Proof.Machine

variable {f : FloatFormat}

/-! ### The fields of a pattern -/

theorem expField_mod (f : FloatFormat) (p : Nat) : expField f (p % 2 ^ (f.expBits + f.fracBits)) = expField f p := by
  rw [expField, expField, Nat.add_comm, pow_add, Nat.mod_mul_right_div_self, Nat.mod_mod]

theorem fracField_mod (f : FloatFormat) (p : Nat) : fracField f (p % 2 ^ (f.expBits + f.fracBits)) = fracField f p :=
  Nat.mod_mod_of_dvd _ (pow_dvd_pow 2 (Nat.le_add_left _ _))

theorem magnitudeOf_mod (f : FloatFormat) (p : Nat) :
    magnitudeOf f (p % 2 ^ (f.expBits + f.fracBits)) = magnitudeOf f p := by
  rw [magnitudeOf, magnitudeOf, expField_mod, fracField_mod]

theorem expField_eq_top_iff (f : FloatFormat) (p : Nat) :
    expField f p = topExponent f ↔ infinityPattern f ≤ p % 2 ^ (f.expBits + f.fracBits) := by
  have hlt : p % 2 ^ (f.expBits + f.fracBits) / 2 ^ f.fracBits < 2 ^ f.expBits := by
    refine Nat.div_lt_of_lt_mul ?_
    rw [← pow_add, Nat.add_comm f.fracBits]
    exact Nat.mod_lt _ (Nat.two_pow_pos _)
  rw [← expField_mod, expField, Nat.mod_eq_of_lt hlt, infinityPattern, ← Nat.le_div_iff_mul_le (Nat.two_pow_pos _)]
  unfold topExponent
  omega

theorem fracField_eq_of_infinityPattern_le {p : Nat} (h : infinityPattern f ≤ p % 2 ^ (f.expBits + f.fracBits)) :
    p % 2 ^ (f.expBits + f.fracBits) = infinityPattern f + fracField f p := by
  have hlt := Nat.mod_lt p (Nat.two_pow_pos (f.expBits + f.fracBits))
  have := infinityPattern_add f
  obtain ⟨c, hc⟩ := Nat.exists_eq_add_of_le h
  rw [← fracField_mod, hc, fracField, infinityPattern, Nat.mul_add_mod', Nat.mod_eq_of_lt (by omega)]

theorem isNaN_iff (f : FloatFormat) (p : Nat) :
    isNaN f p = true ↔ infinityPattern f < p % 2 ^ (f.expBits + f.fracBits) := by
  simp only [isNaN, Bool.and_eq_true, beq_iff_eq, bne_iff_ne, expField_eq_top_iff]
  constructor
  · rintro ⟨h, h0⟩
    have := fracField_eq_of_infinityPattern_le h
    omega
  · intro h
    have := fracField_eq_of_infinityPattern_le h.le
    omega

theorem isInfinite_iff (f : FloatFormat) (p : Nat) :
    isInfinite f p = true ↔ p % 2 ^ (f.expBits + f.fracBits) = infinityPattern f := by
  simp only [isInfinite, Bool.and_eq_true, beq_iff_eq, expField_eq_top_iff]
  constructor
  · rintro ⟨h, h0⟩
    have := fracField_eq_of_infinityPattern_le h
    omega
  · intro h
    have := fracField_eq_of_infinityPattern_le h.ge
    omega

theorem isFinite_iff (f : FloatFormat) (p : Nat) :
    isFinite f p = true ↔ p % 2 ^ (f.expBits + f.fracBits) < infinityPattern f := by
  simp only [isFinite, Bool.and_eq_true, Bool.not_eq_true', ← Bool.not_eq_true, isNaN_iff, isInfinite_iff]
  omega

theorem isFinite_iff_ne (f : FloatFormat) (p : Nat) :
    isFinite f p = true ↔ isNaN f p = false ∧ isInfinite f p = false := by
  simp [isFinite]

theorem isInfinite_or_isFinite {p : Nat} (h : isNaN f p = false) : isInfinite f p = true ∨ isFinite f p = true := by
  rw [isFinite_iff_ne]
  cases isInfinite f p <;> simp [h]

theorem isFinite_of_lt {p : Nat} (h : p < infinityPattern f) : isFinite f p = true := by
  rwa [isFinite_iff, Nat.mod_eq_of_lt (lt_two_pow_of_lt_infinityPattern h)]

theorem signOf_of_lt {p : Nat} (hp : p < infinityPattern f) : signOf f p = false :=
  Nat.testBit_lt_two_pow (lt_two_pow_of_lt_infinityPattern hp)

theorem magnitudeOf_lt_of_isFinite {x : Nat} (hx : isFinite f x = true) :
    magnitudeOf f x < magnitudeOf f (infinityPattern f) := by
  rw [← magnitudeOf_mod]
  exact magnitudeOf_lt ((isFinite_iff f x).mp hx) (infinityPattern_lt f)

/-! ### A pattern from its sign and its other bits -/

theorem withSign_mod (f : FloatFormat) (s : Bool) (p : Nat) :
    withSign f s p % 2 ^ (f.expBits + f.fracBits) = p % 2 ^ (f.expBits + f.fracBits) := by
  cases s <;> simp [withSign]

@[simp] theorem magnitudeOf_withSign (f : FloatFormat) (s : Bool) (p : Nat) :
    magnitudeOf f (withSign f s p) = magnitudeOf f p := by
  rw [← magnitudeOf_mod, withSign_mod, magnitudeOf_mod]

theorem signOf_withSign {p : Nat} (s : Bool) (hp : p < 2 ^ (f.expBits + f.fracBits)) : signOf f (withSign f s p) = s := by
  cases s
  · simp [signOf, withSign, Nat.testBit_lt_two_pow hp]
  · simp [signOf, withSign, Nat.testBit_two_pow_add_eq, Nat.testBit_lt_two_pow hp]

theorem isFinite_withSign {p : Nat} (s : Bool) (hp : p < infinityPattern f) : isFinite f (withSign f s p) = true := by
  rw [isFinite_iff, withSign_mod, Nat.mod_eq_of_lt (lt_two_pow_of_lt_infinityPattern hp)]
  exact hp

theorem isInfinite_withSign (s : Bool) : isInfinite f (withSign f s (infinityPattern f)) = true := by
  rw [isInfinite_iff, withSign_mod, Nat.mod_eq_of_lt (infinityPattern_lt f)]

theorem withSign_lt {p : Nat} (s : Bool) (hp : p < 2 ^ (f.expBits + f.fracBits)) :
    withSign f s p < 2 ^ (f.expBits + f.fracBits + 1) := by
  rw [withSign, pow_succ]
  split <;> omega

theorem withSign_signOf {p : Nat} (hp : p < 2 ^ (f.expBits + f.fracBits + 1)) :
    withSign f (signOf f p) (p % 2 ^ (f.expBits + f.fracBits)) = p := by
  have hdm := Nat.div_add_mod p (2 ^ (f.expBits + f.fracBits))
  have hlt : p / 2 ^ (f.expBits + f.fracBits) < 2 := Nat.div_lt_of_lt_mul (by rwa [pow_succ] at hp)
  have hs : signOf f p = decide (p / 2 ^ (f.expBits + f.fracBits) = 1) := by
    rw [signOf, Nat.testBit_eq_decide_div_mod_eq, Nat.mod_eq_of_lt hlt]
  rw [hs, withSign]
  interval_cases h : p / 2 ^ (f.expBits + f.fracBits) <;> simpa using hdm

/-- The pattern with the other sign. -/
theorem xor_signBit (f : FloatFormat) (p : Nat) :
    (p ^^^ 2 ^ (f.expBits + f.fracBits)) % 2 ^ (f.expBits + f.fracBits) = p % 2 ^ (f.expBits + f.fracBits) ∧
      signOf f (p ^^^ 2 ^ (f.expBits + f.fracBits)) = !signOf f p := by
  constructor
  · rw [Nat.xor_mod_two_pow, Nat.mod_self, Nat.xor_zero]
  · simp [signOf, Nat.testBit_xor, Nat.testBit_two_pow_self]


/-! ### Signed values -/

theorem scaledValue_withSign {p : Nat} (s : Bool) (hp : p < 2 ^ (f.expBits + f.fracBits)) :
    scaledValue f (withSign f s p) = if s then -(magnitudeOf f p : Int) else magnitudeOf f p := by
  rw [scaledValue, signOf_withSign s hp, magnitudeOf_withSign]

@[simp] theorem natAbs_scaledValue (f : FloatFormat) (p : Nat) : (scaledValue f p).natAbs = magnitudeOf f p := by
  unfold scaledValue
  split <;> simp

/-- A magnitude rounded with its sign is the rounded number. -/
theorem roundTo_eq_roundedPattern (f : FloatFormat) (neg : Bool) (mag extra : Nat) :
    roundTo f neg mag extra = roundedPattern f (if neg then -(mag : Int) else mag) extra neg := by
  rcases Nat.eq_zero_or_pos mag with rfl | hpos
  · simp [roundTo, roundedPattern]
  · cases neg
    · simp [roundTo, roundedPattern, not_lt.mpr (Int.natCast_nonneg mag)]
    · simp [roundTo, roundedPattern, hpos]

theorem scaledValue_mul_scaledValue (f : FloatFormat) (x y : Nat) :
    scaledValue f x * scaledValue f y =
      if signOf f x ^^ signOf f y then -((magnitudeOf f x * magnitudeOf f y : Nat) : Int)
      else (magnitudeOf f x * magnitudeOf f y : Nat) := by
  cases hx : signOf f x <;> cases hy : signOf f y <;> simp [scaledValue, hx, hy]

theorem roundTo_lt (f : FloatFormat) (neg : Bool) (mag extra : Nat) :
    roundTo f neg mag extra < 2 ^ (f.expBits + f.fracBits + 1) :=
  withSign_lt neg ((min_le_left _ _).trans_lt (infinityPattern_lt f))

theorem roundedPattern_lt (f : FloatFormat) (v : Int) (extra : Nat) (z : Bool) :
    roundedPattern f v extra z < 2 ^ (f.expBits + f.fracBits + 1) := roundTo_lt f _ _ _

/-! ### Exact values -/

/-- A value of the format is rounded to its own pattern. -/
theorem roundMagnitude_magnitudeOf (hf : f.Proper) {p : Nat} (hp : p < infinityPattern f) (extra : Nat) :
    roundMagnitude f (magnitudeOf f p * 2 ^ extra) extra = p := by
  have h := roundMagnitude_roundsTo hf (magnitudeOf f p * 2 ^ extra) extra
  rw [Nat.cast_mul, Nat.cast_pow, Nat.cast_two, mul_div_cancel_right₀ _ (by positivity)] at h
  exact h.unique (RoundsTo.of_magnitudeOf hp)

theorem roundTo_magnitudeOf (hf : f.Proper) {x : Nat} (hx : isFinite f x = true)
    (hlt : x < 2 ^ (f.expBits + f.fracBits + 1)) (extra : Nat) :
    roundTo f (signOf f x) (magnitudeOf f x * 2 ^ extra) extra = x := by
  rw [roundTo, ← magnitudeOf_mod, roundMagnitude_magnitudeOf hf ((isFinite_iff f x).mp hx), withSign_signOf hlt]

theorem roundedPattern_scaledValue (hf : f.Proper) {x : Nat} (hx : isFinite f x = true)
    (hlt : x < 2 ^ (f.expBits + f.fracBits + 1)) : roundedPattern f (scaledValue f x) 0 (signOf f x) = x := by
  have h := roundTo_magnitudeOf hf hx hlt 0
  rwa [pow_zero, mul_one, roundTo_eq_roundedPattern] at h

/-! ### The operations on finite operands -/

section Finite

variable {x y : Nat} (hx : isFinite f x = true) (hy : isFinite f y = true)

include hx in
theorem floatConvert_of_finite (g : FloatFormat) :
    floatConvert f g x = roundTo g (signOf f x) (magnitudeOf f x * 2 ^ (formatScale g - formatScale f))
      (formatScale f - formatScale g) := by
  obtain ⟨hn, hi⟩ := (isFinite_iff_ne f x).mp hx
  simp [floatConvert, hn, hi]

include hx hy

theorem floatAdd_of_finite :
    floatAdd f x y = roundedPattern f (scaledValue f x + scaledValue f y) 0 (signOf f x && signOf f y) := by
  obtain ⟨hxn, hxi⟩ := (isFinite_iff_ne f x).mp hx
  obtain ⟨hyn, hyi⟩ := (isFinite_iff_ne f y).mp hy
  simp [floatAdd, hxn, hyn, hxi, hyi, roundedPattern, roundTo]

theorem floatMul_of_finite :
    floatMul f x y = roundTo f (signOf f x ^^ signOf f y) (magnitudeOf f x * magnitudeOf f y) (formatScale f) := by
  obtain ⟨hxn, hxi⟩ := (isFinite_iff_ne f x).mp hx
  obtain ⟨hyn, hyi⟩ := (isFinite_iff_ne f y).mp hy
  simp [floatMul, hxn, hyn, hxi, hyi]

theorem floatMul_eq_roundedPattern :
    floatMul f x y =
      roundedPattern f (scaledValue f x * scaledValue f y) (formatScale f) (signOf f x ^^ signOf f y) := by
  rw [floatMul_of_finite hx hy, roundTo_eq_roundedPattern, scaledValue_mul_scaledValue]

end Finite

/-! ### Halves and accumulator values as patterns -/

theorem formatScale_formatH : formatScale formatH = 24 := by decide

theorem formatScale_formatA : formatScale formatA = 149 := by decide

theorem toNat_ofNat_half {n : Nat} (h : n < 2 ^ (formatH.expBits + formatH.fracBits + 1)) :
    (BitVec.ofNat 16 n).toNat = n := Nat.mod_eq_of_lt h

theorem toNat_ofNat_accum {n : Nat} (h : n < 2 ^ (formatA.expBits + formatA.fracBits + 1)) :
    (BitVec.ofNat 32 n).toNat = n := Nat.mod_eq_of_lt h

theorem toNat_half_lt (x : Half) : x.toNat < 2 ^ (formatH.expBits + formatH.fracBits + 1) := x.isLt

theorem toNat_halfNeg (x : Half) : (halfNeg x).toNat = x.toNat ^^^ 2 ^ (formatH.expBits + formatH.fracBits) :=
  BitVec.toNat_xor x _

theorem toNat_halfNeg_mod (x : Half) : (halfNeg x).toNat % 2 ^ (formatH.expBits + formatH.fracBits) =
    x.toNat % 2 ^ (formatH.expBits + formatH.fracBits) := by
  rw [toNat_halfNeg]
  exact (xor_signBit formatH x.toNat).1

theorem signOf_halfNeg (x : Half) : signOf formatH (halfNeg x).toNat = !signOf formatH x.toNat := by
  rw [toNat_halfNeg]
  exact (xor_signBit formatH x.toNat).2

theorem isNaN_halfNeg (x : Half) : isNaN formatH (halfNeg x).toNat = isNaN formatH x.toNat := by
  rw [Bool.eq_iff_iff, isNaN_iff, isNaN_iff, toNat_halfNeg_mod]

theorem isInfinite_halfNeg (x : Half) : isInfinite formatH (halfNeg x).toNat = isInfinite formatH x.toNat := by
  rw [Bool.eq_iff_iff, isInfinite_iff, isInfinite_iff, toNat_halfNeg_mod]

theorem isFinite_halfNeg (x : Half) : isFinite formatH (halfNeg x).toNat = isFinite formatH x.toNat := by
  rw [isFinite, isFinite, isNaN_halfNeg, isInfinite_halfNeg]

theorem scaledValue_halfNeg (x : Half) : scaledValue formatH (halfNeg x).toNat = -scaledValue formatH x.toNat := by
  rw [scaledValue, scaledValue, signOf_halfNeg, ← magnitudeOf_mod, toNat_halfNeg_mod, magnitudeOf_mod]
  cases signOf formatH x.toNat <;> simp

theorem halfSub_of_not_nan {x y : Half} (hx : isNaN formatH x.toNat = false) (hy : isNaN formatH y.toNat = false) :
    halfSub x y = halfAdd x (halfNeg y) := by
  simp [halfSub, halfIsNaN, hx, hy]

section

variable {x y : Half} (hx : isFinite formatH x.toNat = true) (hy : isFinite formatH y.toNat = true)
include hx hy

theorem toNat_halfAdd : (halfAdd x y).toNat =
    roundedPattern formatH (scaledValue formatH x.toNat + scaledValue formatH y.toNat) 0
      (signOf formatH x.toNat && signOf formatH y.toNat) := by
  rw [halfAdd, floatAdd_of_finite hx hy, toNat_ofNat_half (roundedPattern_lt _ _ _ _)]

theorem toNat_halfSub : (halfSub x y).toNat =
    roundedPattern formatH (scaledValue formatH x.toNat - scaledValue formatH y.toNat) 0
      (signOf formatH x.toNat && !signOf formatH y.toNat) := by
  rw [halfSub_of_not_nan ((isFinite_iff_ne _ _).mp hx).1 ((isFinite_iff_ne _ _).mp hy).1,
    toNat_halfAdd hx (by rwa [isFinite_halfNeg]), scaledValue_halfNeg, signOf_halfNeg, sub_eq_add_neg]

theorem toNat_halfMul : (halfMul x y).toNat =
    roundedPattern formatH (scaledValue formatH x.toNat * scaledValue formatH y.toNat) 24
      (signOf formatH x.toNat ^^ signOf formatH y.toNat) := by
  rw [halfMul, floatMul_eq_roundedPattern hx hy, toNat_ofNat_half (roundedPattern_lt _ _ _ _)]
  rfl

end

section

variable {x y : Accum} (hx : isFinite formatA x.toNat = true)
include hx

theorem toNat_halfOfAcc : (halfOfAcc x).toNat =
    roundedPattern formatH (scaledValue formatA x.toNat) (149 - 24) (signOf formatA x.toNat) := by
  rw [halfOfAcc, floatConvert_of_finite hx formatH, formatScale_formatH, formatScale_formatA,
    Nat.sub_eq_zero_of_le (by decide), pow_zero, mul_one, roundTo_eq_roundedPattern,
    toNat_ofNat_half (roundedPattern_lt _ _ _ _), scaledValue]

variable (hy : isFinite formatA y.toNat = true)
include hy

theorem toNat_accAdd : (accAdd x y).toNat =
    roundedPattern formatA (scaledValue formatA x.toNat + scaledValue formatA y.toNat) 0
      (signOf formatA x.toNat && signOf formatA y.toNat) := by
  rw [accAdd, floatAdd_of_finite hx hy, toNat_ofNat_accum (roundedPattern_lt _ _ _ _)]

theorem toNat_accMul : (accMul x y).toNat =
    roundedPattern formatA (scaledValue formatA x.toNat * scaledValue formatA y.toNat) 149
      (signOf formatA x.toNat ^^ signOf formatA y.toNat) := by
  rw [accMul, floatMul_eq_roundedPattern hx hy, toNat_ofNat_accum (roundedPattern_lt _ _ _ _)]
  rfl

end

/-! ### The obligation on rounding -/

theorem proper_of_mem (h : f ∈ [formatH, formatA]) : f.Proper := by
  simp only [List.mem_cons, List.not_mem_nil, or_false] at h
  rcases h with rfl | rfl
  · exact formatH_proper
  · exact formatA_proper

/-- A distance of integers in the finer unit 2^-extra is that of the real numbers, scaled. -/
theorem cast_abs_sub_mul (m v e : Nat) : ((|(m : Int) - v * 2 ^ e| : Int) : ℝ) = |(m / 2 ^ e : ℝ) - v| * 2 ^ e := by
  have h2 : (0 : ℝ) < 2 ^ e := by positivity
  rw [← abs_of_pos h2, ← abs_mul, abs_of_pos h2, sub_mul, div_mul_cancel₀ _ h2.ne']
  push_cast
  rfl

/-- Settles O53: the rounded magnitude lies between the middles to its neighbours, and every operation on finite operands
is one such rounding. -/
theorem roundingIsToNearestEven : Obligations.RoundingIsToNearestEven := by
  refine ⟨fun f hf mag extra q hq => ?_,
    fun x y hx hy => ⟨toNat_halfAdd hx hy, toNat_halfSub hx hy, toNat_halfMul hx hy⟩,
    fun x y hx hy => ⟨toNat_accAdd hx hy, toNat_accMul hx hy⟩, fun x hx => toNat_halfOfAcc hx⟩
  have hf := proper_of_mem hf
  have h := roundMagnitude_roundsTo hf mag extra
  have h2 : (0 : ℝ) < 2 ^ extra := by positivity
  refine ⟨fun hp => ⟨?_, fun htie hne => ?_⟩, ?_, h.le_infinity⟩
  · rw [← Int.cast_le (R := ℝ), cast_abs_sub_mul, cast_abs_sub_mul]
    exact mul_le_mul_of_nonneg_right (h.nearest hp hq) h2.le
  · rw [← Int.cast_inj (α := ℝ), cast_abs_sub_mul, cast_abs_sub_mul] at htie
    exact Nat.even_iff.mp (h.even_of_tie hp hq hne (mul_right_cancel₀ h2.ne' htie))
  · rw [h.eq_infinity_iff hf, ← Nat.cast_le (α := ℝ), ← mul_div_assoc, le_div_iff₀ h2]
    push_cast
    rfl

end Sys2Proof.Machine
end

section
/-! The NaNs of NUM, products and sums with one and zero, and widening (40_numerics.md R125, R128, R132). -/

namespace Sys2Proof.Machine

variable {f : FloatFormat}

/-! ### What an operation gives for a NaN -/

theorem floatAdd_of_nan {x y : Nat} (h : isNaN f x = true ∨ isNaN f y = true) : floatAdd f x y = quietNaN f := by
  rcases h with h | h <;> simp [floatAdd, h]

theorem floatMul_of_nan {x y : Nat} (h : isNaN f x = true ∨ isNaN f y = true) : floatMul f x y = quietNaN f := by
  rcases h with h | h <;> simp [floatMul, h]

theorem floatConvert_of_nan {x : Nat} (h : isNaN f x = true) (g : FloatFormat) : floatConvert f g x = quietNaN g := by
  simp [floatConvert, h]

theorem floatSqrt_of_nan {x : Nat} (h : isNaN f x = true) : floatSqrt f x = quietNaN f := by
  simp [floatSqrt, h]

theorem floatLog_of_nan {x : Nat} (h : isNaN f x = true) : floatLog f x = quietNaN f := by
  simp [floatLog, h]

/-! ### No operation gives another NaN -/

/-- A result that is no NaN but the canonical one. -/
def IsCanonical (f : FloatFormat) (r : Nat) : Prop := isNaN f r = true → r = quietNaN f

theorem isCanonical_quietNaN (f : FloatFormat) : IsCanonical f (quietNaN f) := fun _ => rfl

theorem isNaN_withSign_of_le {p : Nat} (s : Bool) (hp : p ≤ infinityPattern f) : isNaN f (withSign f s p) = false := by
  rw [← Bool.not_eq_true, isNaN_iff, withSign_mod, Nat.mod_eq_of_lt (hp.trans_lt (infinityPattern_lt f))]
  omega

theorem isCanonical_withSign {p : Nat} (s : Bool) (hp : p ≤ infinityPattern f) : IsCanonical f (withSign f s p) := by
  intro h
  rw [isNaN_withSign_of_le s hp] at h
  contradiction

theorem isCanonical_roundTo (neg : Bool) (mag extra : Nat) : IsCanonical f (roundTo f neg mag extra) :=
  isCanonical_withSign neg (min_le_left _ _)

theorem isNaN_of_isInfinite {x : Nat} (h : isInfinite f x = true) : isNaN f x = false := by
  rw [isInfinite_iff] at h
  rw [← Bool.not_eq_true, isNaN_iff]
  omega

theorem isCanonical_of_isInfinite {x : Nat} (h : isInfinite f x = true) : IsCanonical f x := by
  intro hn
  rw [isNaN_of_isInfinite h] at hn
  contradiction

theorem isCanonical_floatAdd (x y : Nat) : IsCanonical f (floatAdd f x y) := by
  unfold floatAdd
  split_ifs with hn hi hs hx hy
  · exact isCanonical_quietNaN f
  · exact isCanonical_of_isInfinite (Bool.and_eq_true_iff.mp hi).1
  · exact isCanonical_quietNaN f
  · exact isCanonical_of_isInfinite hx
  · exact isCanonical_of_isInfinite hy
  · exact isCanonical_roundTo _ _ _

theorem isCanonical_floatMul (x y : Nat) : IsCanonical f (floatMul f x y) := by
  unfold floatMul
  split_ifs
  · exact isCanonical_quietNaN f
  · exact isCanonical_quietNaN f
  · exact isCanonical_withSign _ le_rfl
  · exact isCanonical_roundTo _ _ _

theorem isCanonical_floatConvert (g : FloatFormat) (x : Nat) : IsCanonical g (floatConvert f g x) := by
  unfold floatConvert
  split_ifs
  · exact isCanonical_quietNaN g
  · exact isCanonical_withSign _ le_rfl
  · exact isCanonical_roundTo _ _ _

theorem isNaN_floatConvert (g : FloatFormat) {x : Nat} (h : isNaN f x = false) :
    isNaN g (floatConvert f g x) = false := by
  unfold floatConvert
  rw [h, if_neg Bool.false_ne_true]
  split_ifs
  · exact isNaN_withSign_of_le _ le_rfl
  · exact isNaN_withSign_of_le _ (min_le_left _ _)

/-- The operand that `a_sqrt` and `a_log` give back is no NaN: this is asked first. -/
theorem isCanonical_of_not_isNaN {x : Nat} (h : ¬ isNaN f x = true) : IsCanonical f x := fun hn => absurd hn h

theorem isCanonical_floatSqrt (x : Nat) : IsCanonical f (floatSqrt f x) := by
  unfold floatSqrt
  split_ifs with hn
  · exact isCanonical_quietNaN f
  · exact isCanonical_of_not_isNaN hn
  · exact isCanonical_quietNaN f
  · exact isCanonical_of_not_isNaN hn
  · exact isCanonical_roundTo _ _ _

theorem isCanonical_floatLog (x : Nat) : IsCanonical f (floatLog f x) := by
  unfold floatLog
  split_ifs with hn
  · exact isCanonical_quietNaN f
  · exact isCanonical_withSign _ le_rfl
  · exact isCanonical_quietNaN f
  · exact isCanonical_of_not_isNaN hn
  · exact isCanonical_withSign false (Nat.zero_le _)
  · exact isCanonical_roundTo _ _ _

/-- The bits of a pattern are all that a NaN test reads. -/
theorem isNaN_mod_two_pow_succ (f : FloatFormat) (n : Nat) :
    isNaN f (n % 2 ^ (f.expBits + f.fracBits + 1)) = isNaN f n := by
  rw [Bool.eq_iff_iff, isNaN_iff, isNaN_iff, Nat.mod_mod_of_dvd _ (pow_dvd_pow 2 (Nat.le_succ _))]

theorem ofNat_half_eq_of_isNaN {n : Nat} (hc : IsCanonical formatH n)
    (h : isNaN formatH (BitVec.ofNat 16 n).toNat = true) : BitVec.ofNat 16 n = 0x7E00#16 := by
  rw [hc ((isNaN_mod_two_pow_succ formatH n).symm.trans h)]
  rfl

theorem ofNat_accum_eq_of_isNaN {n : Nat} (hc : IsCanonical formatA n)
    (h : isNaN formatA (BitVec.ofNat 32 n).toNat = true) : BitVec.ofNat 32 n = 0x7FC00000#32 := by
  rw [hc ((isNaN_mod_two_pow_succ formatA n).symm.trans h)]
  rfl

theorem halfSub_eq_of_isNaN {x y : Half} (h : halfIsNaN (halfSub x y) = true) : halfSub x y = 0x7E00#16 := by
  unfold halfSub at h ⊢
  split at h
  · rename_i hn
    rw [if_pos hn]
    rfl
  · rename_i hn
    rw [if_neg hn]
    exact ofNat_half_eq_of_isNaN (isCanonical_floatAdd _ _) h

theorem halfSub_of_nan {x y : Half} (h : halfIsNaN x = true ∨ halfIsNaN y = true) : halfSub x y = 0x7E00#16 := by
  rw [halfSub, if_pos (by simpa using h)]
  rfl

theorem accOfHalf_eq_quietNaN_iff (x : Half) : halfIsNaN x = true ↔ accOfHalf x = 0x7FC00000#32 := by
  constructor
  · intro h
    rw [accOfHalf, floatConvert_of_nan h]
    rfl
  · intro h
    by_contra hn
    have hc := isNaN_floatConvert (f := formatH) formatA (Bool.not_eq_true _ ▸ hn)
    have hq : isNaN formatA (accOfHalf x).toNat = true := by rw [h]; decide
    rw [accOfHalf, BitVec.toNat_ofNat] at hq
    rw [show (2 ^ 32 : Nat) = 2 ^ (formatA.expBits + formatA.fracBits + 1) from rfl, isNaN_mod_two_pow_succ, hc] at hq
    contradiction

/-- Settles O54: each operation answers the canonical NaN for a NaN operand, and in no other branch a NaN of another
pattern. -/
theorem producedNaNsAreCanonical : Obligations.ProducedNaNsAreCanonical := by
  refine ⟨fun x y => ⟨fun h => ⟨?_, halfSub_of_nan h, ?_⟩, ?_⟩, accOfHalf_eq_quietNaN_iff,
    fun x y => ⟨fun h => ⟨?_, ?_⟩, fun h => ⟨?_, ?_, ?_⟩, ?_, ?_⟩, fun x => ?_, fun x => rfl⟩
  · exact congrArg (BitVec.ofNat 16) (floatAdd_of_nan h)
  · exact congrArg (BitVec.ofNat 16) (floatMul_of_nan h)
  · simp only [List.forall_mem_cons, List.not_mem_nil, false_imp_iff, implies_true, and_true]
    exact ⟨ofNat_half_eq_of_isNaN (isCanonical_floatAdd _ _), halfSub_eq_of_isNaN,
      ofNat_half_eq_of_isNaN (isCanonical_floatMul _ _)⟩
  · exact congrArg (BitVec.ofNat 32) (floatAdd_of_nan h)
  · exact congrArg (BitVec.ofNat 32) (floatMul_of_nan h)
  · exact congrArg (BitVec.ofNat 32) (floatSqrt_of_nan h)
  · exact congrArg (BitVec.ofNat 32) (floatLog_of_nan h)
  · exact congrArg (BitVec.ofNat 16) (floatConvert_of_nan h formatH)
  · simp only [List.forall_mem_cons, List.not_mem_nil, false_imp_iff, implies_true, and_true]
    exact ⟨ofNat_accum_eq_of_isNaN (isCanonical_floatAdd _ _), ofNat_accum_eq_of_isNaN (isCanonical_floatMul _ _),
      ofNat_accum_eq_of_isNaN (isCanonical_floatSqrt _), ofNat_accum_eq_of_isNaN (isCanonical_floatLog _)⟩
  · exact ofNat_half_eq_of_isNaN (isCanonical_floatConvert _ _)
  · exact ofNat_accum_eq_of_isNaN (isCanonical_floatConvert _ _)

/-! ### Infinite operands -/

section Infinite

variable {x y : Nat} (hx : isInfinite f x = true)
include hx

theorem floatAdd_of_isInfinite_left (hy : isFinite f y = true) : floatAdd f x y = x := by
  obtain ⟨hyn, hyi⟩ := (isFinite_iff_ne f y).mp hy
  simp [floatAdd, isNaN_of_isInfinite hx, hx, hyn, hyi]

theorem floatAdd_of_isInfinite_both (hy : isInfinite f y = true) :
    floatAdd f x y = if signOf f x = signOf f y then x else quietNaN f := by
  simp [floatAdd, isNaN_of_isInfinite hx, isNaN_of_isInfinite hy, hx, hy]

theorem floatMul_of_isInfinite_left (hy : isFinite f y = true) :
    floatMul f x y =
      if isZero f y then quietNaN f else withSign f (signOf f x ^^ signOf f y) (infinityPattern f) := by
  obtain ⟨hyn, hyi⟩ := (isFinite_iff_ne f y).mp hy
  simp [floatMul, isNaN_of_isInfinite hx, hx, hyn, hyi]

theorem floatConvert_of_isInfinite (g : FloatFormat) :
    floatConvert f g x = withSign g (signOf f x) (infinityPattern g) := by
  simp [floatConvert, isNaN_of_isInfinite hx, hx]

theorem withSign_signOf_of_isInfinite (hlt : x < 2 ^ (f.expBits + f.fracBits + 1)) :
    withSign f (signOf f x) (infinityPattern f) = x := by
  rw [← (isInfinite_iff f x).mp hx, withSign_signOf hlt]

end Infinite

/-! ### Products with one and zero, sums with zero -/

/-- ONE_H is finite and its magnitude is the scale of products. -/
theorem oneH_fields : isFinite formatH oneH.toNat = true ∧ isZero formatH oneH.toNat = false ∧
    signOf formatH oneH.toNat = false ∧ magnitudeOf formatH oneH.toNat = 2 ^ formatScale formatH := by decide

theorem zeroH_fields : isFinite formatH zeroH.toNat = true ∧ isZero formatH zeroH.toNat = true ∧
    signOf formatH zeroH.toNat = false ∧ magnitudeOf formatH zeroH.toNat = 0 := by decide

theorem negZeroH_fields : isFinite formatH (0x8000#16).toNat = true ∧ signOf formatH (0x8000#16).toNat = true ∧
    scaledValue formatH (0x8000#16).toNat = 0 := by decide

/-- The sign bit of a half alone is the zero of its sign. -/
theorem and_signBit (x : Half) : x &&& 0x8000#16 = BitVec.ofNat 16 (withSign formatH (signOf formatH x.toNat) 0) := by
  apply BitVec.eq_of_toNat_eq
  rw [BitVec.toNat_and, toNat_ofNat_half (withSign_lt _ (Nat.two_pow_pos _))]
  refine (Nat.and_two_pow x.toNat 15).trans ?_
  rw [signOf, show formatH.expBits + formatH.fracBits = 15 from rfl]
  cases x.toNat.testBit 15 <;> rfl

section

variable {x : Half}

theorem halfMul_oneH (h : isInfinite formatH x.toNat = true ∨ isFinite formatH x.toNat = true) :
    halfMul x oneH = x := by
  obtain ⟨hfin, hzero, hsign, hmag⟩ := oneH_fields
  have hmul : floatMul formatH x.toNat oneH.toNat = x.toNat := by
    rcases h with hi | hx
    · rw [floatMul_of_isInfinite_left hi hfin, hzero, hsign, Bool.xor_false, if_neg Bool.false_ne_true,
        withSign_signOf_of_isInfinite hi (toNat_half_lt x)]
    · rw [floatMul_of_finite hx hfin, hsign, hmag, Bool.xor_false, roundTo_magnitudeOf formatH_proper hx (toNat_half_lt x)]
  rw [halfMul, hmul, BitVec.ofNat_toNat, BitVec.setWidth_eq]

theorem halfMul_zeroH (hx : isFinite formatH x.toNat = true) : halfMul x zeroH = x &&& 0x8000#16 := by
  obtain ⟨hfin, -, hsign, hmag⟩ := zeroH_fields
  have h0 : roundMagnitude formatH 0 (formatScale formatH) = 0 := by decide
  rw [halfMul, floatMul_of_finite hx hfin, hsign, hmag, Bool.xor_false, mul_zero, roundTo, h0, and_signBit]

theorem halfMul_zeroH_of_isInfinite (hi : isInfinite formatH x.toNat = true) : halfMul x zeroH = 0x7E00#16 := by
  obtain ⟨hfin, hzero, -, -⟩ := zeroH_fields
  rw [halfMul, floatMul_of_isInfinite_left hi hfin, if_pos hzero]
  rfl

theorem halfSub_self (hx : isFinite formatH x.toNat = true) : halfSub x x = zeroH := by
  apply BitVec.eq_of_toNat_eq
  rw [toNat_halfSub hx hx, sub_self, Bool.and_not_self]
  decide

theorem halfSub_self_of_isInfinite (hi : isInfinite formatH x.toNat = true) : halfSub x x = 0x7E00#16 := by
  have hn := isNaN_of_isInfinite hi
  rw [halfSub_of_not_nan hn hn, halfAdd, floatAdd_of_isInfinite_both hi (by rwa [isInfinite_halfNeg]), signOf_halfNeg,
    if_neg (by simp)]
  rfl

theorem halfAdd_negZero (h : isInfinite formatH x.toNat = true ∨ isFinite formatH x.toNat = true) :
    halfAdd x 0x8000#16 = x := by
  obtain ⟨hfin, hsign, hval⟩ := negZeroH_fields
  have hadd : floatAdd formatH x.toNat (0x8000#16).toNat = x.toNat := by
    rcases h with hi | hx
    · exact floatAdd_of_isInfinite_left hi hfin
    · rw [floatAdd_of_finite hx hfin, hsign, hval, add_zero, Bool.and_true,
        roundedPattern_scaledValue formatH_proper hx (toNat_half_lt x)]
  rw [halfAdd, hadd, BitVec.ofNat_toNat, BitVec.setWidth_eq]

end

/-- Settles O55: each product and sum has an exact value, which is rounded to itself. -/
theorem productsAndSumsWithOneAndZero : Obligations.ProductsAndSumsWithOneAndZero := by
  intro x hn
  have hx := isInfinite_or_isFinite hn
  refine ⟨halfMul_oneH hx, fun hi => ?_, fun hi => ⟨halfMul_zeroH_of_isInfinite hi, halfSub_self_of_isInfinite hi⟩,
    halfAdd_negZero hx⟩
  have hfin := (isFinite_iff_ne _ _).mpr ⟨hn, hi⟩
  exact ⟨halfMul_zeroH hfin, halfSub_self hfin⟩

/-! ### Widening -/

/-- The shift that makes a significand a normal one. -/
theorem exists_normal_shift {q n : Nat} (hpos : 0 < q) (hq : q < 2 * 2 ^ n) :
    ∃ s ≤ n, 2 ^ n ≤ q * 2 ^ s ∧ q * 2 ^ s < 2 * 2 ^ n := by
  have hlog : Nat.log2 q ≤ n := Nat.lt_succ_iff.mp ((Nat.log2_lt hpos.ne').mpr (by rwa [pow_succ']))
  obtain ⟨s, hs⟩ := Nat.exists_eq_add_of_le' hlog
  refine ⟨s, hs ▸ Nat.le_add_right s _, ?_, ?_⟩
  · rw [hs, pow_add, Nat.mul_comm]
    exact Nat.mul_le_mul_right _ (Nat.log2_self_le hpos.ne')
  · rw [hs, pow_add, Nat.mul_comm (2 ^ s), ← Nat.mul_assoc, ← pow_succ']
    exact Nat.mul_lt_mul_of_pos_right Nat.lt_log2_self (Nat.two_pow_pos s)

/-- A significand of at most F + 1 bits above enough dropped units is the magnitude of a pattern. -/
theorem exists_magnitudeOf_eq {q k : Nat} (hq : q < 2 * 2 ^ f.fracBits) (hk : f.fracBits ≤ k)
    (hk' : k + 2 < 2 ^ f.expBits) :
    ∃ p < infinityPattern f, magnitudeOf f p = q * 2 ^ k := by
  rcases Nat.eq_zero_or_pos q with rfl | hpos
  · refine ⟨0, Nat.mul_pos (by unfold topExponent; omega) (Nat.two_pow_pos _), by simp⟩
  · obtain ⟨s, hs, h1, h2⟩ := exists_normal_shift hpos hq
    have hlt : (k - s) * 2 ^ f.fracBits + q * 2 ^ s < infinityPattern f := by
      have : (k - s + 2) * 2 ^ f.fracBits ≤ infinityPattern f := Nat.mul_le_mul_right _ (by unfold topExponent; omega)
      rw [Nat.add_mul] at this
      omega
    refine ⟨_, hlt, ?_⟩
    rw [magnitudeOf_significand (Or.inr h1) h2.le (lt_two_pow_of_lt_infinityPattern hlt), Nat.mul_assoc, ← pow_add,
      Nat.add_sub_cancel' (by omega)]

/-- A finite half: at most eleven significant bits above fewer than 30 dropped units. -/
theorem exists_half_significand {x : Nat} (hx : isFinite formatH x = true) :
    ∃ q k, magnitudeOf formatH x = q * 2 ^ k ∧ q < 2 * 2 ^ 10 ∧ k < 30 := by
  have hlt := (isFinite_iff _ _).mp hx
  obtain ⟨k, q, e, hk, hq⟩ := exists_significand formatH (x % 2 ^ (formatH.expBits + formatH.fracBits))
  refine ⟨q, k, ?_, hq, ?_⟩
  · rw [← magnitudeOf_mod, e]
    exact magnitudeOf_significand hk hq.le (e ▸ lt_two_pow_of_lt_infinityPattern hlt)
  · rw [e, show infinityPattern formatH = 31 * 2 ^ 10 from rfl] at hlt
    rw [show formatH.fracBits = 10 from rfl] at hlt hk
    omega

/-- Every finite half stands for a number that the accumulator format has. -/
theorem exists_widened {x : Nat} (hx : isFinite formatH x = true) :
    ∃ p < infinityPattern formatA, magnitudeOf formatA p = magnitudeOf formatH x * 2 ^ 125 := by
  obtain ⟨q, k, hmag, hq, hk⟩ := exists_half_significand hx
  rw [hmag, Nat.mul_assoc, ← pow_add]
  exact exists_magnitudeOf_eq (hq.trans_le (by decide)) (show 23 ≤ k + 125 by omega) (show k + 125 + 2 < 256 by omega)

/-- The widening of a finite half: its sign, and the pattern of its magnitude. -/
theorem exists_toNat_accOfHalf {x : Half} (hx : isFinite formatH x.toNat = true) :
    ∃ p < infinityPattern formatA, magnitudeOf formatA p = magnitudeOf formatH x.toNat * 2 ^ 125 ∧
      (accOfHalf x).toNat = withSign formatA (signOf formatH x.toNat) p := by
  obtain ⟨p, hp, hmag⟩ := exists_widened hx
  refine ⟨p, hp, hmag, ?_⟩
  have hround := roundMagnitude_magnitudeOf formatA_proper hp 0
  rw [pow_zero, mul_one, hmag] at hround
  rw [accOfHalf, floatConvert_of_finite hx formatA, formatScale_formatH, formatScale_formatA,
    Nat.sub_eq_zero_of_le (show 24 ≤ 149 by decide), show 149 - 24 = 125 from rfl, roundTo, hround,
    toNat_ofNat_accum (withSign_lt _ (lt_two_pow_of_lt_infinityPattern hp))]

theorem halfOfAcc_accOfHalf (x : Half) (h : isInfinite formatH x.toNat = true ∨ isFinite formatH x.toNat = true) :
    halfOfAcc (accOfHalf x) = x := by
  apply BitVec.eq_of_toNat_eq
  rcases h with hi | hx
  · have hA := infinityPattern_lt formatA
    have e : (accOfHalf x).toNat = withSign formatA (signOf formatH x.toNat) (infinityPattern formatA) := by
      rw [accOfHalf, floatConvert_of_isInfinite hi, toNat_ofNat_accum (withSign_lt _ hA)]
    rw [halfOfAcc, e, floatConvert_of_isInfinite (isInfinite_withSign _), signOf_withSign _ hA,
      withSign_signOf_of_isInfinite hi (toNat_half_lt x), toNat_ofNat_half (toNat_half_lt x)]
  · obtain ⟨p, hp, hmag, e⟩ := exists_toNat_accOfHalf hx
    have hlt := lt_two_pow_of_lt_infinityPattern hp
    rw [toNat_halfOfAcc (e ▸ isFinite_withSign _ hp), e, scaledValue_withSign _ hlt, signOf_withSign _ hlt, hmag,
      ← roundTo_eq_roundedPattern, roundTo_magnitudeOf formatH_proper hx (toNat_half_lt x)]

theorem scaledValue_accOfHalf {x : Half} (hx : isFinite formatH x.toNat = true) :
    scaledValue formatA (accOfHalf x).toNat = scaledValue formatH x.toNat * 2 ^ (149 - 24) := by
  obtain ⟨p, hp, hmag, e⟩ := exists_toNat_accOfHalf hx
  rw [e, scaledValue_withSign _ (lt_two_pow_of_lt_infinityPattern hp), hmag, scaledValue]
  cases signOf formatH x.toNat <;> simp

/-- Settles O56: the accumulator format has a pattern for every finite half, and rounding back finds the half. -/
theorem wideningIsExact : Obligations.WideningIsExact := fun x hn =>
  ⟨halfOfAcc_accOfHalf x (isInfinite_or_isFinite hn),
    fun hi => scaledValue_accOfHalf ((isFinite_iff_ne _ _).mpr ⟨hn, hi⟩)⟩

end Sys2Proof.Machine
end

section
/-! Rounding of a number from the cell of a grid that it lies in, and the square root (40_numerics.md R130). -/

namespace Sys2Proof.Machine

variable {f : FloatFormat}

/-! ### Rounding from a cell of a grid -/

/-- Every pattern from (k + 1) * 2^F on stands for a multiple of 2^k. -/
theorem two_pow_dvd_magnitudeOf {k r : Nat} (hr : (k + 1) * 2 ^ f.fracBits ≤ r)
    (hlt : r < 2 ^ (f.expBits + f.fracBits)) :
    2 ^ k ∣ magnitudeOf f r := by
  obtain ⟨j, q, rfl, hj, hq⟩ := exists_significand f r
  have h2 : (k + 1) * 2 ^ f.fracBits < (j + 2) * 2 ^ f.fracBits := hr.trans_lt (by rw [Nat.add_mul]; omega)
  have hkj := Nat.lt_of_mul_lt_mul_right h2
  rw [magnitudeOf_significand hj hq.le hlt]
  exact (pow_dvd_pow 2 (by omega)).mul_left q

namespace RoundsTo

variable {y y' : ℝ} {p : Nat}

/-- What rounds to p is no value of the format above p. -/
theorem le_of_magnitudeOf_le {m : Nat} (h : RoundsTo f y p) (hm : m ≤ infinityPattern f) (hy : magnitudeOf f m ≤ y) :
    m ≤ p := by
  by_contra hlt
  rw [not_le] at hlt
  have hm' := hm.trans_lt (infinityPattern_lt f)
  have hb := h.below_of_lt (hlt.trans_le hm) hlt hm'
  have : (magnitudeOf f p : ℝ) < magnitudeOf f m := by exact_mod_cast magnitudeOf_lt hlt hm'
  linarith

/-- Where all middles are multiples of 2^k, a number between the same two multiples as y', and on none, rounds as y'
does. -/
theorem of_same_cell (h : RoundsTo f y' p) {k : Nat} (hk : (k + 1) * 2 ^ f.fracBits < infinityPattern f)
    (hy' : (2 ^ f.fracBits + 1) * 2 ^ k ≤ y')
    (hlo : ∀ c : Nat, (c * 2 ^ k : ℝ) ≤ 2 * y' → (c * 2 ^ k : ℝ) < 2 * y)
    (hhi : ∀ c : Nat, 2 * y' ≤ c * 2 ^ k → 2 * y < c * 2 ^ k) : RoundsTo f y p := by
  have hlt := infinityPattern_lt f
  have hF := Nat.two_pow_pos f.fracBits
  have hp : (k + 1) * 2 ^ f.fracBits + 1 ≤ p := by
    refine h.le_of_magnitudeOf_le hk (le_trans (le_of_eq ?_) hy')
    rw [Nat.succ_mul] at hk ⊢
    rw [Nat.add_assoc, magnitudeOf_significand (Or.inr (by omega)) (by omega) (by omega)]
    push_cast
    rfl
  have hmid : ∀ r, r + 1 ≤ infinityPattern f → p ≤ r + 1 →
      ∃ c : Nat, (magnitudeOf f r + magnitudeOf f (r + 1) : ℝ) = c * 2 ^ k := by
    intro r hr hpr
    have h1 : 2 ^ k ∣ magnitudeOf f r := two_pow_dvd_magnitudeOf (by omega) (by omega)
    have h2 : 2 ^ k ∣ magnitudeOf f (r + 1) := two_pow_dvd_magnitudeOf (by omega) (by omega)
    obtain ⟨c, hc⟩ := h1.add h2
    exact ⟨c, by rw [mul_comm]; exact_mod_cast hc⟩
  have habove : ∀ r, r + 1 = p → (magnitudeOf f r + magnitudeOf f p : ℝ) < 2 * y := by
    rintro r rfl
    obtain ⟨c, hc⟩ := hmid r h.le_infinity le_rfl
    rw [hc]
    exact hlo c (hc ▸ h.above r rfl)
  have hbelow : p < infinityPattern f → 2 * y < (magnitudeOf f p + magnitudeOf f (p + 1) : ℝ) := by
    intro hpi
    obtain ⟨c, hc⟩ := hmid p hpi (by omega)
    rw [hc]
    exact hhi c (hc ▸ h.below hpi)
  exact ⟨h.le_infinity, fun r e => (habove r e).le, fun r e he => absurd he (habove r e).ne, fun hpi => (hbelow hpi).le,
    fun hpi he => absurd he (hbelow hpi).ne⟩

end RoundsTo

/-! ### The integer square root -/

/-- The bits still to be found bring the root from r to less than r + 2^k. -/
theorem isqrtFrom_spec (n : Nat) : ∀ k r, r * r ≤ n → n < (r + 2 ^ k) * (r + 2 ^ k) →
    isqrtFrom k n r * isqrtFrom k n r ≤ n ∧ n < (isqrtFrom k n r + 1) * (isqrtFrom k n r + 1) := by
  intro k
  induction k with
  | zero => exact fun r h1 h2 => ⟨h1, h2⟩
  | succ k ih =>
    intro r h1 h2
    rw [isqrtFrom]
    split
    · rename_i h
      exact ih _ h (by rwa [Nat.add_assoc, ← Nat.two_mul, ← pow_succ'])
    · rename_i h
      exact ih _ h1 (by omega)

theorem isqrt_eq_sqrt (n : Nat) : isqrt n = Nat.sqrt n := by
  have hn : n < (0 + 2 ^ (Nat.log2 n / 2 + 1)) * (0 + 2 ^ (Nat.log2 n / 2 + 1)) := by
    rw [zero_add, ← pow_add]
    exact Nat.lt_log2_self.trans_le (Nat.pow_le_pow_right (by decide) (by omega))
  obtain ⟨h1, h2⟩ := isqrtFrom_spec n _ 0 (Nat.zero_le _) hn
  exact (Nat.eq_sqrt.mpr ⟨h1, h2⟩)

/-! ### The root of a positive finite value -/

/-- The integer root, twice, with one more bit that says whether it is inexact. -/
def stickyRoot (n : Nat) : Nat := 2 * Nat.sqrt n + if Nat.sqrt n * Nat.sqrt n = n then 0 else 1

/-- The sticky bit stands for the rest of the root: it lies on the same side of every even number. -/
theorem roundMagnitude_stickyRoot {n : Nat} (hn : 2 ^ 50 ≤ n) :
    RoundsTo formatA (Real.sqrt n) (roundMagnitude formatA (stickyRoot n) 1) := by
  have h := roundMagnitude_roundsTo formatA_proper (stickyRoot n) 1
  have hroot : ((2 ^ 25 : Nat) : ℝ) ≤ Nat.sqrt n := by exact_mod_cast Nat.le_sqrt.mpr hn
  by_cases he : Nat.sqrt n * Nat.sqrt n = n
  · have e : ((stickyRoot n : Nat) / 2 ^ 1 : ℝ) = Real.sqrt n := by
      rw [stickyRoot, if_pos he, ← he, Nat.cast_mul, Real.sqrt_mul_self (by positivity), he]
      push_cast
      ring
    rwa [e] at h
  · have hy : ((stickyRoot n : Nat) / 2 ^ 1 : ℝ) = Nat.sqrt n + 1 / 2 := by
      rw [stickyRoot, if_neg he]
      push_cast
      ring
    have hlo : (Nat.sqrt n : ℝ) < Real.sqrt n := by
      rw [Real.lt_sqrt (by positivity), sq]
      exact_mod_cast lt_of_le_of_ne (Nat.sqrt_le n) he
    have hhi : Real.sqrt n < Nat.sqrt n + 1 := by
      rw [Real.sqrt_lt' (by positivity), sq]
      exact_mod_cast Nat.lt_succ_sqrt n
    rw [hy] at h
    refine h.of_same_cell (k := 1) (by decide) ?_ (fun c hc => ?_) (fun c hc => ?_)
    · rw [show formatA.fracBits = 23 from rfl]
      push_cast at hroot
      linarith
    · have : c ≤ Nat.sqrt n := by
        have : (c : ℝ) < (Nat.sqrt n + 1 : Nat) := by push_cast; linarith
        exact Nat.lt_succ_iff.mp (by exact_mod_cast this)
      have : (c : ℝ) ≤ Nat.sqrt n := by exact_mod_cast this
      linarith
    · have : Nat.sqrt n + 1 ≤ c := by
        have : (Nat.sqrt n : ℝ) < c := by linarith
        exact_mod_cast this
      have : (Nat.sqrt n + 1 : ℝ) ≤ c := by exact_mod_cast this
      linarith

/-! ### The root of a positive finite value -/

theorem floatSqrt_of_pos {x : Nat} (hx : isFinite f x = true) (hz : isZero f x = false) (hs : signOf f x = false) :
    floatSqrt f x = roundTo f false (stickyRoot (magnitudeOf f x * 2 ^ formatScale f)) 1 := by
  obtain ⟨hn, hi⟩ := (isFinite_iff_ne f x).mp hx
  simp [floatSqrt, hn, hz, hs, hi, isqrt_eq_sqrt, stickyRoot]

theorem toNat_accSqrt_of_pos {x : Accum} (hx : isFinite formatA x.toNat = true) (hz : isZero formatA x.toNat = false)
    (hs : signOf formatA x.toNat = false) :
    (accSqrt x).toNat = roundMagnitude formatA (stickyRoot (magnitudeOf formatA x.toNat * 2 ^ 149)) 1 := by
  rw [accSqrt, floatSqrt_of_pos hx hz hs, formatScale_formatA, toNat_ofNat_accum (roundTo_lt _ _ _ _), roundTo, withSign,
    if_neg Bool.false_ne_true, zero_add]

/-- A number below the largest power of two of the format is not rounded to infinity. -/
theorem RoundsTo.lt_infinity {y : ℝ} {p : Nat} (hf : f.Proper) (h : RoundsTo f y p)
    (hy : 2 * y < magnitudeOf f (infinityPattern f)) : p < infinityPattern f := by
  refine lt_of_le_of_ne h.le_infinity fun e => ?_
  have h1 := (h.eq_infinity_iff hf).mp e
  have : (0 : ℝ) ≤ magnitudeOf f (infinityPattern f - 1) := by positivity
  linarith

theorem magnitudeOf_infinityPattern_formatA : magnitudeOf formatA (infinityPattern formatA) = 2 ^ 277 := by decide +kernel

/-- Settles O57: the sticky integer root is rounded as the exact root is. -/
theorem squareRootIsCorrectlyRounded : Obligations.SquareRootIsCorrectlyRounded := by
  intro x q hs hz hx hq
  have hfin := isFinite_of_lt hx
  have hpos : 0 < magnitudeOf formatA x.toNat := by simpa [isZero, Nat.pos_iff_ne_zero] using hz
  have hlt := magnitudeOf_infinityPattern_formatA ▸ magnitudeOf_lt_of_isFinite hfin
  rw [show num.aSqrt x = accSqrt x from rfl, toNat_accSqrt_of_pos hfin hz hs]
  have h := roundMagnitude_stickyRoot (n := magnitudeOf formatA x.toNat * 2 ^ 149)
    ((Nat.pow_le_pow_right (by decide) (by decide)).trans (Nat.le_mul_of_pos_left _ hpos))
  rw [Nat.cast_mul, Nat.cast_pow, Nat.cast_two] at h
  have hp := h.lt_infinity formatA_proper ?_
  · exact ⟨hp, h.nearest hp hq⟩
  · have hroot : Real.sqrt (magnitudeOf formatA x.toNat * 2 ^ 149) < 2 ^ 213 := by
      rw [Real.sqrt_lt' (by positivity), ← pow_mul]
      calc (magnitudeOf formatA x.toNat : ℝ) * 2 ^ 149 < 2 ^ 277 * 2 ^ 149 := by gcongr; exact_mod_cast hlt
        _ = 2 ^ (213 * 2) := by rw [← pow_add]
    calc 2 * Real.sqrt (magnitudeOf formatA x.toNat * 2 ^ 149) < 2 * 2 ^ 213 := by gcongr
      _ = 2 ^ 214 := (pow_succ' 2 213).symm
      _ ≤ 2 ^ 277 := pow_le_pow_right₀ one_le_two (by decide)
      _ = magnitudeOf formatA (infinityPattern formatA) := by
        rw [magnitudeOf_infinityPattern_formatA, Nat.cast_pow, Nat.cast_two]

end Sys2Proof.Machine
end

section
/-! The fixed-point logarithm and its distance from the natural logarithm (40_numerics.md R130, log entry 8). -/

namespace Sys2Proof.Machine

variable {f : FloatFormat}

/-! ### The truncated series -/

theorem natCast_div_bounds (m n : Nat) :
    ((m / n : Nat) : ℝ) ≤ m / n ∧ (m / n : ℝ) ≤ (m / n : Nat) + 1 := by
  have h := Nat.lt_floor_add_one ((m : ℝ) / n)
  rw [Nat.floor_div_eq_div] at h
  exact ⟨Nat.cast_div_le, h.le⟩

/-- The sum that `atanhSeries` truncates: x/j + x w/(j + 2) + x w^2/(j + 4) + ..., of k terms. -/
noncomputable def oddSeries (k : Nat) (x w : ℝ) (j : Nat) : ℝ := ∑ i ∈ Finset.range k, x * w ^ i / (j + 2 * i)

theorem oddSeries_succ (k : Nat) (x w : ℝ) (j : Nat) :
    oddSeries (k + 1) x w j = x / j + oddSeries k (x * w) w (j + 2) := by
  rw [oddSeries, Finset.sum_range_succ', add_comm, oddSeries]
  congr 1
  · simp
  · refine Finset.sum_congr rfl fun i _ => ?_
    push_cast
    ring

/-- Each term is truncated twice, and the error of the power shrinks: at most 3 units are lost in a term. -/
theorem atanhSeries_bounds {a b : Nat} (hb : 0 < b) (hab : 9 * a ≤ b) (k : Nat) :
    ∀ (t j : Nat) (x : ℝ), 0 < j → (t : ℝ) ≤ x → x ≤ t + 2 →
      (atanhSeries k t a b j : ℝ) ≤ oddSeries k x (a / b) j ∧
        oddSeries k x (a / b) j ≤ atanhSeries k t a b j + 3 * k := by
  have hb' : (0 : ℝ) < b := by exact_mod_cast hb
  have hw0 : (0 : ℝ) ≤ a / b := by positivity
  have hw1 : (a / b : ℝ) ≤ 1 / 9 := by
    rw [div_le_div_iff₀ hb' (by norm_num)]
    exact_mod_cast (by omega : a * 9 ≤ 1 * b)
  induction k with
  | zero => intro t j x _ _ _; simp [atanhSeries, oddSeries]
  | succ k ih =>
    intro t j x hj h1 h2
    obtain ⟨hp1, hp2⟩ := natCast_div_bounds (t * a) b
    obtain ⟨hd1, hd2⟩ := natCast_div_bounds t j
    have hj' : (1 : ℝ) ≤ j := by exact_mod_cast hj
    have hpow : ((t * a : Nat) / b : ℝ) = t * (a / b) := by push_cast; ring
    rw [hpow] at hp1 hp2
    have hlo : (t : ℝ) * (a / b) ≤ x * (a / b) := by gcongr
    have hhi : x * (a / b) ≤ t * (a / b) + 2 * (1 / 9) := by
      calc x * (a / b) ≤ (t + 2) * (a / b) := by gcongr
        _ = t * (a / b) + 2 * (a / b) := by ring
        _ ≤ t * (a / b) + 2 * (1 / 9) := by gcongr
    have hterm1 : (t : ℝ) / j ≤ x / j := by gcongr
    have hterm2 : x / j ≤ t / j + 2 := by
      calc x / j ≤ (t + 2) / j := by gcongr
        _ = t / j + 2 / j := by ring
        _ ≤ t / j + 2 := by gcongr; exact div_le_self (by norm_num) hj'
    obtain ⟨ih1, ih2⟩ := ih (t * a / b) (j + 2) (x * (a / b)) (by omega) (by linarith) (by linarith)
    rw [oddSeries_succ, atanhSeries]
    push_cast
    constructor <;> linarith

theorem oddSeries_eq_sum (k : Nat) (c z : ℝ) :
    oddSeries k (c * z) (z * z) 1 = c * ∑ i ∈ Finset.range k, z ^ (2 * i + 1) / (2 * i + 1) := by
  rw [oddSeries, Finset.mul_sum]
  refine Finset.sum_congr rfl fun i _ => ?_
  rw [pow_succ, pow_mul, sq]
  push_cast
  ring

/-- 64 terms leave less than one unit: the fixed-point inverse hyperbolic tangent is too small, by at most 193 units. -/
theorem atanhFixed_bounds {a b : Nat} (hb : 0 < b) (hab : 3 * a ≤ b) :
    (2 * atanhFixed a b : ℝ) ≤ 2 ^ 192 * Real.log ((b + a) / (b - a)) ∧
      2 ^ 192 * Real.log ((b + a) / (b - a)) ≤ 2 * atanhFixed a b + 386 := by
  have hb' : (0 : ℝ) < b := by exact_mod_cast hb
  obtain ⟨z, hz⟩ : ∃ z : ℝ, z = a / b := ⟨_, rfl⟩
  have hz0 : 0 ≤ z := by rw [hz]; positivity
  have hz1 : z ≤ 1 / 3 := by
    rw [hz, div_le_div_iff₀ hb' (by norm_num)]
    exact_mod_cast (by omega : a * 3 ≤ 1 * b)
  have hlog : Real.log ((b + a) / (b - a)) = 2 * (1 / 2 * Real.log ((1 + z) / (1 - z))) := by
    have ha : (a : ℝ) = z * b := by rw [hz, div_mul_cancel₀ _ hb'.ne']
    rw [ha, ← mul_div_mul_right (1 + z) (1 - z) hb'.ne']
    ring_nf
  have hlo := Real.sum_range_le_log_div hz0 (by linarith) lnTerms
  have hhi := Real.log_div_le_sum_range_add hz0 (by linarith) lnTerms
  have htail : z ^ (2 * lnTerms + 1) / (1 - z ^ 2) ≤ 1 / 2 ^ 192 := by
    calc z ^ (2 * lnTerms + 1) / (1 - z ^ 2) ≤ (1 / 3) ^ (2 * lnTerms + 1) / (1 - (1 / 3) ^ 2) := by
          gcongr
      _ ≤ 1 / 2 ^ 192 := by norm_num [lnTerms]
  obtain ⟨ht1, ht2⟩ := natCast_div_bounds (a * 2 ^ lnPrecision) b
  have hstart : ((a * 2 ^ lnPrecision : Nat) / b : ℝ) = 2 ^ 192 * z := by
    rw [hz, lnPrecision]
    push_cast
    ring
  rw [hstart] at ht1 ht2
  have hseries := atanhSeries_bounds (a := a * a) (b := b * b) (Nat.mul_pos hb hb) (by nlinarith) lnTerms
    (a * 2 ^ lnPrecision / b) 1 (2 ^ 192 * z) one_pos ht1 (by linarith)
  have hw : ((a * a : Nat) / (b * b : Nat) : ℝ) = z * z := by
    rw [hz]
    push_cast
    exact (div_mul_div_comm _ _ _ _).symm
  rw [hw, oddSeries_eq_sum] at hseries
  obtain ⟨h1, h2⟩ := hseries
  rw [hlog, show atanhFixed a b = atanhSeries lnTerms (a * 2 ^ lnPrecision / b) (a * a) (b * b) 1 from rfl]
  have hlo' := mul_le_mul_of_nonneg_left hlo (show (0 : ℝ) ≤ 2 ^ 192 by positivity)
  have hhi' := mul_le_mul_of_nonneg_left (hhi.trans (add_le_add_right htail _)) (show (0 : ℝ) ≤ 2 ^ 192 by positivity)
  rw [mul_add, mul_one_div_cancel (by positivity)] at hhi'
  have h192 : (3 * lnTerms : ℝ) = 192 := by norm_num [lnTerms]
  rw [h192] at h2
  constructor <;> linarith

theorem ln2Fixed_close : |(ln2Fixed : ℝ) - 2 ^ 192 * Real.log 2| ≤ 386 := by
  obtain ⟨h1, h2⟩ := atanhFixed_bounds (a := 1) (b := 3) (by decide) (by decide)
  rw [show (((3 : Nat) : ℝ) + (1 : Nat)) / ((3 : Nat) - (1 : Nat)) = 2 by norm_num] at h1 h2
  rw [ln2Fixed, abs_le]
  push_cast
  constructor <;> linarith

/-! ### The logarithm of a magnitude -/

theorem lnExponent_bounds {mag : Nat} (h : 0 < mag) :
    3 * 2 ^ lnExponent mag ≤ 4 * mag ∧ 2 * mag < 3 * 2 ^ lnExponent mag := by
  have h1 := Nat.log2_self_le h.ne'
  have h2 := Nat.lt_log2_self (n := mag)
  rw [pow_succ] at h2
  unfold lnExponent
  split
  · rw [pow_succ]
    omega
  · omega

/-- The logarithm of w = mag / p in [3/4, 3/2), in units of 2^-lnPrecision. -/
def lnReduced (mag p : Nat) : Int :=
  if p ≤ mag then 2 * (atanhFixed (mag - p) (mag + p) : Int) else -(2 * (atanhFixed (p - mag) (mag + p) : Int))

theorem lnFixed_eq (mag scale : Nat) :
    lnFixed mag scale = ((lnExponent mag : Int) - scale) * ln2Fixed + lnReduced mag (2 ^ lnExponent mag) := rfl

theorem lnReduced_close {mag p : Nat} (hmag : 0 < mag) (h1 : 3 * p ≤ 4 * mag) (h2 : 2 * mag < 3 * p) :
    |(lnReduced mag p : ℝ) - 2 ^ 192 * Real.log (mag / p)| ≤ 386 := by
  have hp : 0 < p := by omega
  unfold lnReduced
  split
  · rename_i h
    have e : (((mag + p : Nat) : ℝ) + (mag - p : Nat)) / ((mag + p : Nat) - (mag - p : Nat)) = mag / p := by
      push_cast [Nat.cast_sub h]
      rw [← mul_div_mul_right (mag : ℝ) p two_ne_zero]
      ring_nf
    obtain ⟨hlo, hhi⟩ := atanhFixed_bounds (a := mag - p) (b := mag + p) (by omega) (by omega)
    rw [e] at hlo hhi
    rw [abs_le]
    push_cast
    constructor <;> linarith
  · rename_i h
    rw [not_le] at h
    have e : (((mag + p : Nat) : ℝ) + (p - mag : Nat)) / ((mag + p : Nat) - (p - mag : Nat)) = (mag / p : ℝ)⁻¹ := by
      push_cast [Nat.cast_sub h.le]
      rw [inv_div, ← mul_div_mul_right (p : ℝ) mag two_ne_zero]
      ring_nf
    obtain ⟨hlo, hhi⟩ := atanhFixed_bounds (a := p - mag) (b := mag + p) (by omega) (by omega)
    rw [e, Real.log_inv] at hlo hhi
    rw [abs_le]
    push_cast
    constructor <;> linarith

/-- The exact logarithm, split as `lnFixed` splits it. -/
theorem log_div_two_pow {mag : Nat} (hmag : 0 < mag) (e scale : Nat) :
    Real.log (mag / 2 ^ scale) = ((e : ℝ) - scale) * Real.log 2 + Real.log (mag / 2 ^ e) := by
  have h : (0 : ℝ) < mag := by exact_mod_cast hmag
  rw [Real.log_div h.ne' (by positivity), Real.log_div h.ne' (by positivity), Real.log_pow, Real.log_pow]
  ring

/-- The error of `lnFixed`: 386 units for each ln 2 and for the reduced part. -/
theorem lnFixed_close {mag : Nat} (hmag : 0 < mag) (scale : Nat) :
    |(lnFixed mag scale : ℝ) - 2 ^ 192 * Real.log (mag / 2 ^ scale)| ≤ (|(lnExponent mag : ℝ) - scale| + 1) * 386 := by
  obtain ⟨h1, h2⟩ := lnExponent_bounds hmag
  have hred := lnReduced_close hmag h1 h2
  have hsplit : (lnFixed mag scale : ℝ) - 2 ^ 192 * Real.log (mag / 2 ^ scale) =
      ((lnExponent mag : ℝ) - scale) * (ln2Fixed - 2 ^ 192 * Real.log 2) +
        (lnReduced mag (2 ^ lnExponent mag) - 2 ^ 192 * Real.log (mag / (2 ^ lnExponent mag : Nat))) := by
    rw [lnFixed_eq, log_div_two_pow hmag (lnExponent mag) scale]
    push_cast
    ring
  rw [hsplit, add_mul, one_mul]
  refine (abs_add_le _ _).trans (add_le_add ?_ hred)
  rw [abs_mul]
  exact mul_le_mul_of_nonneg_left ln2Fixed_close (abs_nonneg _)

theorem lnFixed_close_of_lt {mag : Nat} (hmag : 0 < mag) (hlt : mag < 2 ^ 277) :
    |(lnFixed mag 149 : ℝ) - 2 ^ 192 * Real.log (mag / 2 ^ 149)| ≤ 2 ^ 16 := by
  have he : lnExponent mag ≤ 277 := by
    obtain ⟨h1, -⟩ := lnExponent_bounds hmag
    by_contra h
    have := Nat.pow_le_pow_right (n := 2) (by decide) (not_le.mp h)
    omega
  have habs : |(lnExponent mag : ℝ) - (149 : Nat)| ≤ 149 := by
    have : (lnExponent mag : ℝ) ≤ 277 := by exact_mod_cast he
    have : (0 : ℝ) ≤ lnExponent mag := by positivity
    rw [abs_le]
    push_cast
    constructor <;> linarith
  have := lnFixed_close hmag 149
  push_cast at this habs
  linarith

/-! ### `a_log` rounds the middle of the enclosure -/

/-- A number rounded with its sign: no finite pattern of either sign is nearer. -/
theorem RoundsTo.nearest_signed {v : ℝ} {p q : Nat} {s : Bool} (h : RoundsTo f |v| p) (hp : p < infinityPattern f)
    (hs : s = true ↔ v < 0) (hq : isFinite f q = true) :
    |v - scaledValue f (withSign f s p)| ≤ |v - scaledValue f q| := by
  have hmod : |v - scaledValue f (withSign f s p)| = |(|v| - magnitudeOf f p)| := by
    rw [scaledValue_withSign s (lt_two_pow_of_lt_infinityPattern hp)]
    by_cases hv : v < 0
    · rw [if_pos (hs.mpr hv), abs_of_neg hv, ← abs_neg]
      push_cast
      congr 1
      ring
    · rw [if_neg (hs.not.mpr hv), abs_of_nonneg (not_lt.mp hv), Int.cast_natCast]
  have hq' : (magnitudeOf f q : ℝ) = |(scaledValue f q : ℝ)| := by
    rw [← Int.cast_abs, Int.abs_eq_natAbs, natAbs_scaledValue, Int.cast_natCast]
  have hnear := h.nearest hp ((isFinite_iff f q).mp hq)
  rw [magnitudeOf_mod, hq'] at hnear
  rw [hmod]
  exact hnear.trans (abs_abs_sub_abs_le_abs_sub _ _)

/-- The integer that `a_log` rounds, in units of 2^-193: the middle between `lnFixed` and the next unit. -/
def lnMiddle (mag : Nat) : Int := 2 * lnFixed mag 149 + 1

/-- The magnitude of `a_log`. -/
def lnRounded (mag : Nat) : Nat := roundMagnitude formatA (lnMiddle mag).natAbs 44

theorem cast_natAbs_div (v : Int) (e : Nat) : (v.natAbs / 2 ^ e : ℝ) = |(v / 2 ^ e : ℝ)| := by
  rw [abs_div, abs_of_pos (show (0 : ℝ) < 2 ^ e by positivity), Nat.cast_natAbs, Int.cast_abs]

theorem cast_div_neg_iff (v : Int) (e : Nat) : (v / 2 ^ e : ℝ) < 0 ↔ v < 0 := by
  simp [div_lt_iff₀]

theorem lnRounded_roundsTo (mag : Nat) : RoundsTo formatA |(lnMiddle mag / 2 ^ 44 : ℝ)| (lnRounded mag) := by
  rw [← cast_natAbs_div]
  exact roundMagnitude_roundsTo formatA_proper _ _

/-- The middle, in units of the subnormal spacing 2^-149, is close to the exact logarithm. -/
theorem lnMiddle_close {mag : Nat} (hmag : 0 < mag) (hlt : mag < 2 ^ 277) :
    |(lnMiddle mag / 2 ^ 44 : ℝ) - Real.log (mag / 2 ^ 149) * 2 ^ 149| ≤ 1 / 2 ^ 26 := by
  have h := abs_le.mp (lnFixed_close_of_lt hmag hlt)
  obtain ⟨h1, h2⟩ := h
  rw [lnMiddle, abs_le]
  push_cast
  constructor <;> linarith

theorem abs_log_div_two_pow_le {mag : Nat} (hmag : 0 < mag) (hlt : mag < 2 ^ 277) :
    |Real.log (mag / 2 ^ 149)| ≤ 277 := by
  have hm : (1 : ℝ) ≤ mag := by exact_mod_cast hmag
  have h0 : 0 ≤ Real.log mag := Real.log_nonneg hm
  have h1 : Real.log mag ≤ 277 * Real.log 2 := by
    have h := Real.log_le_log (by positivity) (show (mag : ℝ) ≤ 2 ^ 277 by exact_mod_cast hlt.le)
    rw [Real.log_pow] at h
    exact_mod_cast h
  have h2 := Real.log_two_lt_d9
  have h3 := Real.log_pos one_lt_two
  rw [Real.log_div (by positivity) (by positivity), Real.log_pow, abs_le]
  push_cast
  constructor <;> linarith

theorem lnRounded_lt_infinity {mag : Nat} (hmag : 0 < mag) (hlt : mag < 2 ^ 277) :
    lnRounded mag < infinityPattern formatA := by
  refine (lnRounded_roundsTo mag).lt_infinity formatA_proper ?_
  have hc := abs_le.mp (lnMiddle_close hmag hlt)
  have hl := abs_le.mp (abs_log_div_two_pow_le hmag hlt)
  have hbound : |(lnMiddle mag / 2 ^ 44 : ℝ)| ≤ 2 ^ 160 := by
    rw [abs_le]
    constructor <;> linarith
  calc 2 * |(lnMiddle mag / 2 ^ 44 : ℝ)| ≤ 2 * 2 ^ 160 := by gcongr
    _ = 2 ^ 161 := (pow_succ' 2 160).symm
    _ < 2 ^ 277 := pow_lt_pow_right₀ one_lt_two (by decide)
    _ = magnitudeOf formatA (infinityPattern formatA) := by
      rw [magnitudeOf_infinityPattern_formatA, Nat.cast_pow, Nat.cast_two]

theorem floatLog_of_pos {x : Nat} (hx : isFinite f x = true) (hz : isZero f x = false) (hs : signOf f x = false) :
    floatLog f x = if magnitudeOf f x = 2 ^ formatScale f then 0 else
      roundTo f (decide (2 * lnFixed (magnitudeOf f x) (formatScale f) + 1 < 0))
        (2 * lnFixed (magnitudeOf f x) (formatScale f) + 1).natAbs (lnPrecision + 1 - formatScale f) := by
  obtain ⟨hn, hi⟩ := (isFinite_iff_ne f x).mp hx
  simp [floatLog, hn, hz, hs, hi]

/-- What is nearest to v is nearest to a number close to v, but for twice the distance. -/
theorem nearest_of_close {y v s t d : ℝ} (hd : |y - v| ≤ d) (h : |v - s| ≤ |v - t|) : |y - s| ≤ |y - t| + 2 * d := by
  have h1 := abs_sub_le y v s
  have h2 := abs_sub_le v y t
  rw [abs_sub_comm v y] at h2
  linarith

section

variable {x : Accum} (hx : isFinite formatA x.toNat = true) (hpos : 0 < magnitudeOf formatA x.toNat)
  (hs : signOf formatA x.toNat = false)
include hx hpos hs

/-- The logarithm of 1 is the one that `a_log` has exactly. -/
theorem accLog_of_one (h1 : magnitudeOf formatA x.toNat = 2 ^ 149) :
    (accLog x).toNat = 0 ∧
      Real.log (magnitudeOf formatA x.toNat / 2 ^ 149) * 2 ^ 149 = scaledValue formatA (accLog x).toNat := by
  have h : (accLog x).toNat = 0 := by
    rw [accLog, floatLog_of_pos hx (by simpa [isZero] using hpos.ne') hs, if_pos (by rw [h1, formatScale_formatA])]
    rfl
  refine ⟨h, ?_⟩
  rw [h, show scaledValue formatA 0 = 0 by decide, h1, Nat.cast_pow, Nat.cast_two, div_self (by positivity), Real.log_one,
    zero_mul, Int.cast_zero]

theorem toNat_accLog (h1 : magnitudeOf formatA x.toNat ≠ 2 ^ 149) :
    (accLog x).toNat = withSign formatA (decide (lnMiddle (magnitudeOf formatA x.toNat) < 0))
      (lnRounded (magnitudeOf formatA x.toNat)) := by
  rw [accLog, floatLog_of_pos hx (by simpa [isZero] using hpos.ne') hs, if_neg (by rwa [formatScale_formatA]),
    toNat_ofNat_accum (roundTo_lt _ _ _ _), formatScale_formatA]
  rfl

theorem isFinite_accLog : isFinite formatA (accLog x).toNat = true := by
  by_cases h1 : magnitudeOf formatA x.toNat = 2 ^ 149
  · rw [(accLog_of_one hx hpos hs h1).1]
    decide
  · rw [toNat_accLog hx hpos hs h1]
    exact isFinite_withSign _ (lnRounded_lt_infinity hpos
      (magnitudeOf_infinityPattern_formatA ▸ magnitudeOf_lt_of_isFinite hx))

/-- As near as any pattern, but for twice the distance of the middle from the exact logarithm. -/
theorem accLog_close {q : Nat} (hq : isFinite formatA q = true) :
    |Real.log (magnitudeOf formatA x.toNat / 2 ^ 149) * 2 ^ 149 - scaledValue formatA (accLog x).toNat| ≤
      |Real.log (magnitudeOf formatA x.toNat / 2 ^ 149) * 2 ^ 149 - scaledValue formatA q| + 1 / 2 ^ 25 := by
  by_cases h1 : magnitudeOf formatA x.toNat = 2 ^ 149
  · rw [(accLog_of_one hx hpos hs h1).2, sub_self, abs_zero]
    positivity
  · have hlt := magnitudeOf_infinityPattern_formatA ▸ magnitudeOf_lt_of_isFinite hx
    rw [toNat_accLog hx hpos hs h1]
    generalize magnitudeOf formatA x.toNat = mag at *
    have hnear := (lnRounded_roundsTo mag).nearest_signed (lnRounded_lt_infinity hpos hlt)
      ((decide_eq_true_iff (p := lnMiddle mag < 0)).trans (cast_div_neg_iff _ 44).symm) hq
    have hclose := lnMiddle_close hpos hlt
    rw [abs_sub_comm] at hclose
    exact (nearest_of_close hclose hnear).trans (by linarith)

end

/-- A distance in units of 2^-149. -/
theorem abs_sub_div (y s : ℝ) : |y - s / 2 ^ 149| = |y * 2 ^ 149 - s| / 2 ^ 149 := by
  rw [eq_div_iff (by positivity), ← abs_of_pos (show (0 : ℝ) < 2 ^ 149 by positivity), ← abs_mul, sub_mul,
    abs_of_pos (show (0 : ℝ) < 2 ^ 149 by positivity), div_mul_cancel₀ _ (by positivity)]

/-- Settles O58: the error of the series, and rounding the middle of its enclosure. -/
theorem fixedPointLogarithmIsClose : Obligations.FixedPointLogarithmIsClose := by
  refine ⟨fun mag => lnFixed_close_of_lt, fun x q h0 hx hq => ?_⟩
  have hfin := isFinite_of_lt hx
  have hpos := magnitudeOf_pos h0 hx
  have hs := signOf_of_lt hx
  refine ⟨isFinite_accLog hfin hpos hs, ?_⟩
  have h := accLog_close hfin hpos hs hq
  have h149 : (0 : ℝ) < 2 ^ 149 := by positivity
  rw [abs_sub_div, abs_sub_div, div_add' _ _ _ h149.ne', div_le_div_iff_of_pos_right h149]
  exact h.trans (by norm_num)

end Sys2Proof.Machine
end

section
/-! The logarithm of every positive finite half is correctly rounded (40_numerics.md R130, 49_mfcc_extractor.md R279).
Nothing but a computation tells how near a logarithm comes to a middle between two patterns, so one stands here: for each
of the 1024 significands of a half, the logarithms of all its binades, which are ln 2 apart. -/

namespace Sys2Proof.Machine

variable {f : FloatFormat}

/-! ### Staying away from a grid -/

/-- An integer at least 2^18 away from every multiple of 2^100. -/
def IsClear (t : Int) : Prop := ∀ c : Int, 2 ^ 18 ≤ |t - c * 2 ^ 100|

theorem isClear_of_residue {t : Int} (h1 : 2 ^ 18 ≤ t % 2 ^ 100) (h2 : t % 2 ^ 100 + 2 ^ 18 ≤ 2 ^ 100) : IsClear t := by
  intro c
  have hdm := Int.mul_ediv_add_emod t (2 ^ 100)
  rcases le_or_gt c (t / 2 ^ 100) with hc | hc
  · refine le_trans ?_ (le_abs_self _)
    linarith
  · have : t / 2 ^ 100 + 1 ≤ c := hc
    refine le_trans ?_ (neg_le_abs _)
    linarith

section

variable {t : Int} (ht : IsClear t) {u w : ℝ} (hu : |u - t| < 2 ^ 18) (hw : |w - t| < 2 ^ 18)
include ht hu hw

/-- Two numbers near a clear one lie on the same side of every multiple of 2^100. -/
theorem IsClear.same_side (c : Int) :
    (c * 2 ^ 100 ≤ u → c * 2 ^ 100 < w) ∧ (u ≤ c * 2 ^ 100 → w < c * 2 ^ 100) := by
  obtain ⟨hu1, hu2⟩ := abs_lt.mp hu
  obtain ⟨hw1, hw2⟩ := abs_lt.mp hw
  have hc : (2 ^ 18 : ℝ) ≤ |(t - c * 2 ^ 100 : ℝ)| := by exact_mod_cast ht c
  rcases le_abs.mp hc with h | h
  · exact ⟨fun _ => by linarith, fun _ => by linarith⟩
  · exact ⟨fun _ => by linarith, fun _ => by linarith⟩

theorem IsClear.neg_iff : u < 0 ↔ w < 0 := by
  have h := ht.same_side hu hw 0
  rw [Int.cast_zero, zero_mul] at h
  refine ⟨fun hneg => h.2 hneg.le, fun hneg => ?_⟩
  by_contra hle
  exact absurd (h.1 (not_lt.mp hle)) hneg.le.not_gt

theorem IsClear.same_side_abs (c : Nat) :
    (c * 2 ^ 100 ≤ |u| → c * 2 ^ 100 < |w|) ∧ (|u| ≤ c * 2 ^ 100 → |w| < c * 2 ^ 100) := by
  have hpos := ht.same_side hu hw c
  have hneg := ht.same_side hu hw (-c)
  have hsign := ht.neg_iff hu hw
  push_cast at hpos hneg
  rcases lt_or_ge u 0 with h | h
  · rw [abs_of_neg h, abs_of_neg (hsign.mp h)]
    exact ⟨fun h1 => by linarith [hneg.2 (by linarith)], fun h1 => by linarith [hneg.1 (by linarith)]⟩
  · rw [abs_of_nonneg h, abs_of_nonneg (not_lt.mp (hsign.not.mp (not_lt.mpr h)))]
    exact hpos

end

/-- The same in the units of a rounding: numbers near a clear one have the same sign and lie in the same cell of width
2^58. -/
theorem IsClear.same_cell {t : Int} (ht : IsClear t) {u w : ℝ} (hu : |u * 2 ^ 43 - t| < 2 ^ 18)
    (hw : |w * 2 ^ 43 - t| < 2 ^ 18) :
    (u < 0 ↔ w < 0) ∧
      ∀ c : Nat, (c * 2 ^ 58 ≤ 2 * |u| → c * 2 ^ 58 < 2 * |w|) ∧
        (2 * |u| ≤ c * 2 ^ 58 → 2 * |w| < c * 2 ^ 58) := by
  have h43 : (0 : ℝ) < 2 ^ 43 := by positivity
  constructor
  · have h := ht.neg_iff hu hw
    exact ⟨fun hneg => by linarith [h.mp (by linarith)], fun hneg => by linarith [h.mpr (by linarith)]⟩
  · intro c
    have h := ht.same_side_abs hu hw c
    rw [abs_mul, abs_mul, abs_of_pos h43] at h
    exact ⟨fun hc => by linarith [h.1 (by linarith)], fun hc => by linarith [h.2 (by linarith)]⟩

/-! ### The computation -/

/-- Steps of ln 2 from n on, none of them within 2^18 of a multiple of 2^100. -/
def clearSteps : Nat → Nat → Bool
  | 0, _ => true
  | k + 1, n => Nat.ble (2 ^ 18) (n % 2 ^ 100) && Nat.ble (n % 2 ^ 100 + 2 ^ 18) (2 ^ 100) && clearSteps k (n + ln2Fixed)

theorem isClear_of_clearSteps {k n : Nat} (h : clearSteps k n = true) {i : Nat} (hi : i < k) (d : Int) :
    IsClear (n + i * ln2Fixed + d * 2 ^ 100) := by
  induction k generalizing n i with
  | zero => omega
  | succ k ih =>
    simp only [clearSteps, Bool.and_eq_true, Nat.ble_eq] at h
    obtain ⟨⟨h1, h2⟩, hrest⟩ := h
    cases i with
    | zero =>
      have hres : (n + (0 : Nat) * ln2Fixed + d * 2 ^ 100 : Int) % 2 ^ 100 = (n % 2 ^ 100 : Nat) := by
        rw [Nat.cast_zero, zero_mul, add_zero, Int.add_mul_emod_self_right]
        push_cast
        rfl
      exact isClear_of_residue (by rw [hres]; exact_mod_cast h1) (by rw [hres]; exact_mod_cast h2)
    | succ i =>
      have := ih hrest (Nat.lt_of_succ_lt_succ hi)
      rwa [show ((n + ln2Fixed : Nat) : Int) + i * ln2Fixed = n + (i + 1 : Nat) * ln2Fixed by push_cast; ring] at this

/-- The logarithm of the significand m * 2^-34, as far as the grid sees it. -/
def lnResidue (m : Nat) : Nat := (lnFixed m 34 % 2 ^ 100).toNat

/-- Significands other than a power of two, in 40 binades. -/
theorem clearSteps_significand : ∀ m < 1023, clearSteps 40 (lnResidue (1025 + m)) = true := by decide +kernel

/-- The powers of two but 1, whose logarithm is the only one on the grid. -/
theorem clearSteps_power_of_two :
    clearSteps 24 (lnResidue 1024) = true ∧ clearSteps 15 (lnResidue 1024 + 25 * ln2Fixed) = true := by decide +kernel

theorem lnResidue_add (m : Nat) : (lnResidue m : Int) + lnFixed m 34 / 2 ^ 100 * 2 ^ 100 = lnFixed m 34 := by
  rw [lnResidue, Int.toNat_of_nonneg (Int.emod_nonneg _ (by positivity))]
  exact Int.emod_add_ediv_mul _ _

/-- The fixed-point logarithm of m * 2^i * 2^-34, from that of the significand. -/
def lnTable (m i : Nat) : Int := lnFixed m 34 + i * ln2Fixed

theorem isClear_lnTable {m i : Nat} (h1 : 1024 ≤ m) (h2 : m < 2048) (hi : i < 40) (hne : m = 1024 → i ≠ 24) :
    IsClear (lnTable m i) := by
  have hshift : lnTable m i = lnResidue m + i * ln2Fixed + lnFixed m 34 / 2 ^ 100 * 2 ^ 100 := by
    rw [lnTable]
    linarith [lnResidue_add m]
  rw [hshift]
  rcases h1.lt_or_eq with h | rfl
  · have hm := clearSteps_significand (m - 1025) (by omega)
    rw [Nat.add_sub_cancel' h] at hm
    exact isClear_of_clearSteps hm hi _
  · obtain ⟨hlow, hhigh⟩ := clearSteps_power_of_two
    rcases lt_or_ge i 24 with hlt | hge
    · exact isClear_of_clearSteps hlow hlt _
    · obtain ⟨j, rfl⟩ := Nat.exists_eq_add_of_le (lt_of_le_of_ne hge (hne rfl).symm)
      have := isClear_of_clearSteps hhigh (i := j) (by omega) (lnFixed 1024 34 / 2 ^ 100)
      convert this using 1
      push_cast
      ring

/-! ### The enclosure of a half's logarithm -/

theorem lnTable_close {mag m i : Nat} (h1 : 1024 ≤ m) (h2 : m < 2048) (hi : i < 40) (h : mag * 2 ^ 10 = m * 2 ^ i) :
    |(lnTable m i : ℝ) - 2 ^ 192 * Real.log (mag / 2 ^ 24)| ≤ 2 ^ 16 := by
  have hm : 0 < m := by omega
  have hlog : Real.log (mag / 2 ^ 24) = Real.log (m / 2 ^ 34) + i * Real.log 2 := by
    have e : (mag / 2 ^ 24 : ℝ) = m / 2 ^ 34 * 2 ^ i := by
      have h' : (mag * 2 ^ 10 : ℝ) = m * 2 ^ i := by exact_mod_cast h
      rw [div_mul_eq_mul_div, ← h', div_eq_div_iff (by positivity) (by positivity)]
      ring
    rw [e, Real.log_mul (by positivity) (by positivity), Real.log_pow]
  have he : |(lnExponent m : ℝ) - (34 : Nat)| ≤ 34 := by
    obtain ⟨hlo, -⟩ := lnExponent_bounds hm
    have : lnExponent m ≤ 68 := by
      by_contra hgt
      have := Nat.pow_le_pow_right (n := 2) (by decide) (not_le.mp hgt)
      omega
    have : (lnExponent m : ℝ) ≤ 68 := by exact_mod_cast this
    have : (0 : ℝ) ≤ lnExponent m := by positivity
    rw [abs_le]
    push_cast
    constructor <;> linarith
  have hsig := lnFixed_close hm 34
  have hsteps : |(i : ℝ) * (ln2Fixed - 2 ^ 192 * Real.log 2)| ≤ 39 * 386 := by
    rw [abs_mul, Nat.abs_cast]
    have : (i : ℝ) ≤ 39 := by exact_mod_cast Nat.lt_succ_iff.mp hi
    exact mul_le_mul this ln2Fixed_close (abs_nonneg _) (by norm_num)
  have hsplit : (lnTable m i : ℝ) - 2 ^ 192 * Real.log (mag / 2 ^ 24) =
      (lnFixed m 34 - 2 ^ 192 * Real.log (m / 2 ^ 34)) + i * (ln2Fixed - 2 ^ 192 * Real.log 2) := by
    rw [hlog, lnTable]
    push_cast
    ring
  rw [hsplit]
  have hsig' : |(lnFixed m 34 : ℝ) - 2 ^ 192 * Real.log (m / 2 ^ 34)| ≤ 35 * 386 := hsig.trans (by linarith)
  refine (abs_add_le _ _).trans ((add_le_add hsig' hsteps).trans ?_)
  norm_num

/-- The magnitude of a positive finite half has at most eleven significant bits. -/
theorem exists_significand_binade {x : Nat} (hx : isFinite formatH x = true) (hpos : 0 < magnitudeOf formatH x) :
    ∃ m i, 1024 ≤ m ∧ m < 2048 ∧ i < 40 ∧ magnitudeOf formatH x * 2 ^ 10 = m * 2 ^ i := by
  obtain ⟨q, k, hmag, hq, hk⟩ := exists_half_significand hx
  have hq0 : 0 < q := Nat.pos_of_mul_pos_right (hmag ▸ hpos)
  obtain ⟨s, hs, h1, h2⟩ := exists_normal_shift hq0 hq
  refine ⟨q * 2 ^ s, k + (10 - s), h1, h2, by omega, ?_⟩
  rw [hmag, Nat.mul_assoc, Nat.mul_assoc, ← pow_add, ← pow_add]
  congr 2
  omega

/-- A logarithm other than 0 of a multiple of 2^-24 is at least 2^-25. -/
theorem le_abs_log {mag : Nat} (hpos : 0 < mag) (h1 : mag ≠ 2 ^ 24) : 1 / 2 ^ 25 ≤ |Real.log (mag / 2 ^ 24)| := by
  have hm : (0 : ℝ) < mag / 2 ^ 24 := by positivity
  rcases lt_or_gt_of_ne h1 with h | h
  · have hle : (mag : ℝ) + 1 ≤ 2 ^ 24 := by exact_mod_cast h
    have hlog := Real.log_le_sub_one_of_pos hm
    refine le_trans ?_ (neg_le_abs _)
    linarith
  · have hle : (2 ^ 24 + 1 : ℝ) ≤ mag := by exact_mod_cast h
    have hlog := Real.one_sub_inv_le_log_of_pos hm
    have hinv : ((mag : ℝ) / 2 ^ 24)⁻¹ ≤ 2 ^ 24 / (2 ^ 24 + 1) := by
      rw [inv_div]
      gcongr
    refine le_trans ?_ (le_abs_self _)
    have : (1 / 2 ^ 25 : ℝ) ≤ 1 - 2 ^ 24 / (2 ^ 24 + 1) := by norm_num
    linarith

/-- The middle that `a_log` rounds rounds as the exact logarithm does: both lie near the same clear number. -/
theorem lnRounded_roundsTo_exact {mag : Nat} {t : Int} (ht : IsClear t) (hmag : 0 < mag) (hlt : mag < 2 ^ 277)
    (hclose : |(t : ℝ) - 2 ^ 192 * Real.log (mag / 2 ^ 149)| ≤ 2 ^ 16)
    (hfar : 1 / 2 ^ 25 ≤ |Real.log (mag / 2 ^ 149)|) :
    RoundsTo formatA |Real.log (mag / 2 ^ 149) * 2 ^ 149| (lnRounded mag) ∧
      (lnMiddle mag < 0 ↔ Real.log (mag / 2 ^ 149) * 2 ^ 149 < 0) := by
  have hround := lnRounded_roundsTo mag
  have hmid := lnMiddle_close hmag hlt
  generalize Real.log (mag / 2 ^ 149) = y at *
  obtain ⟨hm1, hm2⟩ := abs_le.mp hmid
  obtain ⟨ht1, ht2⟩ := abs_le.mp hclose
  have hu : |(lnMiddle mag / 2 ^ 44 : ℝ) * 2 ^ 43 - t| < 2 ^ 18 := by
    rw [abs_lt]
    constructor <;> linarith
  have hw : |y * 2 ^ 149 * 2 ^ 43 - t| < 2 ^ 18 := by
    rw [abs_lt]
    constructor <;> linarith
  obtain ⟨hsign, hcell⟩ := ht.same_cell hu hw
  constructor
  · refine hround.of_same_cell (k := 58) (by decide) ?_ (fun c => (hcell c).1) (fun c => (hcell c).2)
    have h1 := abs_sub_abs_le_abs_sub (y * 2 ^ 149) (lnMiddle mag / 2 ^ 44 : ℝ)
    rw [abs_sub_comm, abs_mul, abs_of_pos (show (0 : ℝ) < 2 ^ 149 by positivity)] at h1
    rw [show formatA.fracBits = 23 from rfl]
    linarith
  · rw [← hsign, cast_div_neg_iff]

theorem accLog_nearest_of_isClear {x : Accum} (hx : isFinite formatA x.toNat = true)
    (hpos : 0 < magnitudeOf formatA x.toNat) (hs : signOf formatA x.toNat = false) {t : Int} (ht : IsClear t)
    (hclose : |(t : ℝ) - 2 ^ 192 * Real.log (magnitudeOf formatA x.toNat / 2 ^ 149)| ≤ 2 ^ 16)
    (hfar : 1 / 2 ^ 25 ≤ |Real.log (magnitudeOf formatA x.toNat / 2 ^ 149)|)
    (h1 : magnitudeOf formatA x.toNat ≠ 2 ^ 149)
    {q : Nat} (hq : isFinite formatA q = true) :
    |Real.log (magnitudeOf formatA x.toNat / 2 ^ 149) * 2 ^ 149 - scaledValue formatA (accLog x).toNat| ≤
      |Real.log (magnitudeOf formatA x.toNat / 2 ^ 149) * 2 ^ 149 - scaledValue formatA q| := by
  have hlt := magnitudeOf_infinityPattern_formatA ▸ magnitudeOf_lt_of_isFinite hx
  obtain ⟨hround, hsign⟩ := lnRounded_roundsTo_exact ht hpos hlt hclose hfar
  rw [toNat_accLog hx hpos hs h1]
  exact hround.nearest_signed (lnRounded_lt_infinity hpos hlt) (decide_eq_true_iff.trans hsign) hq

/-- The widening of a finite half without a sign is such an accumulator value, of the same number. -/
theorem accOfHalf_of_lt {x : Half} (hx : x.toNat < infinityPattern formatH) :
    isFinite formatA (accOfHalf x).toNat = true ∧ signOf formatA (accOfHalf x).toNat = false ∧
      magnitudeOf formatA (accOfHalf x).toNat = magnitudeOf formatH x.toNat * 2 ^ 125 := by
  obtain ⟨p, hp, hmag, e⟩ := exists_toNat_accOfHalf (isFinite_of_lt hx)
  rw [e, signOf_withSign _ (lt_two_pow_of_lt_infinityPattern hp), magnitudeOf_withSign]
  exact ⟨isFinite_withSign _ hp, signOf_of_lt hx, hmag⟩

theorem accLog_accOfHalf_nearest {x : Half} (h0 : 0 < x.toNat) (hx : x.toNat < infinityPattern formatH) {q : Nat}
    (hq : isFinite formatA q = true) :
    |Real.log (magnitudeOf formatH x.toNat / 2 ^ 24) * 2 ^ 149 - scaledValue formatA (accLog (accOfHalf x)).toNat| ≤
      |Real.log (magnitudeOf formatH x.toNat / 2 ^ 24) * 2 ^ 149 - scaledValue formatA q| := by
  have hpos := magnitudeOf_pos h0 hx
  obtain ⟨hfinA, hsA, hmag⟩ := accOfHalf_of_lt hx
  have hposA : 0 < magnitudeOf formatA (accOfHalf x).toNat := hmag ▸ Nat.mul_pos hpos (Nat.two_pow_pos _)
  have hvalue : (magnitudeOf formatA (accOfHalf x).toNat / 2 ^ 149 : ℝ) = magnitudeOf formatH x.toNat / 2 ^ 24 := by
    rw [hmag, div_eq_div_iff (by positivity) (by positivity)]
    push_cast
    ring
  rw [← hvalue]
  by_cases h1 : magnitudeOf formatA (accOfHalf x).toNat = 2 ^ 149
  · rw [(accLog_of_one hfinA hposA hsA h1).2, sub_self, abs_zero]
    positivity
  · have hne : magnitudeOf formatH x.toNat ≠ 2 ^ 24 := fun h => h1 (by rw [hmag, h, ← pow_add])
    obtain ⟨m, i, hm1, hm2, hi, hm⟩ := exists_significand_binade (isFinite_of_lt hx) hpos
    refine accLog_nearest_of_isClear hfinA hposA hsA (isClear_lnTable hm1 hm2 hi ?_) ?_ ?_ h1 hq
    · rintro rfl rfl
      omega
    · rw [hvalue]
      exact lnTable_close hm1 hm2 hi hm
    · rw [hvalue]
      exact le_abs_log hpos hne

/-- Settles O60: the table shows that no half's logarithm comes near a middle between two patterns, so the middle of the
enclosure rounds as the logarithm does. -/
theorem logarithmIsCorrectlyRounded : Obligations.LogarithmIsCorrectlyRounded := by
  intro x q h0 hx hq
  have hpos := magnitudeOf_pos h0 hx
  obtain ⟨hfinA, hsA, hmag⟩ := accOfHalf_of_lt hx
  refine ⟨isFinite_accLog hfinA (hmag ▸ Nat.mul_pos hpos (Nat.two_pow_pos _)) hsA, ?_⟩
  rw [abs_sub_div, abs_sub_div, div_le_div_iff_of_pos_right (by positivity)]
  exact accLog_accOfHalf_nearest h0 hx hq

end Sys2Proof.Machine
end

section
/-! The twiddle ROM (41_twiddle_rom.md R152, R153): no cosine of the quarter wave is the negative zero, so a quarter
turn is one negation; and the indices with which a strided view of the ROM is read (R155, R156). -/

namespace Sys2Proof.Machine

/-! ### Negation without a negative zero (R153) -/

theorem isZero_iff_mod (f : FloatFormat) (p : Nat) : isZero f p = true ↔ p % 2 ^ (f.expBits + f.fracBits) = 0 := by
  have hlt : p % 2 ^ (f.expBits + f.fracBits) < 2 ^ (f.expBits + f.fracBits) := Nat.mod_lt _ (Nat.two_pow_pos _)
  rw [isZero, beq_iff_eq, ← magnitudeOf_mod]
  refine ⟨fun h => Nat.eq_zero_of_not_pos fun hpos => ?_, fun h => by rw [h, magnitudeOf_zero]⟩
  have hmag := magnitudeOf_lt hpos hlt
  rw [h, magnitudeOf_zero] at hmag
  exact lt_irrefl 0 hmag

theorem isZero_half_iff (x : Half) : isZero formatH x.toNat = true ↔ x = 0x0000#16 ∨ x = 0x8000#16 := by
  rw [isZero_iff_mod]
  change x.toNat % 32768 = 0 ↔ _
  bv_omega

theorem negNonzero_eq_ite {x : Half} (h : x ≠ 0x8000#16) :
    negNonzero x = if x = 0x0000#16 then 0x0000#16 else num.hNeg x := by
  simp only [negNonzero, isZero_half_iff, h, or_false]
  rfl

theorem negNonzero_ne_negZero (x : Half) : negNonzero x ≠ 0x8000#16 := by
  by_cases hz : isZero formatH x.toNat = true
  · rw [negNonzero, if_pos hz]
    decide
  · rw [negNonzero, if_neg hz]
    intro (h : x ^^^ 0x8000#16 = 0x8000#16)
    have hx : x = 0x0000#16 := by simpa using h
    exact hz ((isZero_half_iff x).mpr (.inl hx))

theorem negNonzero_of_ne {x : Half} (h0 : x ≠ 0x0000#16) (h : x ≠ 0x8000#16) : negNonzero x = x ^^^ 0x8000#16 := by
  rw [negNonzero_eq_ite h, if_neg h0]
  rfl

theorem negNonzero_negNonzero {x : Half} (h : x ≠ 0x8000#16) : negNonzero (negNonzero x) = x := by
  by_cases h0 : x = 0x0000#16
  · subst h0
    decide
  · have hneg := negNonzero_of_ne h0 h
    have hne : negNonzero x ≠ 0x0000#16 := fun hz => h (BitVec.xor_eq_zero_iff.mp (hneg ▸ hz))
    rw [negNonzero_of_ne hne (negNonzero_ne_negZero x), hneg, BitVec.xor_assoc, BitVec.xor_self, BitVec.xor_zero]

/-! ### A quarter turn (R152, R153) -/

/-- A fact about the printed table, which only reading it shows. -/
theorem quarterCos_ne_negZero : ∀ r < 1025, quarterCos r ≠ 0x8000#16 := by decide +kernel

theorem quarterCos_sub_ne_negZero (r : Nat) : quarterCos (quarterLength - r) ≠ 0x8000#16 :=
  quarterCos_ne_negZero _ (Nat.lt_succ_of_le (Nat.sub_le quarterLength r))

theorem quarterCos_mod_ne_negZero (k : Nat) : quarterCos (k % quarterLength) ≠ 0x8000#16 :=
  quarterCos_ne_negZero _ (Nat.lt_succ_of_lt (Nat.mod_lt k (by decide)))

theorem twiddle_s_ne_negZero (k : Nat) : (twiddle k).s ≠ 0x8000#16 := by
  rw [twiddle]
  split
  · exact quarterCos_sub_ne_negZero _
  · exact quarterCos_mod_ne_negZero k
  · exact negNonzero_ne_negZero _
  · exact negNonzero_ne_negZero _

/-- The next quadrant of R153 is the one before it, turned: in the last step a negation undoes the one before. -/
theorem twiddle_add_quarterLength {k : Nat} (hk : k < 3 * quarterLength) :
    twiddle (k + quarterLength) = ⟨negNonzero (twiddle k).s, (twiddle k).c⟩ := by
  have hpos : 0 < quarterLength := by decide
  have hq : k / quarterLength < 3 := (Nat.div_lt_iff_lt_mul hpos).mpr hk
  rw [twiddle, twiddle, Nat.add_div_right k hpos, Nat.add_mod_right]
  match k / quarterLength, hq with
  | 0, _ => rfl
  | 1, _ => rfl
  | 2, _ => simp only [negNonzero_negNonzero (quarterCos_sub_ne_negZero _)]

/-- Settles O51: the negation of R153 is the stated one, as no sine is the negative zero. -/
theorem twiddleQuarterTurn : Obligations.TwiddleQuarterTurn := by
  intro k hk
  rw [← negNonzero_eq_ite (twiddle_s_ne_negZero k)]
  exact twiddle_add_quarterLength hk

/-! ### The indices of a strided view (R155, R156) -/

theorem ComplexInstance.Wf.twidCoefModifier_eq {c : ComplexInstance} (h : c.Wf) :
    c.twidCoefModifier = 4096 / c.fftLen := by
  rw [h.2]
  rfl

theorem RealInstance.Wf.rfftTwidModifier_eq {r : RealInstance} (h : r.Wf) :
    r.rfftTwidModifier = 4096 / r.fftLenRFFT := by
  rw [h.2]
  rfl

theorem two_pow_le_nmax {m : Nat} (hm : m ≤ 12) : 2 ^ m ≤ 4096 := Nat.pow_le_pow_right (by decide : 0 < 2) hm

theorem ComplexInstance.Wf.fftLen_le {c : ComplexInstance} (h : c.Wf) : c.fftLen ≤ 4096 := by
  obtain ⟨m, -, hm, hlen⟩ := exists_log_of_mem_cfftLengths h.1
  exact hlen ▸ two_pow_le_nmax hm

theorem RealInstance.Wf.fftLenRFFT_le {r : RealInstance} (h : r.Wf) : r.fftLenRFFT ≤ 4096 := by
  obtain ⟨m, -, hm, hlen⟩ := h.exists_log
  exact hlen ▸ two_pow_le_nmax hm

/-- The stage of block size 2^j reads the master ROM with stride `NMAX`/2^j, whatever the length of the instance. -/
theorem stage_stride_eq {c : ComplexInstance} (h : c.Wf) {j : Nat} (hj : 2 ^ j ≤ c.fftLen) :
    c.fftLen / 2 ^ j * c.twidCoefModifier = 4096 / 2 ^ j := by
  obtain ⟨m, -, hm, hlen⟩ := exists_log_of_mem_cfftLengths h.1
  have hjm : j ≤ m := (Nat.pow_le_pow_iff_right (by decide : 1 < 2)).mp (hlen ▸ hj)
  rw [h.twidCoefModifier_eq, hlen]
  calc 2 ^ m / 2 ^ j * (4096 / 2 ^ m)
      = 2 ^ m * 4096 / (2 ^ m * 2 ^ j) := by
        rw [Nat.div_mul_div_comm (Nat.pow_dvd_pow 2 hjm) (Nat.pow_dvd_pow (m := m) (n := 12) 2 hm), mul_comm (2 ^ j)]
    _ = 4096 / 2 ^ j := Nat.mul_div_mul_left _ _ (Nat.two_pow_pos m)

/-- An index in the first 1/d of a period of n is read in the first 1/d of the ROM. -/
theorem mul_stride_lt {nmax d n k : Nat} (hn : n ≤ nmax) (hk : k < n / d) : k * (nmax / n) < nmax / d := by
  have hnpos : 0 < n := Nat.pos_of_ne_zero fun h => by simp [h] at hk
  calc k * (nmax / n)
      < n / d * (nmax / n) := Nat.mul_lt_mul_of_pos_right hk (Nat.div_pos hn hnpos)
    _ ≤ n * nmax / (d * n) := Nat.div_mul_div_le n d nmax n
    _ = nmax / d := by rw [mul_comm d, Nat.mul_div_mul_left _ _ hnpos]

/-- Settles O52: a block size or a real length is at most `NMAX`, and an index keeps its share of the period. -/
theorem twiddleIndicesLieInTheRom : Obligations.TwiddleIndicesLieInTheRom := by
  refine ⟨fun c j k hc hj => ⟨stage_stride_eq hc hj, fun hk => ?_, fun hk => ?_⟩, fun r k hr hk => ?_⟩
  · exact mul_stride_lt (d := 2) (hj.trans hc.fftLen_le) hk
  · have hlt : k * (4096 / 2 ^ j) < 1024 := mul_stride_lt (d := 4) (hj.trans hc.fftLen_le) hk
    rw [mul_assoc]
    omega
  · rw [hr.rfftTwidModifier_eq]
    exact mul_stride_lt (d := 2) hr.fftLenRFFT_le hk

end Sys2Proof.Machine
end

section
/-! Bit reversal (42_bit_reversal_permutation.md): the function reads the bits backwards (R165), and the reordering pass
leaves at every index of the buffer what stood at the reversed one (R168). -/

namespace Sys2Proof.Machine

/-! ### The function (R165) -/

theorem testBit_bitrev {m b : Nat} (i : Nat) (hb : b < m) : (bitrev m i).testBit b = i.testBit (m - 1 - b) := by
  induction m generalizing i with
  | zero => omega
  | succ m ih =>
    rw [bitrev, mul_comm, Nat.testBit_two_pow_mul_add _ (bitrev_lt m _)]
    split
    · rename_i hbm
      rw [ih (i / 2) hbm, Nat.testBit_div_two]
      congr 1
      omega
    · obtain rfl : b = m := by omega
      simp

theorem bitrev_bitrev {m i : Nat} (hi : i < 2 ^ m) : bitrev m (bitrev m i) = i := by
  refine Nat.eq_of_testBit_eq fun b => ?_
  by_cases hb : b < m
  · rw [testBit_bitrev _ hb, testBit_bitrev _ (by omega)]
    congr 1
    omega
  · have hle : 2 ^ m ≤ 2 ^ b := Nat.pow_le_pow_right two_pos (by omega)
    rw [Nat.testBit_lt_two_pow (hi.trans_le hle), Nat.testBit_lt_two_pow ((bitrev_lt m _).trans_le hle)]

/-- Settles O40: each bit by induction on the width, the involution bit by bit. -/
theorem bitReversalReadsTheBitsBackwards : Obligations.BitReversalReadsTheBitsBackwards :=
  ⟨fun m i hi => ⟨bitrev_lt m i, fun _ hb => testBit_bitrev i hb, bitrev_bitrev hi⟩, by decide⟩

/-! ### The view of an instance (R167) -/

theorem ComplexInstance.Wf.brView_eq {c : ComplexInstance} (hc : c.Wf) {m : Nat} (hm : c.fftLen = 2 ^ m) (i : Nat) :
    brView c i = bitrev m i := by
  obtain ⟨k, -, hk, e⟩ := exists_log_of_mem_cfftLengths hc.1
  obtain rfl : m = k := Nat.pow_right_injective (le_refl 2) (hm.symm.trans e)
  rw [hc.2, hm, brView_makeCfft c.tag hk]

theorem ComplexInstance.Wf.brView_brView {c : ComplexInstance} (hc : c.Wf) {i : Nat} (hi : i < c.fftLen) :
    brView c (brView c i) = i := by
  obtain ⟨m, -, -, hm⟩ := exists_log_of_mem_cfftLengths hc.1
  rw [hc.brView_eq hm, hc.brView_eq hm, bitrev_bitrev (hm ▸ hi)]

/-! ### One exchange (R168) -/

/-- The patterns that the two parts of complex element i hold, none for a part that is not written. -/
def complexPair (m : Memory) (b i : Nat) : Option Half × Option Half :=
  (elementAt m (complexRe b i), elementAt m (complexIm b i))

theorem cget_ok_iff_complexPair (m : Memory) (b i : Nat) (z : Complex16) :
    cget m b i = .ok z ↔ complexIm b i < Config.dmemWords ∧ complexPair m b i = (some z.re, some z.im) := by
  rw [cget_ok_iff, complexPair, Prod.mk.injEq]

theorem Within.complexPair_eq {w : Nat → Prop} {m m' : Memory} (h : Within w m m') {b i : Nat}
    (hi : ∀ a, ComplexAt b i a → ¬ w a) : complexPair m' b i = complexPair m b i := by
  simp only [complexPair, h.elementAt (hi _ (Or.inl rfl)), h.elementAt (hi _ (Or.inr rfl))]

theorem complexAt_index_unique {b i j a : Nat} (hi : ComplexAt b i a) (hj : ComplexAt b j a) : i = j := by
  simp only [ComplexAt, complexRe, complexIm] at hi hj
  omega

/-- After an exchange each complex element holds what the transposed one held. -/
theorem complexPair_exchange {b i j : Nat} {m m' : Memory} (hij : i ≠ j) (h : exchange b i j m = .ok m') (k : Nat) :
    complexPair m' b k = complexPair m b (Equiv.swap i j k) := by
  have hw := exchange_within h
  simp only [exchange, bind_ok_iff] at h
  obtain ⟨x, hx, y, hy, m1, h1, h2⟩ := h
  obtain ⟨-, px⟩ := (cget_ok_iff_complexPair _ _ _ _).mp hx
  obtain ⟨-, py⟩ := (cget_ok_iff_complexPair _ _ _ _).mp hy
  by_cases hki : k = i
  · subst hki
    have hget : cget m' b k = .ok y := by rw [(cget_cput h2).2 hij, (cget_cput (j := k) h1).1]
    rw [Equiv.swap_apply_left, py, ((cget_ok_iff_complexPair _ _ _ _).mp hget).2]
  · by_cases hkj : k = j
    · subst hkj
      rw [Equiv.swap_apply_right, px, ((cget_ok_iff_complexPair _ _ _ _).mp (cget_cput (j := k) h2).1).2]
    · rw [Equiv.swap_apply_of_ne_of_ne hki hkj]
      refine hw.complexPair_eq fun a ha hor => ?_
      obtain hai | haj := hor
      · exact hki (complexAt_index_unique ha hai)
      · exact hkj (complexAt_index_unique ha haj)

/-! ### The pass (R168, R169) -/

/-- Where the content of index k comes from once the pass has visited the indices below i: an index has been exchanged
with its partner when the smaller of the two has been visited. -/
def passSource (r : Nat → Nat) (i k : Nat) : Nat := if min k (r k) < i then r k else k

/-- Visiting i changes the source of i and of its partner only. -/
theorem passSource_succ_of_ne {r : Nat → Nat} {i k : Nat} (hki : k ≠ i) (hri : r k ≠ i) :
    passSource r (i + 1) k = passSource r i k := by
  have hmin : min k (r k) < i + 1 ↔ min k (r k) < i := by omega
  simp only [passSource, hmin]

/-- A visit of i transposes i and its partner where i is the smaller of the two. -/
theorem passSource_swap {r : Nat → Nat} {i k : Nat} (hri : r (r i) = i) (hrk : r (r k) = k) (hlt : i < r i) :
    passSource r i (Equiv.swap i (r i) k) = passSource r (i + 1) k := by
  by_cases hki : k = i
  · subst hki
    simp [passSource, hri, hlt.le]
  · by_cases hkr : k = r i
    · subst hkr
      simp [passSource, hri, hlt.le]
    · rw [Equiv.swap_apply_of_ne_of_ne hki hkr, passSource_succ_of_ne hki fun e => hkr (e ▸ hrk.symm)]

/-- A visit of i does nothing where its partner is not above it. -/
theorem passSource_succ_of_le {r : Nat → Nat} {i k : Nat} (hri : r (r i) = i) (hrk : r (r k) = k) (hle : r i ≤ i) :
    passSource r (i + 1) k = passSource r i k := by
  by_cases hki : k = i
  · subst hki
    simp only [passSource]
    split <;> split <;> omega
  · by_cases hkr : r k = i
    · have hk : r i = k := hkr ▸ hrk
      simp only [passSource]
      split <;> split <;> omega
    · exact passSource_succ_of_ne hki hkr

/-- What the pass leaves at element k of the buffer is what stood at element `BR_N[k]`. -/
theorem complexPair_bitReverse {c : ComplexInstance} {b : Nat} {m m' : Memory} (hc : c.Wf)
    (h : bitReverse c b m = .ok m') {k : Nat} (hk : k < c.fftLen) :
    complexPair m' b k = complexPair m b (brView c k) := by
  have visited : ∀ j < c.fftLen, complexPair m' b j = complexPair m b (passSource (brView c) c.bitRevLength j) := by
    refine forUpTo_ok (fun i a => ∀ j < c.fftLen, complexPair a b j = complexPair m b (passSource (brView c) i j)) h
      (fun j _ => by simp [passSource]) fun i hi a d hd ih j hj => ?_
    have hri := hc.brView_brView (hc.bitRevLength_eq ▸ hi)
    have hrj := hc.brView_brView hj
    split at hd
    · rename_i hlt
      have hswap : Equiv.swap i (brView c i) j < c.fftLen := by
        rw [Equiv.swap_apply_def]
        split
        · exact hc.brView_lt i
        · split
          · exact hc.bitRevLength_eq ▸ hi
          · exact hj
      rw [complexPair_exchange hlt.ne hd, ih _ hswap, passSource_swap hri hrj hlt]
    · cases hd
      rw [ih j hj, passSource_succ_of_le hri hrj (not_lt.mp ‹_›)]
  rw [visited k hk, hc.bitRevLength_eq, passSource, if_pos (min_lt_of_left_lt hk)]

/-! ### The output orders of a transform (R169, R171) -/

theorem cget_bitReverse {c : ComplexInstance} {b : Nat} {m m' : Memory} (hc : c.Wf) (hf : Filled m b (2 * c.fftLen))
    (h : bitReverse c b m = .ok m') {k : Nat} (hk : k < c.fftLen) : cget m' b k = cget m b (brView c k) := by
  have hlt := hc.brView_lt k
  obtain ⟨z, hz⟩ := cget_completes hf (i := brView c k) (by omega)
  obtain ⟨-, hpair⟩ := (cget_ok_iff_complexPair _ _ _ _).mp hz
  have hin : complexIm b k < Config.dmemWords := by
    have := hf.1
    simp only [complexIm]
    omega
  rw [hz, cget_ok_iff_complexPair, complexPair_bitReverse hc h hk]
  exact ⟨hin, hpair⟩

/-- With `BITREV` 1 the core reorders what it leaves with `BITREV` 0 (R216). -/
theorem cfftCore_bitrev {c : ComplexInstance} {b : Nat} {inv : Bool} {m m0 m1 : Memory}
    (h0 : cfftCore c b inv false m = .ok m0) (h1 : cfftCore c b inv true m = .ok m1) :
    Filled m0 b (2 * c.fftLen) ∧ bitReverse c b m0 = .ok m1 := by
  obtain ⟨hf, n, s, hn, hs, hr⟩ := (cfftCore_ok_iff _ _ _ _ _ _).mp h0
  obtain ⟨-, n', s', hn', hs', hr'⟩ := (cfftCore_ok_iff _ _ _ _ _ _).mp h1
  cases hn.symm.trans hn'
  cases hs.symm.trans hs'
  cases hr
  exact ⟨hf.of_within (cfftCore_keeps h0), hr'⟩

/-- Settles O41: both transforms run the same stages and scaling, and the pass reads each element at its reversed
index. -/
theorem naturalOrderIsTheReversalOfTheOutput : Obligations.NaturalOrderIsTheReversalOfTheOutput := by
  intro tag k inv s t t' c m hs htag hc hm h0 h1 i hi
  rw [exec_transformCommand inv _ hs htag] at h0 h1
  obtain ⟨m0, hm0, rfl⟩ := (commit_next_iff _ _ _).mp h0
  obtain ⟨m1, hm1, rfl⟩ := (commit_next_iff _ _ _).mp h1
  obtain ⟨hf, hrev⟩ := cfftCore_bitrev hm0 hm1
  rw [← hc.brView_eq hm]
  exact cget_bitReverse hc hf hrev (hm ▸ hi)

/-! ### The pass twice (R169) -/

@[simp] theorem lowerByte_elementOfBytes (l h : Byte) : lowerByte (elementOfBytes l h) = l :=
  BitVec.extractLsb'_append_eq_right

@[simp] theorem higherByte_elementOfBytes (l h : Byte) : higherByte (elementOfBytes l h) = h :=
  BitVec.extractLsb'_append_eq_left

/-- In canonical form an element's two bytes are both written or neither is. -/
theorem Memory.isSome_bytes_iff {m : Memory} (hm : Memory.wf m = true) (a : Nat) :
    (byteAt m (2 * a)).isSome ↔ (byteAt m (2 * a + 1)).isSome := by
  obtain ⟨-, h⟩ := (Memory.wf_iff m).mp hm
  have hlow : otherByte (2 * a) = 2 * a + 1 := if_pos (by omega)
  have hhigh : otherByte (2 * a + 1) = 2 * a := if_neg (by omega)
  exact ⟨fun hs => hlow ▸ (h _ hs).2, fun hs => hhigh ▸ (h _ hs).2⟩

/-- In canonical form the bytes of an element are a function of what reading the element gives. -/
theorem Memory.bytes_eq_map_elementAt {m : Memory} (hm : Memory.wf m = true) (a : Nat) :
    byteAt m (2 * a) = (elementAt m a).map lowerByte ∧ byteAt m (2 * a + 1) = (elementAt m a).map higherByte := by
  have hboth := Memory.isSome_bytes_iff hm a
  cases hlow : byteAt m (2 * a) with
  | none =>
    have hhigh : byteAt m (2 * a + 1) = none := by simpa [hlow] using hboth
    simp [elementAt, hlow, hhigh]
  | some l =>
    obtain ⟨x, hhigh⟩ : ∃ x, byteAt m (2 * a + 1) = some x := by
      simpa [hlow, Option.isSome_iff_exists] using hboth
    simp [elementAt, hlow, hhigh]

/-- Two memories in canonical form that hold the same elements are the same data. -/
theorem Memory.ext_of_elementAt {m m' : Memory} (hm : Memory.wf m = true) (hm' : Memory.wf m' = true)
    (h : ∀ a, elementAt m a = elementAt m' a) : m = m' := by
  refine Memory.ext_of_rising ((Memory.wf_iff m).mp hm).1 ((Memory.wf_iff m').mp hm').1 fun n => ?_
  obtain ⟨hlow, hhigh⟩ := Memory.bytes_eq_map_elementAt hm (n / 2)
  obtain ⟨hlow', hhigh'⟩ := Memory.bytes_eq_map_elementAt hm' (n / 2)
  obtain e | e : n = 2 * (n / 2) ∨ n = 2 * (n / 2) + 1 := by omega
  · rw [e, hlow, hlow', h]
  · rw [e, hhigh, hhigh', h]

theorem complexPair_bitReverse_twice {c : ComplexInstance} {b : Nat} {m m' m'' : Memory} (hc : c.Wf)
    (h : bitReverse c b m = .ok m') (h' : bitReverse c b m' = .ok m'') {k : Nat} (hk : k < c.fftLen) :
    complexPair m'' b k = complexPair m b k := by
  rw [complexPair_bitReverse hc h' hk, complexPair_bitReverse hc h (hc.brView_lt k), hc.brView_brView hk]

theorem exists_complexAt_of_region {b n a : Nat} (h : Region b (2 * n) a) : ∃ k < n, ComplexAt b k a := by
  obtain ⟨hlo, hhi⟩ := h
  refine ⟨(a - b) / 2, by omega, ?_⟩
  simp only [ComplexAt, complexRe, complexIm]
  omega

/-- Settles O42: inside the buffer each element is back at its own index, outside it nothing moved, and only one
memory in canonical form holds these elements. -/
theorem reorderingTwiceRestoresTheMemory : Obligations.ReorderingTwiceRestoresTheMemory := by
  intro c b m m' m'' hc hm h h'
  have hw : Within (Region b (2 * c.fftLen)) m m'' := (bitReverse_within hc h).trans (bitReverse_within hc h')
  refine Memory.ext_of_elementAt (hw.keeps hm) hm fun a => ?_
  by_cases ha : Region b (2 * c.fftLen) a
  · obtain ⟨k, hk, hka⟩ := exists_complexAt_of_region ha
    obtain ⟨hre, him⟩ := Prod.mk.inj (complexPair_bitReverse_twice hc h h' hk)
    obtain rfl | rfl := hka
    · exact hre
    · exact him
  · exact hw.elementAt ha

end Sys2Proof.Machine
end

section
/-! Initialisation of a complex instance (45_complex_fft_engine.md R203 to R206), an initialisation performed twice
(R222), and the execute commands on a slot that does not suit them (R212). -/

namespace Sys2Proof.Machine

/-! ### Supported lengths and the fields of an instance (R203) -/

theorem mem_cfftLengths_iff (v : Nat) : v ∈ Config.cfftLengths ↔ isPow2 v = true ∧ 2 ≤ v ∧ v ≤ 4096 :=
  (cfftSupported_iff v).symm.trans (lengthSupported_iff 2 v)

theorem nmax_div_two_pow {m : Nat} (hm : m ≤ 12) : Config.nmax / 2 ^ m = 2 ^ (12 - m) :=
  Nat.pow_div (m := 12) hm two_pos

theorem reciprocalPattern_log2_two_pow (m : Nat) :
    reciprocalPattern (Nat.log2 (2 ^ m)) = BitVec.ofNat 16 ((15 - m) * 2 ^ 10) := by
  rw [reciprocalPattern, Nat.log2_two_pow, Nat.shiftLeft_eq]

/-- Settles O22, field by field of `MakeCfft`. -/
theorem complexInstanceFieldsFollowTheLength : Obligations.ComplexInstanceFieldsFollowTheLength :=
  ⟨fun v => ⟨cfftSupported_iff v, mem_cfftLengths_iff v⟩, fun _ m _ hm =>
    ⟨rfl, rfl, nmax_div_two_pow hm, nmax_div_two_pow hm, rfl, reciprocalPattern_log2_two_pow m⟩⟩

/-! ### The end of an initialisation command (60_exceptions.md R292, R293) -/

theorem finishInit_some (s : State) {k : BitVec 8} (r : Slot) (hk : k.toNat < Config.nInst) :
    finishInit s k (some r) = .next ((s.setSlot k r).setStatus statusSuccess) := if_pos hk

theorem finishInit_none (s : State) {k : BitVec 8} (hk : k.toNat < Config.nInst) :
    finishInit s k none = .next (raiseArgumentError s k) := if_pos hk

theorem makeCfftSlot_of_mem (tag : Tag) {n : Nat} (h : n ∈ Config.cfftLengths) :
    makeCfftSlot tag n = some (.cfft (makeCfft tag n)) := if_pos ((cfftSupported_iff n).mpr h)

theorem makeCfftSlot_of_not_mem (tag : Tag) {n : Nat} (h : n ∉ Config.cfftLengths) : makeCfftSlot tag n = none :=
  if_neg fun hs => h ((cfftSupported_iff n).mp hs)

theorem exec_initCommand (tag : Tag) (k : BitVec 8) (s : State) :
    exec (initCommand tag k) s = finishInit s k (makeCfftSlot tag (s.arg 0)) := by
  cases tag <;> rfl

/-- Settles O23: the two ends of an initialisation command. -/
theorem complexInitialisationCompletes : Obligations.ComplexInitialisationCompletes := by
  intro tag k s hk
  rw [exec_initCommand]
  split
  case isTrue h => rw [makeCfftSlot_of_mem tag h, finishInit_some s _ hk, statusSuccess]
  case isFalse h => rw [makeCfftSlot_of_not_mem tag h, finishInit_none s hk, raiseArgumentError, statusArgumentError]

/-! ### Once more the same (R222) -/

theorem madeSlot_congr {i : Instr} {s t : State} (h : t.args = s.args) : madeSlot i t = madeSlot i s := by
  have harg : t.arg = s.arg := by
    funext j
    rw [State.arg, State.arg, h]
  unfold madeSlot makeMfccSlot lengthArg
  rw [harg]

theorem setSlot_setStatus_twice (s : State) (k : BitVec 8) (r : Slot) (v : Word) :
    ((((s.setSlot k r).setStatus v).setSlot k r).setStatus v) = (s.setSlot k r).setStatus v := by
  simp only [State.setSlot, State.setStatus, Vector.setIfInBounds_setIfInBounds]

/-- Settles O28: the arguments are still there, so the same slot and status are stored again. -/
theorem repeatedInitialisationChangesNothing : Obligations.RepeatedInitialisationChangesNothing := by
  intro i s t hi h
  rw [exec_of_isInit t hi, madeSlot_congr (exec_args h)]
  rw [exec_of_isInit s hi] at h
  obtain ⟨hk, ⟨r, hr, rfl⟩ | ⟨hr, rfl⟩⟩ := (finishInit_next_iff _ _ _ _).mp h
  · rw [hr, finishInit_some _ r hk, setSlot_setStatus_twice]
  · rw [hr, finishInit_none _ hk]
    exact congrArg Host.Outcome.next (setSlot_setStatus_twice s i.slot .invalid statusArgumentError)

/-! ### The wrong slot (R212; 60_exceptions.md R296) -/

theorem complexInstanceOf_unsuited {tag : Tag} {r : Slot} (hr : r ≠ .invalid) (h : r.holdsComplex tag = false) :
    complexInstanceOf tag r = .error .kindMismatch := by
  cases r with
  | invalid => exact absurd rfl hr
  | cfft c => exact if_neg (of_decide_eq_false h)
  | rfft | mfcc => rfl

theorem realInstanceOf_unsuited {r : Slot} (hr : r ≠ .invalid) (h : r.holdsReal = false) :
    realInstanceOf r = .error .kindMismatch := by
  cases r with
  | invalid => exact absurd rfl hr
  | rfft => cases h
  | cfft | mfcc => rfl

theorem mfccInstanceOf_unsuited {r : Slot} (hr : r ≠ .invalid) (h : r.holdsMfcc = false) :
    mfccInstanceOf r = .error .kindMismatch := by
  cases r with
  | invalid => exact absurd rfl hr
  | mfcc => cases h
  | cfft | rfft => rfl

section
variable {s : State} {k : BitVec 8} {r : Slot} {e : Fault}

theorem complexTransform_of_error {tag : Tag} (inv br : Bool) (hs : s.slotAt k = some r)
    (h : complexInstanceOf tag r = .error e) : complexTransform tag k inv br s = .fault e := by
  simp only [complexTransform, hs, h]

theorem execRfft_of_error (inv : Bool) (hs : s.slotAt k = some r) (h : realInstanceOf r = .error e) :
    execRfft k inv s = .fault e := by
  simp only [execRfft, hs, h]

theorem execMfcc_of_error (hs : s.slotAt k = some r) (h : mfccInstanceOf r = .error e) :
    execMfcc k s = .fault e := by
  simp only [execMfcc, hs, h]

end

/-- Settles O29, command by command: each looks into its slot before anything else. -/
theorem executeOnAnUnsuitableSlotIsAViolation : Obligations.ExecuteOnAnUnsuitableSlotIsAViolation := by
  intro i s r hi hs
  cases i with
  | cfftInit | cfftR2Init | cfftR4Init | rfftInit | mfccInit => cases hi
  | cfft _ inv br | cfftR2 _ inv br | cfftR4 _ inv br =>
    exact ⟨fun hr => complexTransform_of_error inv br hs (hr ▸ rfl),
      fun hr hu => complexTransform_of_error inv br hs (complexInstanceOf_unsuited hr hu)⟩
  | rfft _ inv =>
    exact ⟨fun hr => execRfft_of_error inv hs (hr ▸ rfl),
      fun hr hu => execRfft_of_error inv hs (realInstanceOf_unsuited hr hu)⟩
  | mfcc _ =>
    exact ⟨fun hr => execMfcc_of_error hs (hr ▸ rfl), fun hr hu => execMfcc_of_error hs (mfccInstanceOf_unsuited hr hu)⟩

end Sys2Proof.Machine
end

section
/-! Operations on a buffer: what an operation does to the elements at some offsets of its buffer depends on the elements
at these offsets alone, not on the buffer's place and not on the rest of data memory (45_complex_fft_engine.md R213,
R218). Such operations compose, and those on separate offsets do not see each other (R207, 20_memory.md R75). -/

namespace Sys2Proof.Machine

/-! ### Buffers that read alike -/

/-- The buffer at b' of n reads at the offsets in w as the buffer at b of m does, range and presence included. -/
def Mirrors (w : Nat → Prop) (b : Nat) (m : Memory) (b' : Nat) (n : Memory) : Prop :=
  ∀ j, w j → memRead n (b' + j) = memRead m (b + j)

/-- The offsets of the two parts of the complex elements with the given indices. -/
def Parts (is : List Nat) : Nat → Prop := fun j => j / 2 ∈ is

theorem memRead_eq_outOfRange_iff (m : Memory) (a : Nat) : memRead m a = .error .outOfRange ↔ Config.dmemWords ≤ a := by
  unfold memRead
  split
  · cases elementAt m a <;> simp [*]
  · simp_all

theorem Within.memRead_eq {w : Nat → Prop} {m m' : Memory} (h : Within w m m') {a : Nat} (ha : ¬ w a) :
    memRead m' a = memRead m a := by
  simp only [memRead, h.elementAt ha]

theorem memRead_setElement (m : Memory) {a : Nat} (v : Half) (ha : a < Config.dmemWords) (c : Nat) :
    memRead (setElement m a v) c = if c = a then .ok v else memRead m c := by
  split
  · subst c
    exact (memRead_ok_iff _ _ _).mpr ⟨ha, elementAt_setElement_same _ _ _⟩
  · exact (setElement_within m v ha).memRead_eq ‹_›

theorem elementAt_eq_of_memRead_eq {m n : Memory} {a c : Nat} (ha : a < Config.dmemWords) (hc : c < Config.dmemWords)
    (h : memRead m a = memRead n c) : elementAt m a = elementAt n c := by
  have iff (v : Half) : elementAt m a = some v ↔ elementAt n c = some v := by
    have hm := memRead_ok_iff m a v
    have hn := memRead_ok_iff n c v
    rw [h] at hm
    simpa [ha, hc] using hm.symm.trans hn
  exact Option.ext iff

theorem Memory.elementAt_eq_none {m : Memory} (hm : Memory.wf m = true) {a : Nat} (ha : Config.dmemWords ≤ a) :
    elementAt m a = none := by
  refine Option.eq_none_iff_forall_ne_some.mpr fun v hv => ?_
  have hs : (byteAt m (2 * a)).isSome := by simp [(Memory.bytes_eq_map_elementAt hm a).1, hv]
  have := (((Memory.wf_iff m).mp hm).2 _ hs).1
  omega

/-- Two memories in canonical form that read alike are the same data. -/
theorem Memory.ext_of_memRead {m n : Memory} (hm : Memory.wf m = true) (hn : Memory.wf n = true)
    (h : ∀ a, memRead m a = memRead n a) : m = n := by
  refine Memory.ext_of_elementAt hm hn fun a => ?_
  by_cases ha : a < Config.dmemWords
  · exact elementAt_eq_of_memRead_eq ha ha (h a)
  · rw [Memory.elementAt_eq_none hm (Nat.not_lt.mp ha), Memory.elementAt_eq_none hn (Nat.not_lt.mp ha)]

section
variable {w : Nat → Prop} {b b' : Nat} {m n : Memory}

theorem Mirrors.weaken {v : Nat → Prop} (h : Mirrors w b m b' n) (hv : ∀ j, v j → w j) : Mirrors v b m b' n :=
  fun j hj => h j (hv j hj)

theorem Mirrors.lt (h : Mirrors w b m b' n) {j : Nat} (hj : w j) (hlt : b + j < Config.dmemWords) :
    b' + j < Config.dmemWords := by
  have hiff := (memRead_eq_outOfRange_iff n (b' + j)).symm.trans
    (h j hj ▸ memRead_eq_outOfRange_iff m (b + j))
  omega

end

/-! ### Operations that use some offsets of their buffer only -/

/-- An operation on the buffer at a place changes elements at the offsets in w only, and where another buffer reads alike
there it answers too and leaves it reading alike. -/
structure UsesOnly (w : Nat → Prop) (f : Nat → Memory → Except Fault Memory) : Prop where
  within : ∀ {b m m'}, f b m = .ok m' → Within (fun a => ∃ j, w j ∧ a = b + j) m m'
  mirrors : ∀ {b m m' b' n}, f b m = .ok m' → Mirrors w b m b' n → ∃ n', f b' n = .ok n' ∧ Mirrors w b m' b' n'

namespace UsesOnly

variable {w v : Nat → Prop} {f g : Nat → Memory → Except Fault Memory}

/-- What lies off the offsets of an operation reads as before it. -/
theorem memRead_eq (h : UsesOnly w f) {b : Nat} {m m' : Memory} (he : f b m = .ok m') {j : Nat} (hj : ¬ w j) :
    memRead m' (b + j) = memRead m (b + j) :=
  (h.within he).memRead_eq fun ⟨_, hw, e⟩ => hj (Nat.add_left_cancel e ▸ hw)

theorem weaken (h : UsesOnly w f) (hv : ∀ j, w j → v j) : UsesOnly v f where
  within he := (h.within he).weaken fun _ ⟨j, hj, e⟩ => ⟨j, hv j hj, e⟩
  mirrors he hm := by
    obtain ⟨n', hn', hm'⟩ := h.mirrors he (hm.weaken hv)
    refine ⟨n', hn', fun j hj => ?_⟩
    by_cases hw : w j
    · exact hm' j hw
    · rw [h.memRead_eq he hw, h.memRead_eq hn' hw, hm j hj]

theorem skip (w : Nat → Prop) : UsesOnly w (fun _ m => .ok m) where
  within he := by
    cases he
    exact Within.refl _ _
  mirrors he hm := by
    cases he
    exact ⟨_, rfl, hm⟩

theorem seq (hf : UsesOnly w f) (hg : UsesOnly w g) : UsesOnly w (fun b m => f b m >>= g b) where
  within he := by
    obtain ⟨m1, h1, h2⟩ := (bind_ok_iff _ _ _).mp he
    exact (hf.within h1).trans (hg.within h2)
  mirrors he hm := by
    obtain ⟨m1, h1, h2⟩ := (bind_ok_iff _ _ _).mp he
    obtain ⟨n1, e1, hm1⟩ := hf.mirrors h1 hm
    obtain ⟨n2, e2, hm2⟩ := hg.mirrors h2 hm1
    exact ⟨n2, by rw [bind_of_ok e1, e2], hm2⟩

theorem read {j : Nat} (hj : w j) {f : Half → Nat → Memory → Except Fault Memory} (hf : ∀ x, UsesOnly w (f x)) :
    UsesOnly w (fun b m => memRead m (b + j) >>= fun x => f x b m) where
  within he := by
    obtain ⟨x, -, h⟩ := (bind_ok_iff _ _ _).mp he
    exact (hf x).within h
  mirrors he hm := by
    obtain ⟨x, hx, h⟩ := (bind_ok_iff _ _ _).mp he
    obtain ⟨n', hn', hm'⟩ := (hf x).mirrors h hm
    exact ⟨n', by rw [bind_of_ok ((hm j hj).trans hx), hn'], hm'⟩

theorem write {j : Nat} (hj : w j) (x : Half) : UsesOnly w (fun b m => memWrite m (b + j) x) where
  within he := (memWrite_within he).weaken fun _ e => ⟨j, hj, e⟩
  mirrors {b m m' b' n} he hm := by
    obtain ⟨hlt, rfl⟩ := (memWrite_ok_iff _ _ _ _).mp he
    have hlt' := hm.lt hj hlt
    refine ⟨_, memWrite_completes n x hlt', fun i hi => ?_⟩
    simp only [memRead_setElement _ _ hlt, memRead_setElement _ _ hlt', Nat.add_left_cancel_iff, hm i hi]

theorem loop (k : Nat) {f : Nat → Nat → Memory → Except Fault Memory} (hf : ∀ i < k, UsesOnly w (f i)) :
    UsesOnly w (fun b m => forUpTo k (fun i => f i b) m) := by
  induction k with
  | zero => exact skip w
  | succ k ih => exact (ih fun i hi => hf i (Nat.lt_succ_of_lt hi)).seq (hf k (Nat.lt_succ_self k))

end UsesOnly

/-! ### Complex elements, butterflies and the exchange -/

section
variable {is : List Nat} {i : Nat}

theorem parts_re (hi : i ∈ is) : Parts is (2 * i) := by rwa [Parts, Nat.mul_div_cancel_left i two_pos]

theorem parts_im (hi : i ∈ is) : Parts is (2 * i + 1) := by rwa [Parts, show (2 * i + 1) / 2 = i by omega]

theorem Mirrors.cget {b b' : Nat} {m n : Memory} (h : Mirrors (Parts is) b m b' n) (hi : i ∈ is) :
    cget n b' i = cget m b i := by
  have hre := h (2 * i) (parts_re hi)
  have him := h (2 * i + 1) (parts_im hi)
  simp only [Machine.cget, complexRe, complexIm, ← Nat.add_assoc] at hre him ⊢
  rw [hre, him]

theorem usesOnly_cget (hi : i ∈ is) {f : Complex16 → Nat → Memory → Except Fault Memory}
    (hf : ∀ z, UsesOnly (Parts is) (f z)) : UsesOnly (Parts is) (fun b m => cget m b i >>= fun z => f z b m) where
  within he := by
    obtain ⟨z, -, h⟩ := (bind_ok_iff _ _ _).mp he
    exact (hf z).within h
  mirrors he hm := by
    obtain ⟨z, hz, h⟩ := (bind_ok_iff _ _ _).mp he
    obtain ⟨n', hn', hm'⟩ := (hf z).mirrors h hm
    exact ⟨n', by rw [bind_of_ok ((hm.cget hi).trans hz), hn'], hm'⟩

theorem usesOnly_cput (hi : i ∈ is) (z : Complex16) : UsesOnly (Parts is) (fun b m => cput m b i z) :=
  (UsesOnly.write (parts_re hi) z.re).seq (UsesOnly.write (parts_im hi) z.im)

end

theorem usesOnly_bfly2 (i0 i1 : Nat) (w : RomEntry) (inv : Bool) :
    UsesOnly (Parts [i0, i1]) (fun b => bfly2 b i0 i1 w inv) :=
  usesOnly_cget (by simp) fun _ => usesOnly_cget (by simp) fun _ =>
    (usesOnly_cput (by simp) _).seq (usesOnly_cput (by simp) _)

theorem usesOnly_bfly4 (i0 i1 i2 i3 : Nat) (w1 w2 w3 : RomEntry) (inv : Bool) :
    UsesOnly (Parts [i0, i1, i2, i3]) (fun b => bfly4 b i0 i1 i2 i3 w1 w2 w3 inv) :=
  usesOnly_cget (by simp) fun _ => usesOnly_cget (by simp) fun _ => usesOnly_cget (by simp) fun _ =>
    usesOnly_cget (by simp) fun _ => (usesOnly_cput (by simp) _).seq <| (usesOnly_cput (by simp) _).seq <|
      (usesOnly_cput (by simp) _).seq (usesOnly_cput (by simp) _)

theorem usesOnly_exchange (i j : Nat) : UsesOnly (Parts [i, j]) (fun b => exchange b i j) :=
  usesOnly_cget (by simp) fun _ => usesOnly_cget (by simp) fun _ =>
    (usesOnly_cput (by simp) _).seq (usesOnly_cput (by simp) _)

/-! ### A loop as a list of operations -/

theorem runAll_append {α : Type} (f : α → Memory → Except Fault Memory) (l l' : List α) (m : Memory) :
    runAll f (l ++ l') m = (runAll f l m >>= runAll f l') := by
  induction l generalizing m with
  | nil => rfl
  | cons x l ih =>
    rw [List.cons_append, runAll, runAll]
    cases f x m with
    | ok a => exact ih a
    | error e => rfl

theorem runAll_map {α β : Type} (f : β → Memory → Except Fault Memory) (g : α → β) (l : List α) (m : Memory) :
    runAll f (l.map g) m = runAll (fun x => f (g x)) l m := by
  induction l generalizing m with
  | nil => rfl
  | cons x l ih => simp only [List.map_cons, runAll, ih]

theorem runAll_singleton {α : Type} (f : α → Memory → Except Fault Memory) (x : α) (m : Memory) :
    runAll f [x] m = f x m := by
  rw [runAll]
  cases f x m <;> rfl

theorem forUpTo_eq_runAll (k : Nat) (f : Nat → Memory → Except Fault Memory) (m : Memory) :
    forUpTo k f m = runAll f (List.range k) m := by
  induction k with
  | zero => rfl
  | succ k ih => rw [forUpTo_succ, List.range_succ, runAll_append, ih, funext (runAll_singleton f k)]

theorem runAll_flatMap {α β : Type} (f : β → Memory → Except Fault Memory) (g : α → List β) (l : List α) (m : Memory) :
    runAll f (l.flatMap g) m = runAll (fun x => runAll f (g x)) l m := by
  induction l generalizing m with
  | nil => rfl
  | cons x l ih => simp only [List.flatMap_cons, runAll_append, runAll, funext ih]

/-- Two nested loops perform the butterflies of a stage at its places in order (R208, R209). -/
theorem forUpTo_forUpTo_eq_runAll (k l : Nat) (f : Nat × Nat → Memory → Except Fault Memory) (m : Memory) :
    forUpTo k (fun i m => forUpTo l (fun j m => f (i, j) m) m) m = runAll f (stagePlaces k l) m := by
  have inner : (fun i m => forUpTo l (fun j m => f (i, j) m) m) =
      fun i => runAll f ((List.range l).map fun j => (i, j)) := by
    funext i m
    rw [forUpTo_eq_runAll, runAll_map]
  rw [forUpTo_eq_runAll, stagePlaces, runAll_flatMap, inner]

/-! ### Operations on separate offsets -/

/-- No two operations of a list use a common offset. -/
def Separate {α : Type} (w : α → Nat → Prop) (l : List α) : Prop := l.Pairwise fun x y => ∀ j, w x j → ¬ w y j

section
variable {α : Type} {w : α → Nat → Prop} {f : α → Nat → Memory → Except Fault Memory} {l : List α} {b : Nat}
  {m m' : Memory}

theorem Separate.perm {l' : List α} (h : Separate w l) (hp : l.Perm l') : Separate w l' :=
  hp.pairwise h fun hxy j hy hx => hxy j hx hy

theorem runAll_within (hf : ∀ x, UsesOnly (w x) (f x)) (h : runAll (fun x => f x b) l m = .ok m') :
    Within (fun a => ∃ x ∈ l, ∃ j, w x j ∧ a = b + j) m m' := by
  induction l generalizing m with
  | nil =>
    cases h
    exact Within.refl _ _
  | cons x l ih =>
    obtain ⟨m1, h1, h2⟩ := (bind_ok_iff _ _ _).mp h
    exact (((hf x).within h1).weaken fun _ hj => ⟨x, List.mem_cons_self, hj⟩).trans
      ((ih h2).weaken fun _ ⟨y, hy, hj⟩ => ⟨y, List.mem_cons_of_mem x hy, hj⟩)

/-- Where operations on separate offsets answered in a row, each answers alone, and leaves alone at its offsets what the
row left there. -/
theorem runAll_each (hf : ∀ x, UsesOnly (w x) (f x)) (hl : Separate w l) (h : runAll (fun x => f x b) l m = .ok m') :
    ∀ x ∈ l, ∃ d, f x b m = .ok d ∧ Mirrors (w x) b d b m' := by
  induction l generalizing m with
  | nil => exact fun _ hx => absurd hx List.not_mem_nil
  | cons x l ih =>
    obtain ⟨m1, h1, h2⟩ := (bind_ok_iff _ _ _).mp h
    obtain ⟨hx, hl'⟩ := List.pairwise_cons.mp hl
    intro y hy
    obtain rfl | hy := List.mem_cons.mp hy
    · refine ⟨m1, h1, fun j hj => (runAll_within hf h2).memRead_eq ?_⟩
      rintro ⟨z, hz, i, hi, e⟩
      exact hx z hz j hj (Nat.add_left_cancel e ▸ hi)
    · obtain ⟨d, hd, hm⟩ := ih hl' h2 y hy
      have hsame : Mirrors (w y) b m1 b m := fun j hj => ((hf x).memRead_eq h1 fun hc => hx y hy j hc hj).symm
      obtain ⟨d', hd', hm'⟩ := (hf y).mirrors hd hsame
      exact ⟨d', hd', fun j hj => (hm j hj).trans (hm' j hj).symm⟩

/-- Operations on separate offsets of which each answers alone answer in a row. -/
theorem runAll_completes (hf : ∀ x, UsesOnly (w x) (f x)) (hl : Separate w l)
    (h : ∀ x ∈ l, ∃ d, f x b m = .ok d) : ∃ m', runAll (fun x => f x b) l m = .ok m' := by
  induction l generalizing m with
  | nil => exact ⟨m, rfl⟩
  | cons x l ih =>
    obtain ⟨hx, hl'⟩ := List.pairwise_cons.mp hl
    obtain ⟨m1, h1⟩ := h x List.mem_cons_self
    obtain ⟨m', hm'⟩ := ih hl' (m := m1) fun y hy => by
      obtain ⟨d, hd⟩ := h y (List.mem_cons_of_mem x hy)
      obtain ⟨d', hd', -⟩ := (hf y).mirrors hd (b' := b) (n := m1) fun j hj =>
        (hf x).memRead_eq h1 fun hc => hx y hy j hc hj
      exact ⟨d', hd'⟩
    exact ⟨m', by rw [runAll, bind_of_ok h1, hm']⟩

/-- Operations on separate offsets give the same memory in any order. -/
theorem runAll_perm {l' : List α} (hf : ∀ x, UsesOnly (w x) (f x)) (hl : Separate w l) (hp : l'.Perm l)
    (hm : Memory.wf m = true) (h : runAll (fun x => f x b) l m = .ok m') : runAll (fun x => f x b) l' m = .ok m' := by
  have each := runAll_each hf hl h
  have hl' := hl.perm hp.symm
  obtain ⟨m'', h''⟩ := runAll_completes hf hl' (b := b) (m := m) fun x hx => by
    obtain ⟨d, hd, -⟩ := each x (hp.mem_iff.mp hx)
    exact ⟨d, hd⟩
  have hw := runAll_within hf h
  have hw'' := runAll_within hf h''
  rw [h'', Except.ok.injEq]
  refine Memory.ext_of_memRead (hw''.keeps hm) (hw.keeps hm) fun a => ?_
  by_cases ha : ∃ x ∈ l, ∃ j, w x j ∧ a = b + j
  · obtain ⟨x, hx, j, hj, rfl⟩ := ha
    obtain ⟨d, hd, hmir⟩ := each x hx
    obtain ⟨d'', hd'', hmir''⟩ := runAll_each hf hl' h'' x (hp.mem_iff.mpr hx)
    cases hd.symm.trans hd''
    rw [hmir j hj, hmir'' j hj]
  · rw [hw.memRead_eq ha, hw''.memRead_eq fun ⟨x, hx, hj⟩ => ha ⟨x, hp.mem_iff.mp hx, hj⟩]

end

end Sys2Proof.Machine
end

section
/-! The stages and the scaling (45_complex_fft_engine.md R207 to R209, R211): their operations use separate elements, so
each can be looked at alone and their order does not matter. -/

namespace Sys2Proof.Machine

/-! ### One butterfly (43_fft_butterfly_radix2.md R182, 44_fft_butterfly_radix4.md R192) -/

theorem bfly2_ok {b i0 i1 : Nat} {w : RomEntry} {inv : Bool} {m m' : Memory} (hne : i0 ≠ i1)
    (h : bfly2 b i0 i1 w inv m = .ok m') :
    ∃ x0 x1, cget m b i0 = .ok x0 ∧ cget m b i1 = .ok x1 ∧ cget m' b i0 = .ok (bfly2Values x0 x1 w inv).1 ∧
      cget m' b i1 = .ok (bfly2Values x0 x1 w inv).2 := by
  simp only [bfly2, bind_ok_iff] at h
  obtain ⟨x0, e0, x1, e1, m1, h1, h2⟩ := h
  refine ⟨x0, x1, e0, e1, ?_, (cget_cput (j := i1) h2).1⟩
  rw [(cget_cput h2).2 hne, (cget_cput (j := i0) h1).1]

theorem bfly4_ok {b i0 i1 i2 i3 : Nat} {w1 w2 w3 : RomEntry} {inv : Bool} {m m' : Memory}
    (hne : [i0, i1, i2, i3].Nodup) (h : bfly4 b i0 i1 i2 i3 w1 w2 w3 inv m = .ok m') :
    ∃ x0 x1 x2 x3, cget m b i0 = .ok x0 ∧ cget m b i1 = .ok x1 ∧ cget m b i2 = .ok x2 ∧ cget m b i3 = .ok x3 ∧
      cget m' b i0 = .ok (bfly4Values x0 x1 x2 x3 w1 w2 w3 inv).1 ∧
      cget m' b i1 = .ok (bfly4Values x0 x1 x2 x3 w1 w2 w3 inv).2.1 ∧
      cget m' b i2 = .ok (bfly4Values x0 x1 x2 x3 w1 w2 w3 inv).2.2.1 ∧
      cget m' b i3 = .ok (bfly4Values x0 x1 x2 x3 w1 w2 w3 inv).2.2.2 := by
  simp only [bfly4, bind_ok_iff] at h
  obtain ⟨x0, e0, x1, e1, x2, e2, x3, e3, m1, h1, m2, h2, m3, h3, h4⟩ := h
  simp only [List.nodup_cons, List.mem_cons, List.not_mem_nil, or_false, not_or] at hne
  obtain ⟨⟨n01, n02, n03⟩, ⟨n12, n13⟩, n23, -⟩ := hne
  refine ⟨x0, x1, x2, x3, e0, e1, e2, e3, ?_, ?_, ?_, (cget_cput (j := i3) h4).1⟩
  · rw [(cget_cput h4).2 n03, (cget_cput h3).2 n02, (cget_cput h2).2 n01, (cget_cput (j := i0) h1).1]
  · rw [(cget_cput h4).2 n13, (cget_cput h3).2 n12, (cget_cput (j := i1) h2).1]
  · rw [(cget_cput h4).2 n23, (cget_cput (j := i2) h3).1]

/-! ### The places of a stage (R208, R209) -/

theorem mem_stagePlaces {blocks perBlock : Nat} {p : Nat × Nat} :
    p ∈ stagePlaces blocks perBlock ↔ p.1 < blocks ∧ p.2 < perBlock :=
  List.pair_mem_product.trans (and_congr List.mem_range List.mem_range)

theorem nodup_stagePlaces (blocks perBlock : Nat) : (stagePlaces blocks perBlock).Nodup :=
  List.nodup_range.product List.nodup_range

/-- An index of a block of n tells its block and its butterfly when the butterfly's indices are q apart. -/
theorem place_of_index {n q block k t : Nat} (hk : k < q) (ht : k + t * q < n) :
    ((block * n + k + t * q) / n, (block * n + k + t * q) % n % q) = (block, k) := by
  rw [Nat.add_assoc, Nat.mul_comm block, Nat.mul_add_div (by omega), Nat.mul_add_mod, Nat.div_eq_of_lt ht,
    Nat.mod_eq_of_lt ht, Nat.add_mul_mod_self_right, Nat.mod_eq_of_lt hk, Nat.add_zero]

/-- The indices that the butterfly at a place of a radix-2 stage of block size n works on. -/
def stage2Indices (n : Nat) (p : Nat × Nat) : List Nat := [p.1 * n + p.2, p.1 * n + p.2 + n / 2]

/-- The indices that the butterfly at a place of a radix-4 stage of block size n works on. -/
def stage4Indices (n : Nat) (p : Nat × Nat) : List Nat :=
  [p.1 * n + p.2, p.1 * n + p.2 + n / 4, p.1 * n + p.2 + 2 * (n / 4), p.1 * n + p.2 + 3 * (n / 4)]

theorem place_of_stage2Indices {n i : Nat} {p : Nat × Nat} (hp : p.2 < n / 2) (hi : i ∈ stage2Indices n p) :
    (i / n, i % n % (n / 2)) = p := by
  have run (t : Nat) (ht : t < 2) := place_of_index (n := n) (block := p.1) (t := t) hp (by interval_cases t <;> omega)
  simp only [stage2Indices, List.mem_cons, List.not_mem_nil, or_false] at hi
  obtain rfl | rfl := hi
  · simpa using run 0 (by decide)
  · simpa using run 1 (by decide)

theorem place_of_stage4Indices {n i : Nat} {p : Nat × Nat} (hp : p.2 < n / 4) (hi : i ∈ stage4Indices n p) :
    (i / n, i % n % (n / 4)) = p := by
  have run (t : Nat) (ht : t < 4) := place_of_index (n := n) (block := p.1) (t := t) hp (by interval_cases t <;> omega)
  simp only [stage4Indices, List.mem_cons, List.not_mem_nil, or_false] at hi
  obtain rfl | rfl | rfl | rfl := hi
  · simpa using run 0 (by decide)
  · simpa using run 1 (by decide)
  · exact run 2 (by decide)
  · exact run 3 (by decide)

/-- Butterflies whose indices tell their places are on separate elements. -/
theorem separate_stagePlaces {blocks perBlock : Nat} {is : Nat × Nat → List Nat} {place : Nat → Nat × Nat}
    (h : ∀ p : Nat × Nat, p.2 < perBlock → ∀ i ∈ is p, place i = p) :
    Separate (fun p => Parts (is p)) (stagePlaces blocks perBlock) := by
  refine (nodup_stagePlaces blocks perBlock).pairwise_of_forall_ne fun p hp p' hp' hne j hj hj' => hne ?_
  rw [← h p (mem_stagePlaces.mp hp).2 _ hj, h p' (mem_stagePlaces.mp hp').2 _ hj']

section
variable (c : ComplexInstance) (b n : Nat) (inv : Bool)

theorem separate_stage2 (blocks : Nat) :
    Separate (fun p => Parts (stage2Indices n p)) (stagePlaces blocks (n / 2)) :=
  separate_stagePlaces fun _ hp _ => place_of_stage2Indices hp

theorem separate_stage4 (blocks : Nat) :
    Separate (fun p => Parts (stage4Indices n p)) (stagePlaces blocks (n / 4)) :=
  separate_stagePlaces fun _ hp _ => place_of_stage4Indices hp

theorem usesOnly_stage2Place (p : Nat × Nat) :
    UsesOnly (Parts (stage2Indices n p)) (fun b => stage2Place c b n inv p) := usesOnly_bfly2 _ _ _ _

theorem usesOnly_stage4Place (p : Nat × Nat) :
    UsesOnly (Parts (stage4Indices n p)) (fun b => stage4Place c b n inv p) := usesOnly_bfly4 _ _ _ _ _ _ _ _

theorem stage2_eq_runAll (m : Memory) :
    stage2 c b n inv m = runAll (stage2Place c b n inv) (stagePlaces (c.fftLen / n) (n / 2)) m :=
  forUpTo_forUpTo_eq_runAll _ _ (stage2Place c b n inv) m

theorem stage4_eq_runAll (m : Memory) :
    stage4 c b n inv m = runAll (stage4Place c b n inv) (stagePlaces (c.fftLen / n) (n / 4)) m :=
  forUpTo_forUpTo_eq_runAll _ _ (stage4Place c b n inv) m

end

/-! ### What a stage computes at a place -/

section
variable {c : ComplexInstance} {b n block k : Nat} {inv : Bool} {m m' : Memory}

/-- A radix-2 stage leaves at a place what its butterfly makes of what the place held before the stage. -/
theorem stage2_ok (h : stage2 c b n inv m = .ok m') (hb : block < c.fftLen / n) (hk : k < n / 2) :
    ∃ x0 x1, cget m b (block * n + k) = .ok x0 ∧ cget m b (block * n + k + n / 2) = .ok x1 ∧
      cget m' b (block * n + k) =
        .ok (bfly2Values x0 x1 (twiddleView (c.fftLen / n * c.twidCoefModifier) k) inv).1 ∧
      cget m' b (block * n + k + n / 2) =
        .ok (bfly2Values x0 x1 (twiddleView (c.fftLen / n * c.twidCoefModifier) k) inv).2 := by
  rw [stage2_eq_runAll] at h
  obtain ⟨d, hd, hm⟩ := runAll_each (usesOnly_stage2Place c n inv) (separate_stage2 n _) h (block, k)
    (mem_stagePlaces.mpr ⟨hb, hk⟩)
  obtain ⟨x0, x1, e0, e1, d0, d1⟩ := bfly2_ok (by omega) hd
  exact ⟨x0, x1, e0, e1, (hm.cget (by simp [stage2Indices])).trans d0, (hm.cget (by simp [stage2Indices])).trans d1⟩

/-- A radix-4 stage leaves at a place what its butterfly makes of what the place held before the stage. -/
theorem stage4_ok (h : stage4 c b n inv m = .ok m') (hb : block < c.fftLen / n) (hk : k < n / 4) :
    ∃ x0 x1 x2 x3, cget m b (block * n + k) = .ok x0 ∧ cget m b (block * n + k + n / 4) = .ok x1 ∧
      cget m b (block * n + k + 2 * (n / 4)) = .ok x2 ∧ cget m b (block * n + k + 3 * (n / 4)) = .ok x3 ∧
      ∃ y, y = bfly4Values x0 x1 x2 x3 (twiddleView (c.fftLen / n * c.twidCoefModifier) k)
          (twiddleView (c.fftLen / n * c.twidCoefModifier) (2 * k))
          (twiddleView (c.fftLen / n * c.twidCoefModifier) (3 * k)) inv ∧
        cget m' b (block * n + k) = .ok y.1 ∧ cget m' b (block * n + k + n / 4) = .ok y.2.1 ∧
        cget m' b (block * n + k + 2 * (n / 4)) = .ok y.2.2.1 ∧
        cget m' b (block * n + k + 3 * (n / 4)) = .ok y.2.2.2 := by
  rw [stage4_eq_runAll] at h
  obtain ⟨d, hd, hm⟩ := runAll_each (usesOnly_stage4Place c n inv) (separate_stage4 n _) h (block, k)
    (mem_stagePlaces.mpr ⟨hb, hk⟩)
  have hne : (stage4Indices n (block, k)).Nodup := by
    simp only [stage4Indices, List.nodup_cons, List.mem_cons, List.not_mem_nil, or_false, not_or, not_false_eq_true,
      List.nodup_nil, and_true]
    omega
  obtain ⟨x0, x1, x2, x3, e0, e1, e2, e3, d0, d1, d2, d3⟩ := bfly4_ok hne hd
  exact ⟨x0, x1, x2, x3, e0, e1, e2, e3, _, rfl, (hm.cget (by simp [stage4Indices])).trans d0,
    (hm.cget (by simp [stage4Indices])).trans d1, (hm.cget (by simp [stage4Indices])).trans d2,
    (hm.cget (by simp [stage4Indices])).trans d3⟩

end

/-- Settles O45: the butterflies of a stage are on separate elements, so any order gives the same memory, and each place
holds what its butterfly alone computes. -/
theorem butterfliesOfAStageMayBeReordered : Obligations.ButterfliesOfAStageMayBeReordered := by
  refine ⟨fun c b n inv m m' order hm => ⟨fun hp h => ?_, fun hp h => ?_⟩, fun u w => ⟨rfl, rfl⟩,
    fun c b j block k inv m m' hc _ hj hb hk h => ?_, fun c b j block k inv m m' hc _ hj hb hk h => ?_⟩
  · rw [stage2_eq_runAll] at h
    exact runAll_perm (usesOnly_stage2Place c n inv) (separate_stage2 n _) hp hm h
  · rw [stage4_eq_runAll] at h
    exact runAll_perm (usesOnly_stage4Place c n inv) (separate_stage4 n _) hp hm h
  · have hst := stage2_ok h hb hk
    rwa [stage_stride_eq hc hj] at hst
  · obtain ⟨p, q, r, v, hp, hq, hr, hv, y, rfl, hy⟩ := stage4_ok h hb hk
    rw [stage_stride_eq hc hj] at hy
    exact ⟨p, q, r, v, hp, hq, hr, hv, hy⟩

/-! ### The scaling (R211) -/

/-- One step of the scaling, on real element i. -/
def scaleAt (c : ComplexInstance) (i b : Nat) (m : Memory) : Except Fault Memory := do
  let x ← memRead m (realElement b i)
  memWrite m (realElement b i) (num.hMul x c.onebyfftLen)

theorem usesOnly_scaleAt (c : ComplexInstance) (i : Nat) : UsesOnly (Eq i) (scaleAt c i) :=
  UsesOnly.read rfl fun _ => UsesOnly.write rfl _

theorem scale_eq_forUpTo (c : ComplexInstance) (b : Nat) (m : Memory) :
    scale c b m = forUpTo (2 * c.fftLen) (fun i => scaleAt c i b) m := rfl

theorem scaleAt_ok {c : ComplexInstance} {i b : Nat} {m m' : Memory} (h : scaleAt c i b m = .ok m') :
    ∃ x, elementAt m (b + i) = some x ∧ memRead m' (b + i) = .ok (num.hMul x c.onebyfftLen) := by
  obtain ⟨x, hx, hw⟩ := (bind_ok_iff _ _ _).mp h
  obtain ⟨hlt, rfl⟩ := (memWrite_ok_iff _ _ _ _).mp hw
  exact ⟨x, ((memRead_ok_iff _ _ _).mp hx).2, (memRead_setElement m _ hlt _).trans (if_pos rfl)⟩

theorem Within.unchangedOutside {B : Buffer} {m m' : Memory} (h : Within (Region B.base B.length) m m') :
    unchangedOutside [B] m m' := by
  refine fun n hn => h.frame n fun hr => ?_
  rw [← inBuffer_iff, hn B List.mem_cons_self] at hr
  cases hr

/-- Settles O43: each step scales one element, and no other step touches it. -/
theorem scalingMultipliesEveryElement : Obligations.ScalingMultipliesEveryElement := by
  refine fun c b m m' h => ⟨fun i hi => ?_, Within.unchangedOutside (B := complexBuffer c b) (scale_within h)⟩
  rw [scale_eq_forUpTo, forUpTo_eq_runAll] at h
  have hsep : Separate Eq (List.range (2 * c.fftLen)) :=
    List.nodup_range.imp fun hne _ hj hj' => hne (hj.trans hj'.symm)
  obtain ⟨d, hd, hm⟩ := runAll_each (usesOnly_scaleAt c) hsep h i (List.mem_range.mpr hi)
  obtain ⟨x, hx, hv⟩ := scaleAt_ok hd
  exact ⟨x, hx, ((memRead_ok_iff _ _ _).mp ((hm i rfl).trans hv)).2⟩

end Sys2Proof.Machine
end

section
/-! The network, `CfftCore` and the transform commands (45_complex_fft_engine.md R210, R213 to R218): the composition of
stages per tag, completion, and that only the buffer's contents matter. -/

namespace Sys2Proof.Machine

/-! ### The composition of stages (R210) -/

section
variable {c : ComplexInstance} {b : Nat} {inv : Bool}

theorem networkRadix2_eq_runAll (k : Nat) (m : Memory) :
    networkRadix2 c b inv k m = runAll (fun j => stage2 c b (2 ^ (j + 1)) inv) (List.range k).reverse m := by
  induction k generalizing m with
  | zero => rfl
  | succ k ih =>
    rw [networkRadix2, List.range_succ, List.reverse_append, funext ih]
    rfl

theorem two_pow_add_two (k : Nat) : 2 ^ (k + 2) = 2 ^ (k % 2) * 4 ^ (k / 2 + 1) := by
  rw [show 4 = 2 ^ 2 from rfl, ← pow_mul, ← pow_add]
  congr 1
  omega

theorem networkRadix4_eq_runAll (k : Nat) (m : Memory) :
    networkRadix4 c b inv k m =
      runAll (fun j => stage4 c b (2 ^ (k % 2) * 4 ^ (j + 1)) inv) (List.range (k / 2)).reverse m >>=
        fun m => if k % 2 = 1 then stage2 c b 2 inv m else .ok m := by
  induction k using Nat.twoStepInduction generalizing m with
  | zero => rfl
  | one => rfl
  | more k ih _ =>
    rw [networkRadix4, Nat.add_mod_right, Nat.add_div_right k two_pos, List.range_succ, List.reverse_append,
      List.reverse_singleton, List.singleton_append, runAll, two_pow_add_two, funext ih]
    cases stage4 c b (2 ^ (k % 2) * 4 ^ (k / 2 + 1)) inv m <;> rfl

theorem network_of_radix2 (h : c.tag = .radix2) (m : Memory) :
    network c b inv m = networkRadix2 c b inv (Nat.log2 c.fftLen) m := by
  rw [network, h]

theorem network_of_not_radix2 (h : c.tag ≠ .radix2) (m : Memory) :
    network c b inv m = networkRadix4 c b inv (Nat.log2 c.fftLen) m := by
  unfold network
  split
  · exact absurd ‹_› h
  · rfl
  · rfl

end

/-- The stages look at the length and at the stride of an instance, not at its tag. -/
theorem networkRadix4_makeCfft (tag tag' : Tag) (n b : Nat) (inv : Bool) (k : Nat) (m : Memory) :
    networkRadix4 (makeCfft tag n) b inv k m = networkRadix4 (makeCfft tag' n) b inv k m := by
  rw [networkRadix4_eq_runAll, networkRadix4_eq_runAll]
  rfl

theorem network_general_eq_radix4 (n b : Nat) (inv : Bool) (m : Memory) :
    network (makeCfft .general n) b inv m = network (makeCfft .radix4 n) b inv m :=
  networkRadix4_makeCfft .general .radix4 n b inv (Nat.log2 n) m

/-- At length 2 every tag performs the one radix-2 stage. -/
theorem network_radix2_eq_general (b : Nat) (inv : Bool) (m : Memory) :
    network (makeCfft .radix2 2) b inv m = network (makeCfft .general 2) b inv m := by
  rw [network_of_radix2 rfl, network_of_not_radix2 (by decide), networkRadix2_eq_runAll]
  exact runAll_singleton _ 0 m

/-- The passes after the network do not look at the tag either. -/
theorem cfftCore_makeCfft {tag tag' : Tag} {n b : Nat} {inv br : Bool} {m : Memory}
    (h : network (makeCfft tag n) b inv m = network (makeCfft tag' n) b inv m) :
    cfftCore (makeCfft tag n) b inv br m = cfftCore (makeCfft tag' n) b inv br m := by
  unfold cfftCore
  rw [h]
  rfl

theorem exec_transformCommand_makeCfft {tag tag' : Tag} {k k' : BitVec 8} {inv br : Bool} {s : State} {n : Nat}
    (hs : s.slotAt k = some (.cfft (makeCfft tag n))) (hs' : s.slotAt k' = some (.cfft (makeCfft tag' n)))
    (h : network (makeCfft tag n) (s.arg 0) inv s.dmem = network (makeCfft tag' n) (s.arg 0) inv s.dmem) :
    exec (transformCommand tag k inv br) s = exec (transformCommand tag' k' inv br) s := by
  rw [exec_transformCommand (tag := tag) inv br hs rfl, exec_transformCommand (tag := tag') inv br hs' rfl,
    cfftCore_makeCfft h]

/-- Settles O44: the stages of each tag in order, which are the same for `GENERAL` and `RADIX4`. -/
theorem generalAndRadix4AreBitIdentical : Obligations.GeneralAndRadix4AreBitIdentical := by
  refine ⟨fun c b q inv m hq => ?_, fun k k' k'' inv br s n hs hs' => ⟨?_, ?_⟩⟩
  · have hlog : Nat.log2 c.fftLen = q := by rw [hq, Nat.log2_two_pow]
    exact ⟨fun h => by rw [network_of_radix2 h, hlog, networkRadix2_eq_runAll],
      fun h => by rw [network_of_not_radix2 h, hlog, networkRadix4_eq_runAll]⟩
  · exact exec_transformCommand_makeCfft hs hs' (network_general_eq_radix4 n _ inv _)
  · rintro rfl hs''
    exact exec_transformCommand_makeCfft hs'' hs (network_radix2_eq_general _ inv _)

/-! ### Completion (R213 to R216) -/

/-- Settles O32: the core completes on a filled buffer, and its passes write inside it. -/
theorem complexTransformCompletes : Obligations.ComplexTransformCompletes := by
  intro tag k inv br s c hs htag hc hready
  have hf := (cfftReady_iff _ _ _).mp hready
  obtain ⟨m, hm⟩ := cfftCore_completes inv br hc hf
  have hw := cfftCore_within hc hm
  obtain ⟨-, m1, m2, h1, h2, h3⟩ := (cfftCore_ok_iff _ _ _ _ _ _).mp hm
  refine ⟨m1, m2, m, h1, h2, h3, ?_, Within.unchangedOutside (B := complexBuffer c (s.arg 0)) hw,
    bufferWritten_of_filled (b := complexBuffer c (s.arg 0)) (hf.of_within hw)⟩
  rw [exec_transformCommand inv br hs htag, hm]
  rfl

/-! ### Only the buffer's contents matter (R213, R218) -/

/-- The offsets of the buffer of an instance. -/
def ComplexInstance.Offsets (c : ComplexInstance) : Nat → Prop := fun j => j < 2 * c.fftLen

section
variable {c : ComplexInstance}

theorem ComplexInstance.offsets_of_parts {is : List Nat} (h : ∀ i ∈ is, i < c.fftLen) :
    ∀ j, Parts is j → c.Offsets j := fun j hj => by
  have := h _ hj
  simp only [ComplexInstance.Offsets]
  omega

theorem usesOnly_stage2 (c : ComplexInstance) (n : Nat) (inv : Bool) :
    UsesOnly c.Offsets (fun b => stage2 c b n inv) := by
  refine UsesOnly.loop _ fun block hb => UsesOnly.loop _ fun k hk => (usesOnly_bfly2 _ _ _ _).weaken ?_
  have h0 := block_index_lt (j := k) hb (by omega)
  have h1 := block_index_lt (j := k + n / 2) hb (by omega)
  refine ComplexInstance.offsets_of_parts ?_
  simp only [List.forall_mem_cons, List.not_mem_nil, false_implies, implies_true, and_true]
  omega

theorem usesOnly_stage4 (c : ComplexInstance) (n : Nat) (inv : Bool) :
    UsesOnly c.Offsets (fun b => stage4 c b n inv) := by
  refine UsesOnly.loop _ fun block hb => UsesOnly.loop _ fun k hk => (usesOnly_bfly4 _ _ _ _ _ _ _ _).weaken ?_
  have h0 := block_index_lt (j := k) hb (by omega)
  have h1 := block_index_lt (j := k + n / 4) hb (by omega)
  have h2 := block_index_lt (j := k + 2 * (n / 4)) hb (by omega)
  have h3 := block_index_lt (j := k + 3 * (n / 4)) hb (by omega)
  refine ComplexInstance.offsets_of_parts ?_
  simp only [List.forall_mem_cons, List.not_mem_nil, false_implies, implies_true, and_true]
  omega

theorem usesOnly_networkRadix2 (c : ComplexInstance) (inv : Bool) (k : Nat) :
    UsesOnly c.Offsets (fun b => networkRadix2 c b inv k) := by
  induction k with
  | zero => exact UsesOnly.skip _
  | succ k ih => exact (usesOnly_stage2 c _ inv).seq ih

theorem usesOnly_networkRadix4 (c : ComplexInstance) (inv : Bool) (k : Nat) :
    UsesOnly c.Offsets (fun b => networkRadix4 c b inv k) := by
  induction k using Nat.twoStepInduction with
  | zero => exact UsesOnly.skip _
  | one => exact usesOnly_stage2 c 2 inv
  | more k ih _ => exact (usesOnly_stage4 c _ inv).seq ih

theorem usesOnly_network (c : ComplexInstance) (inv : Bool) : UsesOnly c.Offsets (fun b => network c b inv) := by
  unfold network
  cases c.tag with
  | radix2 => exact usesOnly_networkRadix2 c inv _
  | radix4 | general => exact usesOnly_networkRadix4 c inv _

theorem usesOnly_scaleIf (c : ComplexInstance) (inv : Bool) : UsesOnly c.Offsets (fun b => scaleIf inv c b) := by
  cases inv with
  | false => exact UsesOnly.skip _
  | true => exact UsesOnly.loop _ fun i hi => (usesOnly_scaleAt c i).weaken fun j hj => hj ▸ hi

theorem usesOnly_reorderIf (hc : c.Wf) (br : Bool) : UsesOnly c.Offsets (fun b => reorderIf br c b) := by
  cases br with
  | false => exact UsesOnly.skip _
  | true =>
    refine UsesOnly.loop _ fun i hi => ?_
    rw [hc.bitRevLength_eq] at hi
    split
    · exact (usesOnly_exchange i (brView c i)).weaken (ComplexInstance.offsets_of_parts (by simp [hi, hc.brView_lt i]))
    · exact UsesOnly.skip _

theorem mirrors_offsets_of_elementAt {b b' : Nat} {m n : Memory} (hb : b + 2 * c.fftLen ≤ Config.dmemWords)
    (hb' : b' + 2 * c.fftLen ≤ Config.dmemWords)
    (h : ∀ i < 2 * c.fftLen, elementAt n (b' + i) = elementAt m (b + i)) : Mirrors c.Offsets b m b' n := by
  intro j (hj : j < 2 * c.fftLen)
  rw [memRead, memRead, if_pos (by omega), if_pos (by omega), h j hj]

/-- `CfftCore` on a buffer elsewhere with the same contents answers alike. -/
theorem cfftCore_mirrors {b b' : Nat} {inv br : Bool} {m m' n : Memory} (hc : c.Wf)
    (h : cfftCore c b inv br m = .ok m') (hf : Filled n b' (2 * c.fftLen)) (hm : Mirrors c.Offsets b m b' n) :
    ∃ n', cfftCore c b' inv br n = .ok n' ∧ Mirrors c.Offsets b m' b' n' := by
  obtain ⟨-, m1, m2, h1, h2, h3⟩ := (cfftCore_ok_iff _ _ _ _ _ _).mp h
  obtain ⟨n1, e1, hm1⟩ := (usesOnly_network c inv).mirrors h1 hm
  obtain ⟨n2, e2, hm2⟩ := (usesOnly_scaleIf c inv).mirrors h2 hm1
  obtain ⟨n3, e3, hm3⟩ := (usesOnly_reorderIf hc br).mirrors h3 hm2
  exact ⟨n3, (cfftCore_ok_iff _ _ _ _ _ _).mpr ⟨hf, n1, n2, e1, e2, e3⟩, hm3⟩

end

/-- Settles O37: each pass uses only the buffer, so a buffer elsewhere with the same contents goes the same way. -/
theorem complexTransformDependsOnlyOnItsBuffer : Obligations.ComplexTransformDependsOnlyOnItsBuffer := by
  intro tag k k' inv br s s' t c hs hs' htag hc hin heq h
  rw [exec_transformCommand inv br hs htag] at h
  obtain ⟨m, hm, rfl⟩ := (commit_next_iff _ _ _).mp h
  obtain ⟨hb, hw⟩ := ((cfftCore_ok_iff _ _ _ _ _ _).mp hm).1
  have hb' : s'.arg 0 + 2 * c.fftLen ≤ Config.dmemWords := (inRange_iff _).mp hin
  have hf' : Filled s'.dmem (s'.arg 0) (2 * c.fftLen) := by
    refine ⟨hb', fun a ⟨hlo, hhi⟩ => ?_⟩
    obtain ⟨i, rfl⟩ := Nat.exists_eq_add_of_le hlo
    rw [written, heq i (by omega)]
    exact hw _ ⟨Nat.le_add_right _ _, by omega⟩
  obtain ⟨n, hn, hmir⟩ := cfftCore_mirrors hc hm hf' (mirrors_offsets_of_elementAt hb hb' heq)
  refine ⟨s'.withDmem n, ?_, fun i hi =>
    elementAt_eq_of_memRead_eq (Nat.lt_of_lt_of_le (by omega) hb') (Nat.lt_of_lt_of_le (by omega) hb) (hmir i hi)⟩
  rw [exec_transformCommand inv br hs' htag, hn]
  rfl

end Sys2Proof.Machine
end

section
/-! The impulse (45_complex_fft_engine.md R221): each stage of a forward network turns ones at the multiples of its block
size, and zeros of either sign between them, into ones at the multiples of the next block size. -/

namespace Sys2Proof.Machine

/-! ### Zeros of either sign, and ones -/

/-- A zero pattern of either sign. -/
def IsZeroHalf (x : Half) : Prop := x = 0x0000#16 ∨ x = 0x8000#16

theorem isZeroHalf_zeroH : IsZeroHalf zeroH := Or.inl rfl

theorem IsZeroHalf.fields {x : Half} (h : IsZeroHalf x) :
    isFinite formatH x.toNat = true ∧ magnitudeOf formatH x.toNat = 0 := by
  obtain rfl | rfl := h <;> decide

section
variable {x y : Half}

theorem IsZeroHalf.add (hx : IsZeroHalf x) (hy : IsZeroHalf y) : IsZeroHalf (num.hAdd x y) := by
  obtain rfl | rfl := hx <;> obtain rfl | rfl := hy <;> (unfold IsZeroHalf; decide +kernel)

theorem IsZeroHalf.sub (hx : IsZeroHalf x) (hy : IsZeroHalf y) : IsZeroHalf (num.hSub x y) := by
  obtain rfl | rfl := hx <;> obtain rfl | rfl := hy <;> (unfold IsZeroHalf; decide +kernel)

theorem oneH_zero (hy : IsZeroHalf y) : num.hAdd oneH y = oneH ∧ num.hSub oneH y = oneH := by
  obtain rfl | rfl := hy <;> decide +kernel

/-- The positive zero stays, whatever zero is added or taken away. -/
theorem zeroH_zero (hy : IsZeroHalf y) : num.hAdd zeroH y = zeroH ∧ num.hSub zeroH y = zeroH := by
  obtain rfl | rfl := hy <;> decide +kernel

theorem IsZeroHalf.mul (hx : IsZeroHalf x) (hy : isFinite formatH y.toNat = true) : IsZeroHalf (num.hMul x y) := by
  obtain ⟨hfin, hmag⟩ := hx.fields
  have h0 : roundMagnitude formatH 0 (formatScale formatH) = 0 := by decide
  change IsZeroHalf (halfMul x y)
  rw [halfMul, floatMul_of_finite hfin hy, hmag, zero_mul, roundTo, h0]
  cases signOf formatH x.toNat ^^ signOf formatH y.toNat
  · exact Or.inl rfl
  · exact Or.inr rfl

end

/-! ### Twiddles are finite, and the first is 1 -/

def RomEntry.IsFinite (w : RomEntry) : Prop := isFinite formatH w.c.toNat = true ∧ isFinite formatH w.s.toNat = true

/-- A fact about the printed table, which only reading it shows. -/
theorem isFinite_quarterCos : ∀ r < 1025, isFinite formatH (quarterCos r).toNat = true := by decide +kernel

theorem isFinite_negNonzero {x : Half} (h : isFinite formatH x.toNat = true) :
    isFinite formatH (negNonzero x).toNat = true := by
  rw [negNonzero]
  split
  · decide
  · exact (isFinite_halfNeg x).trans h

theorem isFinite_twiddle (k : Nat) : (twiddle k).IsFinite := by
  have hr := isFinite_quarterCos _ (Nat.lt_succ_of_lt (Nat.mod_lt k (by decide : 0 < quarterLength)))
  have hsub := isFinite_quarterCos _ (Nat.lt_succ_of_le (Nat.sub_le quarterLength (k % quarterLength)))
  rw [twiddle]
  split
  · exact ⟨hr, hsub⟩
  · exact ⟨isFinite_negNonzero hsub, hr⟩
  · exact ⟨isFinite_negNonzero hr, isFinite_negNonzero hsub⟩
  · exact ⟨hsub, isFinite_negNonzero hr⟩

theorem twiddleView_zero (st : Nat) : twiddleView st 0 = ⟨oneH, zeroH⟩ := by
  rw [twiddleView, zero_mul]
  decide +kernel

/-! ### Butterflies on ones and zeros -/

/-- A complex value whose parts are zeros of either sign. -/
def Complex16.IsZero (z : Complex16) : Prop := IsZeroHalf z.re ∧ IsZeroHalf z.im

/-- The complex 1 that the impulse and its spectrum hold. -/
def complexOne : Complex16 := ⟨oneH, zeroH⟩

section
variable {x y : Complex16}

theorem Complex16.IsZero.add (hx : x.IsZero) (hy : y.IsZero) : (complexAdd x y).IsZero :=
  ⟨hx.1.add hy.1, hx.2.add hy.2⟩

theorem Complex16.IsZero.sub (hx : x.IsZero) (hy : y.IsZero) : (complexSub x y).IsZero :=
  ⟨hx.1.sub hy.1, hx.2.sub hy.2⟩

theorem Complex16.IsZero.subTimesJ (hx : x.IsZero) (hy : y.IsZero) : (subTimesJ x y).IsZero :=
  ⟨hx.1.add hy.2, hx.2.sub hy.1⟩

theorem Complex16.IsZero.addTimesJ (hx : x.IsZero) (hy : y.IsZero) : (addTimesJ x y).IsZero :=
  ⟨hx.1.sub hy.2, hx.2.add hy.1⟩

theorem Complex16.IsZero.twMul {w : RomEntry} (hx : x.IsZero) (hw : w.IsFinite) : (twMul x w false).IsZero :=
  ⟨(hx.1.mul hw.1).add (hx.2.mul hw.2), (hx.2.mul hw.1).sub (hx.1.mul hw.2)⟩

theorem complexAdd_complexOne (hy : y.IsZero) : complexAdd complexOne y = complexOne :=
  congrArg₂ Complex16.mk (oneH_zero hy.1).1 (zeroH_zero hy.2).1

theorem complexSub_complexOne (hy : y.IsZero) : complexSub complexOne y = complexOne :=
  congrArg₂ Complex16.mk (oneH_zero hy.1).2 (zeroH_zero hy.2).2

theorem subTimesJ_complexOne (hy : y.IsZero) : subTimesJ complexOne y = complexOne :=
  congrArg₂ Complex16.mk (oneH_zero hy.2).1 (zeroH_zero hy.1).2

theorem addTimesJ_complexOne (hy : y.IsZero) : addTimesJ complexOne y = complexOne :=
  congrArg₂ Complex16.mk (oneH_zero hy.2).2 (zeroH_zero hy.1).1

theorem twMul_complexOne : twMul complexOne ⟨oneH, zeroH⟩ false = complexOne := by decide +kernel

end

/-- The value 1 where p holds, and a zero elsewhere. -/
def Tooth (p : Prop) (z : Complex16) : Prop := (p → z = complexOne) ∧ (¬ p → z.IsZero)

/-- A twiddle of a forward butterfly: finite, and 1 where p holds. -/
def ToothTwiddle (p : Prop) (w : RomEntry) : Prop := w.IsFinite ∧ (p → w = ⟨oneH, zeroH⟩)

section
variable {p : Prop} {x0 x1 x2 x3 : Complex16} {w w1 w2 w3 : RomEntry}

theorem Tooth.congr {q : Prop} {z : Complex16} (h : Tooth p z) (hpq : q ↔ p) : Tooth q z := by rwa [Tooth, hpq]

theorem Tooth.add (h0 : Tooth p x0) (h1 : x1.IsZero) : Tooth p (complexAdd x0 x1) :=
  ⟨fun hp => h0.1 hp ▸ complexAdd_complexOne h1, fun hp => (h0.2 hp).add h1⟩

theorem Tooth.sub (h0 : Tooth p x0) (h1 : x1.IsZero) : Tooth p (complexSub x0 x1) :=
  ⟨fun hp => h0.1 hp ▸ complexSub_complexOne h1, fun hp => (h0.2 hp).sub h1⟩

theorem Tooth.subTimesJ (h0 : Tooth p x0) (h1 : x1.IsZero) : Tooth p (subTimesJ x0 x1) :=
  ⟨fun hp => h0.1 hp ▸ subTimesJ_complexOne h1, fun hp => (h0.2 hp).subTimesJ h1⟩

theorem Tooth.addTimesJ (h0 : Tooth p x0) (h1 : x1.IsZero) : Tooth p (addTimesJ x0 x1) :=
  ⟨fun hp => h0.1 hp ▸ addTimesJ_complexOne h1, fun hp => (h0.2 hp).addTimesJ h1⟩

theorem Tooth.twMul (h0 : Tooth p x0) (hw : ToothTwiddle p w) : Tooth p (twMul x0 w false) :=
  ⟨fun hp => by rw [h0.1 hp, hw.2 hp, twMul_complexOne], fun hp => (h0.2 hp).twMul hw.1⟩

theorem Tooth.bfly2Values (h0 : Tooth p x0) (h1 : x1.IsZero) (hw : ToothTwiddle p w) :
    Tooth p (bfly2Values x0 x1 w false).1 ∧ Tooth p (bfly2Values x0 x1 w false).2 :=
  ⟨h0.add h1, (h0.sub h1).twMul hw⟩

theorem Tooth.bfly4Values (h0 : Tooth p x0) (h1 : x1.IsZero) (h2 : x2.IsZero) (h3 : x3.IsZero)
    (hw1 : ToothTwiddle p w1) (hw2 : ToothTwiddle p w2) (hw3 : ToothTwiddle p w3) :
    Tooth p (bfly4Values x0 x1 x2 x3 w1 w2 w3 false).1 ∧ Tooth p (bfly4Values x0 x1 x2 x3 w1 w2 w3 false).2.1 ∧
      Tooth p (bfly4Values x0 x1 x2 x3 w1 w2 w3 false).2.2.1 ∧ Tooth p (bfly4Values x0 x1 x2 x3 w1 w2 w3 false).2.2.2 :=
  ⟨(h0.add h2).add (h1.add h3), ((h0.add h2).sub (h1.add h3)).twMul hw2, ((h0.sub h2).subTimesJ (h1.sub h3)).twMul hw1,
    ((h0.sub h2).addTimesJ (h1.sub h3)).twMul hw3⟩

end

theorem toothTwiddle_twiddleView (st k j : Nat) : ToothTwiddle (k = 0) (twiddleView st (j * k)) :=
  ⟨isFinite_twiddle _, fun hk => by rw [hk, mul_zero, twiddleView_zero]⟩

/-! ### The places of a block, and the multiples among them -/

/-- Every index lies in a block of r runs of q: which block, which butterfly and which of its indices. -/
theorem exists_place {len r q i : Nat} (hdvd : r * q ∣ len) (hi : i < len) :
    ∃ block k t, block < len / (r * q) ∧ k < q ∧ t < r ∧ i = block * (r * q) + k + t * q := by
  have hn : 0 < r * q := Nat.pos_of_dvd_of_pos hdvd (by omega)
  have hmod : i % (r * q) < q * r := Nat.mul_comm r q ▸ Nat.mod_lt i hn
  refine ⟨i / (r * q), i % (r * q) % q, i % (r * q) / q, Nat.div_lt_div_of_lt_of_dvd hdvd hi,
    Nat.mod_lt _ (Nat.pos_of_mul_pos_left hn), Nat.div_lt_of_lt_mul hmod, ?_⟩
  have h1 := Nat.div_add_mod i (r * q)
  have h2 := Nat.div_add_mod (i % (r * q)) q
  rw [Nat.mul_comm] at h1 h2
  omega

theorem run_dvd_place_iff {r q block k t : Nat} (hk : k < q) : q ∣ block * (r * q) + k + t * q ↔ k = 0 := by
  rw [Nat.dvd_add_left (Nat.dvd_mul_left q t), Nat.dvd_add_right ((Nat.dvd_mul_left q r).mul_left block)]
  exact ⟨fun h => Nat.eq_zero_of_dvd_of_lt h hk, fun h => h ▸ Nat.dvd_zero q⟩

theorem block_dvd_place_iff {n block j : Nat} (hj : j < n) : n ∣ block * n + j ↔ j = 0 := by
  rw [Nat.dvd_add_right (Nat.dvd_mul_left n block)]
  exact ⟨fun h => Nat.eq_zero_of_dvd_of_lt h hj, fun h => h ▸ Nat.dvd_zero n⟩

/-! ### The stages on a comb -/

/-- The buffer of an instance holds 1 at the multiples of d and zeros elsewhere. -/
def Comb (c : ComplexInstance) (b d : Nat) (m : Memory) : Prop :=
  ∀ i < c.fftLen, ∃ z, cget m b i = .ok z ∧ Tooth (d ∣ i) z

section
variable {c : ComplexInstance} {b q : Nat} {m m' : Memory}

/-- What a comb holds at index j of a block. -/
theorem Comb.at_index {n block j : Nat} {z : Complex16} (h : Comb c b n m) (hb : block < c.fftLen / n) (hj : j < n)
    (hz : cget m b (block * n + j) = .ok z) : Tooth (j = 0) z := by
  obtain ⟨z', hz', ht⟩ := h _ (block_index_lt hb hj)
  cases hz.symm.trans hz'
  exact ht.congr (block_dvd_place_iff hj).symm

theorem Comb.at_add {n block k j : Nat} {z : Complex16} (h : Comb c b n m) (hb : block < c.fftLen / n)
    (hkj : k + j < n) (hj : 0 < j) (hz : cget m b (block * n + k + j) = .ok z) : z.IsZero :=
  (h.at_index hb hkj (Nat.add_assoc _ k j ▸ hz)).2 (by omega)

theorem Comb.stage2 (hdvd : 2 * q ∣ c.fftLen) (h : Comb c b (2 * q) m) (he : stage2 c b (2 * q) false m = .ok m') :
    Comb c b q m' := by
  intro i hi
  obtain ⟨block, k, t, hb, hk, ht, rfl⟩ := exists_place hdvd hi
  have half : 2 * q / 2 = q := by omega
  obtain ⟨x0, x1, e0, e1, d0, d1⟩ := stage2_ok he hb (half.symm ▸ hk)
  rw [half] at e1 d1
  have h0 := h.at_index hb (by omega) e0
  have h1 := h.at_add hb (by omega) (by omega) e1
  obtain ⟨y0, y1⟩ := h0.bfly2Values h1 (Nat.one_mul k ▸ toothTwiddle_twiddleView _ k 1)
  have hd := run_dvd_place_iff (r := 2) (block := block) (t := t) hk
  match t, ht, hd with
  | 0, _, hd => exact ⟨_, by simpa using d0, y0.congr hd⟩
  | 1, _, hd => exact ⟨_, by simpa using d1, y1.congr hd⟩

theorem Comb.stage4 (hdvd : 4 * q ∣ c.fftLen) (h : Comb c b (4 * q) m) (he : stage4 c b (4 * q) false m = .ok m') :
    Comb c b q m' := by
  intro i hi
  obtain ⟨block, k, t, hb, hk, ht, rfl⟩ := exists_place hdvd hi
  have quarter : 4 * q / 4 = q := by omega
  obtain ⟨x0, x1, x2, x3, e0, e1, e2, e3, y, rfl, d0, d1, d2, d3⟩ := stage4_ok he hb (quarter.symm ▸ hk)
  rw [quarter] at e1 e2 e3 d1 d2 d3
  have h0 := h.at_index hb (by omega) e0
  have h1 := h.at_add hb (by omega) (by omega) e1
  have h2 := h.at_add hb (by omega) (by omega) e2
  have h3 := h.at_add hb (by omega) (by omega) e3
  obtain ⟨y0, y1, y2, y3⟩ := h0.bfly4Values h1 h2 h3 (Nat.one_mul k ▸ toothTwiddle_twiddleView _ k 1)
    (toothTwiddle_twiddleView _ k 2) (toothTwiddle_twiddleView _ k 3)
  have hd := run_dvd_place_iff (r := 4) (block := block) (t := t) hk
  match t, ht, hd with
  | 0, _, hd => exact ⟨_, by simpa using d0, y0.congr hd⟩
  | 1, _, hd => exact ⟨_, by simpa using d1, y1.congr hd⟩
  | 2, _, hd => exact ⟨_, d2, y2.congr hd⟩
  | 3, _, hd => exact ⟨_, d3, y3.congr hd⟩

theorem Comb.networkRadix2 {k : Nat} (hdvd : 2 ^ k ∣ c.fftLen) (h : Comb c b (2 ^ k) m)
    (he : networkRadix2 c b false k m = .ok m') : Comb c b 1 m' := by
  induction k generalizing m with
  | zero =>
    cases he
    exact h
  | succ k ih =>
    obtain ⟨m1, h1, h2⟩ := (bind_ok_iff _ _ _).mp he
    rw [pow_succ'] at hdvd h h1
    exact ih (dvd_of_mul_left_dvd hdvd) (h.stage2 hdvd h1) h2

theorem Comb.networkRadix4 {k : Nat} (hdvd : 2 ^ k ∣ c.fftLen) (h : Comb c b (2 ^ k) m)
    (he : networkRadix4 c b false k m = .ok m') : Comb c b 1 m' := by
  induction k using Nat.twoStepInduction generalizing m with
  | zero =>
    cases he
    exact h
  | one => exact h.stage2 (q := 1) hdvd he
  | more k ih _ =>
    obtain ⟨m1, h1, h2⟩ := (bind_ok_iff _ _ _).mp he
    rw [pow_add, mul_comm] at hdvd h h1
    exact ih (dvd_of_mul_left_dvd hdvd) (h.stage4 hdvd h1) h2

theorem Comb.network {k : Nat} (hlen : c.fftLen = 2 ^ k) (h : Comb c b c.fftLen m)
    (he : network c b false m = .ok m') : Comb c b 1 m' := by
  have hlog : Nat.log2 c.fftLen = k := by rw [hlen, Nat.log2_two_pow]
  rw [hlen] at h
  by_cases htag : c.tag = .radix2
  · rw [network_of_radix2 htag, hlog] at he
    exact h.networkRadix2 hlen.symm.dvd he
  · rw [network_of_not_radix2 htag, hlog] at he
    exact h.networkRadix4 hlen.symm.dvd he

/-! ### The transform of the impulse -/

theorem Comb.filled {d : Nat} (hb : b + 2 * c.fftLen ≤ Config.dmemWords) (h : Comb c b d m) :
    Filled m b (2 * c.fftLen) := by
  refine ⟨hb, fun a ha => ?_⟩
  obtain ⟨i, hi, hat⟩ := exists_complexAt_of_region ha
  obtain ⟨z, hz, -⟩ := h i hi
  exact cget_written hz hat

theorem comb_impulse (h0 : cget m b 0 = .ok complexOne)
    (h : ∀ i, 0 < i → i < c.fftLen → cget m b i = .ok ⟨zeroH, zeroH⟩) : Comb c b c.fftLen m := by
  intro i hi
  by_cases hi0 : i = 0
  · subst hi0
    exact ⟨_, h0, fun _ => rfl, fun hn => absurd (Nat.dvd_zero _) hn⟩
  · exact ⟨_, h i (by omega) hi, fun hd => absurd (Nat.eq_zero_of_dvd_of_lt hd hi) hi0,
      fun _ => ⟨isZeroHalf_zeroH, isZeroHalf_zeroH⟩⟩

theorem Comb.cget_eq {i : Nat} (h : Comb c b 1 m) (hi : i < c.fftLen) : cget m b i = .ok complexOne := by
  obtain ⟨z, hz, ht⟩ := h i hi
  rw [hz, ht.1 (one_dvd i)]

/-- The reordering pass moves ones only. -/
theorem Comb.reorderIf (hc : c.Wf) (hb : b + 2 * c.fftLen ≤ Config.dmemWords) {br : Bool} (h : Comb c b 1 m)
    (he : reorderIf br c b m = .ok m') {i : Nat} (hi : i < c.fftLen) : cget m' b i = .ok complexOne := by
  cases br with
  | false =>
    cases he
    exact h.cget_eq hi
  | true => rw [cget_bitReverse hc (h.filled hb) he hi, h.cget_eq (hc.brView_lt i)]

end

/-- Settles O46: the impulse is the comb of the whole length, and the network leaves the comb of every index. -/
theorem complexImpulseHasAConstantSpectrum : Obligations.ComplexImpulseHasAConstantSpectrum := by
  intro tag k br s c hs htag hc h0 hin hz
  have hb : s.arg 0 + 2 * c.fftLen ≤ Config.dmemWords := (inRange_iff _).mp hin
  have hcomb : Comb c (s.arg 0) c.fftLen s.dmem := comb_impulse h0 hz
  obtain ⟨q, -, -, hlen⟩ := exists_log_of_mem_cfftLengths hc.1
  obtain ⟨m, hm⟩ := cfftCore_completes false br hc (hcomb.filled hb)
  obtain ⟨-, m1, m2, h1, h2, h3⟩ := (cfftCore_ok_iff _ _ _ _ _ _).mp hm
  cases h2
  refine ⟨m, ?_, fun i hi => (hcomb.network hlen h1).reorderIf hc hb h3 hi⟩
  rw [exec_transformCommand false br hs htag, hm]
  rfl

end Sys2Proof.Machine
end

section
/-! The real adapter (46_real_fft_adapter.md): the making of a real instance (R232, R233), the split loop bin by bin, and
the two directions of the transform on buffers that do not overlap (R235 to R238). -/

namespace Sys2Proof.Machine

/-! ### Initialisation (R232, R233) -/

theorem makeRfftSlot_of_mem {n : Nat} (h : n ∈ Config.rfftLengths) : makeRfftSlot n = some (.rfft (makeRfft n)) :=
  if_pos ((rfftSupported_iff n).mpr h)

theorem makeRfftSlot_of_not_mem {n : Nat} (h : n ∉ Config.rfftLengths) : makeRfftSlot n = none :=
  if_neg fun hs => h ((rfftSupported_iff n).mp hs)

/-- Settles O24: the two ends of an initialisation command, with the fields of `MakeRfft`. -/
theorem realInitialisationCompletes : Obligations.RealInitialisationCompletes := by
  intro k s hk
  rw [exec_of_isInit s rfl, show madeSlot (.rfftInit k) s = makeRfftSlot (s.arg 0) from rfl]
  split
  case isTrue h =>
    rw [makeRfftSlot_of_mem h]
    exact finishInit_some s _ hk
  case isFalse h =>
    rw [makeRfftSlot_of_not_mem h]
    exact finishInit_none s hk

/-! ### Reads of what was left alone -/

theorem Within.cget_eq {w : Nat → Prop} {m m' : Memory} (h : Within w m m') {b i : Nat}
    (hi : ∀ a, ComplexAt b i a → ¬ w a) : cget m' b i = cget m b i := by
  rw [cget, cget, h.memRead_eq (hi _ (Or.inl rfl)), h.memRead_eq (hi _ (Or.inr rfl))]

theorem Within.sameIn {B : Buffer} {w : Nat → Prop} {m m' : Memory} (h : Within w m m')
    (hB : ∀ a, Region B.base B.length a → ¬ w a) : sameIn B m m' :=
  fun a ha => h.elementAt (hB a ((inBuffer_iff B a).mp ha))

theorem Within.unchangedOutside_pair {B C : Buffer} {m m' : Memory}
    (h : Within (fun a => Region B.base B.length a ∨ Region C.base C.length a) m m') :
    Machine.unchangedOutside [B, C] m m' := by
  refine fun n hn => h.frame n ?_
  rw [← inBuffer_iff, ← inBuffer_iff, hn B (by simp), hn C (by simp)]
  simp

theorem filled_of_bufferWritten {m : Memory} {b : Buffer} (hr : inRange b = true) (hw : bufferWritten m b) :
    Filled m b.base b.length :=
  ⟨(inRange_iff b).mp hr, fun a ha => hw a ((inBuffer_iff b a).mpr ha)⟩

/-! ### The split loop (R236, R238) -/

section
variable {split : Complex16 → Complex16 → RomEntry → Complex16} {r : RealInstance} {inp out : Nat} {m m' : Memory}

/-- The element addresses of bins 1 .. M-1 of a buffer. -/
def InnerBins (r : RealInstance) (b : Nat) : Nat → Prop :=
  fun a => ∃ k, 0 < k ∧ k < r.fftLenRFFT / 2 ∧ ComplexAt b k a

/-- Each of bins 1 .. n-1 of the buffer `out` in m' is split from two bins of the buffer `inp` in m. -/
def SplitBinsBelow (n : Nat) (split : Complex16 → Complex16 → RomEntry → Complex16) (r : RealInstance) (inp out : Nat)
    (m m' : Memory) : Prop :=
  ∀ j, 0 < j → j < n → ∃ a b, cget m inp j = .ok a ∧ cget m inp (r.fftLenRFFT / 2 - j) = .ok b ∧
    cget m' out j = .ok (split a b (twiddleView r.rfftTwidModifier j))

/-- Each of bins 1 .. M-1 of the buffer `out` in m' is split from two bins of the buffer `inp` in m. -/
def SplitBins (split : Complex16 → Complex16 → RomEntry → Complex16) (r : RealInstance) (inp out : Nat)
    (m m' : Memory) : Prop := SplitBinsBelow (r.fftLenRFFT / 2) split r inp out m m'

theorem InnerBins.region {b a : Nat} (h : InnerBins r b a) : Region b r.fftLenRFFT a := by
  obtain ⟨k, -, hk, ha⟩ := h
  exact complexAt_region ha (by omega)

theorem splitLoop_within_innerBins (h : splitLoop split r inp out m = .ok m') : Within (InnerBins r out) m m' :=
  forUpTo_within h fun j hj _ _ hd => (splitStep_within hd).weaken fun _ ha => ⟨j + 1, by omega, by omega, ha⟩

/-- The loop leaves bins 0 and M of its output alone. -/
theorem splitLoop_cget_ends (h : splitLoop split r inp out m = .ok m') {k : Nat}
    (hk : k = 0 ∨ k = r.fftLenRFFT / 2) : cget m' out k = cget m out k := by
  refine (splitLoop_within_innerBins h).cget_eq fun a ha ⟨j, h0, hj, hja⟩ => ?_
  have := complexAt_index_unique ha hja
  omega

theorem SplitBins.of_source_eq {n : Memory} (h : SplitBins split r inp out m m')
    (he : ∀ k, 0 < k → k < r.fftLenRFFT / 2 → cget m inp k = cget n inp k) : SplitBins split r inp out n m' := by
  intro j h0 hj
  rw [← he j h0 hj, ← he (r.fftLenRFFT / 2 - j) (by omega) (by omega)]
  exact h j h0 hj

/-- On buffers without a common element each iteration reads the bins that stood there before the loop. -/
theorem splitLoop_ok (h : splitLoop split r inp out m = .ok m')
    (hd : ∀ a, Region inp r.fftLenRFFT a → ¬ Region out r.fftLenRFFT a) : SplitBins split r inp out m m' := by
  have source {c : Memory} (hw : Within (InnerBins r out) m c) {k : Nat} (hk : k < r.fftLenRFFT / 2) :
      cget c inp k = cget m inp k :=
    hw.cget_eq fun a ha hin => hd a (complexAt_region ha (by omega)) hin.region
  have hinv := forUpTo_ok (fun i c => Within (InnerBins r out) m c ∧ SplitBinsBelow (i + 1) split r inp out m c) h
    ⟨Within.refl _ _, fun j h0 h1 => by omega⟩ fun i hi c d hstep ⟨hw, hbins⟩ => ?_
  · exact fun j h0 hj => hinv.2 j h0 (by omega)
  · have hwd := hw.trans ((splitStep_within hstep).weaken fun a ha => ⟨i + 1, by omega, by omega, ha⟩)
    refine ⟨hwd, fun j h0 hj => ?_⟩
    simp only [splitStep, bind_ok_iff] at hstep
    obtain ⟨a, ha, b, hb, hput⟩ := hstep
    obtain rfl | hne := eq_or_ne j (i + 1)
    · exact ⟨a, b, (source hw (by omega)).symm.trans ha, (source hw (by omega)).symm.trans hb,
        (cget_cput (j := i + 1) hput).1⟩
    · rw [(cget_cput hput).2 hne]
      exact hbins j h0 (by omega)

end

/-! ### Forward (R236, R237) -/

section
variable {r : RealInstance} {inp out : Nat} {m m' : Memory}

/-- What a forward transform that answered left: Z in its input, and its output made of Z. -/
theorem rfftForward_ok (hr : r.Wf) (ho : overlap (timeBuffer r inp) (spectrumBuffer r out) = false)
    (h : rfftForward r inp out m = .ok m') :
    ∃ z z0, cfftCore r.cfft inp false true m = .ok z ∧ sameIn (timeBuffer r inp) z m' ∧ cget z inp 0 = .ok z0 ∧
      cget m' out 0 = .ok ⟨num.hAdd z0.re z0.im, zeroH⟩ ∧
      cget m' out (r.fftLenRFFT / 2) = .ok ⟨num.hSub z0.re z0.im, zeroH⟩ ∧ SplitBins splitForward r inp out z m' := by
  obtain ⟨z, z0, m2, m3, hcore, hz0, hdc, hny, hloop⟩ := (rfftForward_ok_iff r inp out m m').mp h
  have hpos := hr.length_pos
  have apart : ∀ a, Region inp r.fftLenRFFT a → ¬ Region out (r.fftLenRFFT + 2) a :=
    fun a ha => overlap_false_disjoint ho ha
  have inner : ∀ a, Region out r.fftLenRFFT a → Region out (r.fftLenRFFT + 2) a :=
    fun a ⟨hlo, hhi⟩ => ⟨hlo, by omega⟩
  have hw3 : Within (Region out (r.fftLenRFFT + 2)) z m3 :=
    ((cput_within hdc).weaken fun a ha => complexAt_region ha (by omega)).trans
      ((cput_within hny).weaken fun a ha => complexAt_region ha (by omega))
  have hbins := splitLoop_ok hloop fun a ha hb => apart a ha (inner a hb)
  refine ⟨z, z0, hcore, (hw3.trans ((splitLoop_within hloop).weaken inner)).sameIn apart, hz0, ?_, ?_,
    hbins.of_source_eq fun k h0 hk => hw3.cget_eq fun a ha => apart a (complexAt_region ha (by omega))⟩
  · rw [splitLoop_cget_ends hloop (Or.inl rfl), (cget_cput hny).2 (by omega), (cget_cput (j := 0) hdc).1]
  · rw [splitLoop_cget_ends hloop (Or.inr rfl), (cget_cput (j := 0) hny).1]

theorem rfftRun_forward_completes (hr : r.Wf) (h : RfftForwardReady r inp out m) :
    ∃ m', rfftRun r false inp out m = .ok m' := by
  obtain ⟨hin, hout, ho, hw⟩ := h
  obtain ⟨m', hm', -⟩ := rfftForward_completes hr (filled_of_bufferWritten hin hw) ((inRange_iff _).mp hout)
  exact ⟨m', (rfftRun_forward_ok_iff _ _ _ _ _).mpr ⟨⟨hin, hout⟩, ho, hm'⟩⟩

end

/-- Settles O33: the transform completes, and each of its steps leaves alone what the others wrote or will read. -/
theorem rfftForwardCompletes : Obligations.RfftForwardCompletes := by
  intro k s r hs hr hready
  obtain ⟨m, hrun⟩ := rfftRun_forward_completes hr hready
  obtain ⟨-, ho, hm⟩ := (rfftRun_forward_ok_iff _ _ _ _ _).mp hrun
  obtain ⟨z, z0, hcore, hsame, hz0, hdc, hny, hbins⟩ := rfftForward_ok hr ho hm
  refine ⟨z, m, z0, hcore, ?_, hsame, hz0, hdc, hny, hbins, Within.unchangedOutside_pair (rfftForward_within hr hm)⟩
  rw [exec_rfft false hs, hrun]
  rfl

/-! ### Inverse (R238) -/

section
variable {r : RealInstance} {inp out : Nat} {m m' p : Memory}

/-- The buffer `out` of p holds the pre-processed spectrum that the buffer `inp` of m holds. -/
def PreparedSpectrum (r : RealInstance) (inp out : Nat) (m p : Memory) : Prop :=
  ∃ x0 xM, elementAt m inp = some x0 ∧ elementAt m (inp + r.fftLenRFFT) = some xM ∧
    cget p out 0 = .ok ⟨num.hMul halfH (num.hAdd x0 xM), num.hMul halfH (num.hSub x0 xM)⟩ ∧
    SplitBins splitInverse r inp out m p

theorem RealInstance.Wf.complexRe_last (hr : r.Wf) (b : Nat) : complexRe b (r.fftLenRFFT / 2) = b + r.fftLenRFFT := by
  have := hr.length_eq
  simp only [complexRe]
  omega

/-- What an inverse transform that answered did: its output buffer held the pre-processed spectrum and was transformed
in place. -/
theorem rfftInverse_ok (hr : r.Wf) (ho : overlap (spectrumBuffer r inp) (timeBuffer r out) = false)
    (h : rfftInverse r inp out m = .ok m') :
    ∃ p, PreparedSpectrum r inp out m p ∧ cfftCore r.cfft out true true p = .ok m' := by
  obtain ⟨x0, xM, m1, p, hx0, hxM, hput, hloop, hcore⟩ := (rfftInverse_ok_iff r inp out m m').mp h
  have hpos := hr.length_pos
  have apart : ∀ a, Region inp r.fftLenRFFT a → ¬ Region out r.fftLenRFFT a :=
    fun a ⟨hlo, hhi⟩ => overlap_false_disjoint ho (b := spectrumBuffer r inp) ⟨hlo, Nat.lt_add_right 2 hhi⟩
  refine ⟨p, ⟨x0, xM, ((memRead_ok_iff _ _ _).mp hx0).2, hr.complexRe_last inp ▸ ((memRead_ok_iff _ _ _).mp hxM).2, ?_,
    (splitLoop_ok hloop apart).of_source_eq fun k h0 hk => ?_⟩, hcore⟩
  · rw [splitLoop_cget_ends hloop (Or.inl rfl), (cget_cput (j := 0) hput).1]
  · exact (cput_within hput).cget_eq fun a ha hout =>
      apart a (complexAt_region ha (by omega)) (complexAt_region hout (by omega))

theorem rfftRun_inverse_completes (hr : r.Wf) (h : RfftInverseReady r inp out m) :
    ∃ m', rfftRun r true inp out m = .ok m' := by
  obtain ⟨hin, hout, ho, hw⟩ := h
  have hpos := hr.length_pos
  have hread : ∀ a, Region inp (r.fftLenRFFT + 2) a → a ≠ inp + 1 → a ≠ inp + r.fftLenRFFT + 1 → written m a = true :=
    fun a ha => hw a ((inBuffer_iff (spectrumBuffer r inp) a).mpr ha)
  have hin' : inp + (r.fftLenRFFT + 2) ≤ Config.dmemWords := (inRange_iff _).mp hin
  obtain ⟨m', hm'⟩ := rfftInverse_completes hr hin' ((inRange_iff _).mp hout)
    (hread inp ⟨by omega, by omega⟩ (by omega) (by omega))
    (hread _ ⟨by omega, by omega⟩ (by omega) (by omega))
    ⟨by omega, fun a ⟨hlo, hhi⟩ => hread a ⟨by omega, by omega⟩ (by omega) (by omega)⟩
  exact ⟨m', (rfftRun_inverse_ok_iff _ _ _ _ _).mpr ⟨⟨hin, hout⟩, ho, hm'⟩⟩

end

/-- Settles O34: the transform completes, and the pre-processing read bins that it did not write. -/
theorem rfftInverseCompletes : Obligations.RfftInverseCompletes := by
  intro k s r hs hr hready
  obtain ⟨m, hrun⟩ := rfftRun_inverse_completes hr hready
  obtain ⟨-, ho, hm⟩ := (rfftRun_inverse_ok_iff _ _ _ _ _).mp hrun
  obtain ⟨p, ⟨x0, xM, hx0, hxM, hp0, hbins⟩, hcore⟩ := rfftInverse_ok hr ho hm
  refine ⟨p, m, x0, xM, hx0, hxM, hp0, hbins, hcore, ?_,
    Within.unchangedOutside (B := timeBuffer r (s.arg 1)) (rfftInverse_within hr hm)⟩
  rw [exec_rfft true hs, hrun]
  rfl

end Sys2Proof.Machine
end

section
/-! What the inverse real transform depends on (46_real_fft_adapter.md R239): its input but for the imaginary parts of
bins 0 and M, which fixes the pre-processed spectrum, which fixes the output. -/

namespace Sys2Proof.Machine

/-! ### The same pre-processed spectrum (R238, R239) -/

theorem cget_congr {m n : Memory} {b i : Nat} (h : ∀ a, ComplexAt b i a → elementAt n a = elementAt m a) :
    cget n b i = cget m b i := by
  simp only [cget, memRead, h _ (Or.inl rfl), h _ (Or.inr rfl)]

theorem memRead_of_cget {m : Memory} {b i : Nat} {z : Complex16} (h : cget m b i = .ok z) :
    memRead m (b + 2 * i) = .ok z.re ∧ memRead m (b + (2 * i + 1)) = .ok z.im := by
  obtain ⟨re, hre, h⟩ := (bind_ok_iff _ _ _).mp h
  obtain ⟨im, him, h⟩ := (bind_ok_iff _ _ _).mp h
  cases h
  exact ⟨hre, him⟩

theorem mirrors_offsets_of_cget {c : ComplexInstance} {b b' : Nat} {m n : Memory}
    (h : ∀ i < c.fftLen, ∃ z, cget m b i = .ok z ∧ cget n b' i = .ok z) : Mirrors c.Offsets b m b' n := by
  intro j (hj : j < 2 * c.fftLen)
  obtain ⟨z, hm, hn⟩ := h (j / 2) (by omega)
  obtain ⟨hmre, hmim⟩ := memRead_of_cget hm
  obtain ⟨hnre, hnim⟩ := memRead_of_cget hn
  obtain e | e : j = 2 * (j / 2) ∨ j = 2 * (j / 2) + 1 := by omega
  · rw [e, hnre, hmre]
  · rw [e, hnim, hmim]

section
variable {r : RealInstance} {inp out : Nat} {m n p q : Memory}

/-- Two memories hold the same spectrum, but for the imaginary parts of bins 0 and M. -/
def SameReadSpectrum (r : RealInstance) (inp : Nat) (m n : Memory) : Prop :=
  ∀ a, inBuffer (spectrumBuffer r inp) a = true → a ≠ inp + 1 → a ≠ inp + r.fftLenRFFT + 1 →
    elementAt n a = elementAt m a

theorem SameReadSpectrum.elementAt_eq (h : SameReadSpectrum r inp m n) {a : Nat}
    (ha : Region inp (r.fftLenRFFT + 2) a) (h0 : a ≠ inp + 1) (hM : a ≠ inp + r.fftLenRFFT + 1) :
    elementAt n a = elementAt m a := h a ((inBuffer_iff (spectrumBuffer r inp) a).mpr ha) h0 hM

theorem SameReadSpectrum.cget_eq (h : SameReadSpectrum r inp m n) {k : Nat} (h0 : 0 < k) (hk : k < r.fftLenRFFT / 2) :
    cget n inp k = cget m inp k :=
  cget_congr fun a ha => by
    have hreg : Region inp (r.fftLenRFFT + 2) a := complexAt_region ha (by omega)
    simp only [ComplexAt, complexRe, complexIm] at ha
    exact h.elementAt_eq hreg (by omega) (by omega)

theorem SameReadSpectrum.ready (h : SameReadSpectrum r inp m n) (hm : RfftInverseReady r inp out m) :
    RfftInverseReady r inp out n := by
  obtain ⟨hin, hout, ho, hw⟩ := hm
  refine ⟨hin, hout, ho, fun a ha h0 hM => ?_⟩
  rw [written, h a ha h0 hM]
  exact hw a ha h0 hM

theorem PreparedSpectrum.cget_eq (hr : r.Wf) (h : SameReadSpectrum r inp m n) (hp : PreparedSpectrum r inp out m p)
    (hq : PreparedSpectrum r inp out n q) {i : Nat} (hi : i < r.fftLenRFFT / 2) :
    ∃ z, cget p out i = .ok z ∧ cget q out i = .ok z := by
  have hpos := hr.length_pos
  obtain ⟨x0, xM, hx0, hxM, hp0, hpbins⟩ := hp
  obtain ⟨y0, yM, hy0, hyM, hq0, hqbins⟩ := hq
  by_cases hi0 : i = 0
  · subst hi0
    rw [h.elementAt_eq ⟨by omega, by omega⟩ (by omega) (by omega)] at hy0 hyM
    cases hx0.symm.trans hy0
    cases hxM.symm.trans hyM
    exact ⟨_, hp0, hq0⟩
  · obtain ⟨a, b, ha, hb, hpi⟩ := hpbins i (by omega) hi
    obtain ⟨a', b', ha', hb', hqi⟩ := hqbins i (by omega) hi
    rw [h.cget_eq (by omega) (by omega)] at ha' hb'
    cases ha.symm.trans ha'
    cases hb.symm.trans hb'
    exact ⟨_, hpi, hqi⟩

/-- Spectra that differ at most in the imaginary parts of bins 0 and M give the same output. -/
theorem rfftRun_inverse_sameIn {m' : Memory} (hr : r.Wf) (h : SameReadSpectrum r inp m n)
    (hrun : rfftRun r true inp out m = .ok m') :
    ∃ n', rfftRun r true inp out n = .ok n' ∧ sameIn (timeBuffer r out) m' n' := by
  obtain ⟨n', hrun'⟩ := rfftRun_inverse_completes hr (h.ready (rfftRun_inverse_ready hr hrun))
  obtain ⟨⟨-, hout⟩, ho, hm⟩ := (rfftRun_inverse_ok_iff _ _ _ _ _).mp hrun
  obtain ⟨-, -, hn⟩ := (rfftRun_inverse_ok_iff _ _ _ _ _).mp hrun'
  obtain ⟨p, hp, hcore⟩ := rfftInverse_ok hr ho hm
  obtain ⟨q, hq, hcore'⟩ := rfftInverse_ok hr ho hn
  have hlen := hr.length_eq
  have hpq : Mirrors r.cfft.Offsets out p out q :=
    mirrors_offsets_of_cget fun i hi => hp.cget_eq hr h hq (by omega)
  obtain ⟨n'', hcore'', hmir⟩ := cfftCore_mirrors hr.cfft_wf hcore ((cfftCore_ok_iff _ _ _ _ _ _).mp hcore').1 hpq
  cases hcore'.symm.trans hcore''
  refine ⟨n', hrun', fun a ha => ?_⟩
  obtain ⟨hlo, hhi⟩ : out ≤ a ∧ a < out + r.fftLenRFFT := (inBuffer_iff _ a).mp ha
  obtain ⟨j, rfl⟩ := Nat.exists_eq_add_of_le hlo
  have hrange : out + r.fftLenRFFT ≤ Config.dmemWords := (inRange_iff _).mp hout
  exact elementAt_eq_of_memRead_eq (by omega) (by omega) (hmir j (show j < 2 * r.cfft.fftLen by omega))

end

/-! ### The command (R239) -/

/-- Settles O38: only the output is written, only it depends on what is read, and what is read is all but two elements. -/
theorem rfftInverseIgnoresTheImaginaryEnds : Obligations.RfftInverseIgnoresTheImaginaryEnds := by
  intro k s r hs hr
  rw [exec_rfft true hs]
  refine ⟨fun t h => ?_, fun m t hsame h => ?_, fun a t ha h0 hM hnone h => ?_⟩
  all_goals obtain ⟨m', hrun, rfl⟩ := (commit_next_iff _ _ _).mp h
  · obtain ⟨-, ho, hm⟩ := (rfftRun_inverse_ok_iff _ _ _ _ _).mp hrun
    exact (rfftInverse_within hr hm).sameIn fun a ha => overlap_false_disjoint ho ha
  · obtain ⟨n', hrun', hn'⟩ := rfftRun_inverse_sameIn hr (n := m) hsame hrun
    refine ⟨s.withDmem n', ?_, hn'⟩
    rw [exec_rfft true (s := s.withDmem m) hs]
    exact (commit_next_iff _ _ _).mpr ⟨n', hrun', rfl⟩
  · obtain ⟨-, -, -, hw⟩ := rfftRun_inverse_ready hr hrun
    exact absurd (hw a ha h0 hM) (by simp [hnone])

end Sys2Proof.Machine
end

section
/-! The impulse through the real adapter (46_real_fft_adapter.md R243): its half-length transform is 1 everywhere, and
the split of two ones is 1. -/

namespace Sys2Proof.Machine

/-! ### The split of two ones -/

theorem isZeroHalf_mul_zeroH {x : Half} (hx : isFinite formatH x.toNat = true) : IsZeroHalf (num.hMul x zeroH) := by
  rw [show num.hMul x zeroH = _ from halfMul_zeroH hx, and_signBit]
  cases signOf formatH x.toNat
  · exact Or.inl rfl
  · exact Or.inr rfl

/-- The pattern of 2, the sum of two ones. -/
def twoH : Half := 0x4000#16

theorem oneH_add_oneH : num.hAdd oneH oneH = twoH := by decide +kernel

theorem twoH_zero {y : Half} (hy : IsZeroHalf y) : num.hAdd twoH y = twoH ∧ num.hSub twoH y = twoH := by
  obtain rfl | rfl := hy <;> decide +kernel

theorem halfH_mul_twoH : num.hMul halfH twoH = oneH := by decide +kernel

theorem halfH_mul_zeroH : num.hMul halfH zeroH = zeroH := by decide +kernel

theorem splitForward_complexOne {w : RomEntry} (hw : w.IsFinite) : splitForward complexOne complexOne w = complexOne := by
  have hc := isZeroHalf_mul_zeroH hw.1
  have hs := isZeroHalf_mul_zeroH hw.2
  have hdr : num.hSub oneH oneH = zeroH := halfSub_self oneH_fields.1
  obtain ⟨hdi, hsi⟩ := zeroH_zero isZeroHalf_zeroH
  simp only [splitForward, complexOne, oneH_add_oneH, hdr, hdi, hsi, (twoH_zero hc).1, (twoH_zero hs).2,
    (zeroH_zero hc).2, (zeroH_zero hs).2, halfH_mul_twoH, halfH_mul_zeroH]

/-! ### The half-length transform -/

theorem Comb.cfftCore {c : ComplexInstance} {b : Nat} {br : Bool} {m m' : Memory} (hc : c.Wf)
    (hb : b + 2 * c.fftLen ≤ Config.dmemWords) (h : Comb c b c.fftLen m) (he : cfftCore c b false br m = .ok m')
    {i : Nat} (hi : i < c.fftLen) : cget m' b i = .ok complexOne := by
  obtain ⟨q, -, -, hlen⟩ := exists_log_of_mem_cfftLengths hc.1
  obtain ⟨-, m1, m2, h1, h2, h3⟩ := (cfftCore_ok_iff _ _ _ _ _ _).mp he
  cases h2
  exact (h.network hlen h1).reorderIf hc hb h3 hi

/-- The real impulse, two samples to a complex element, is the complex impulse of half the length. -/
theorem comb_realImpulse {r : RealInstance} {inp : Nat} {m : Memory} (hr : r.Wf)
    (hb : inp + r.fftLenRFFT ≤ Config.dmemWords) (h0 : elementAt m inp = some oneH)
    (h : ∀ i, 0 < i → i < r.fftLenRFFT → elementAt m (inp + i) = some zeroH) :
    Comb r.cfft inp r.cfft.fftLen m := by
  have hlen := hr.length_eq
  have hpos := hr.length_pos
  have get {i : Nat} {z : Complex16} (hi : i < r.cfft.fftLen) (hre : elementAt m (inp + 2 * i) = some z.re)
      (him : z.im = zeroH) : cget m inp i = .ok z :=
    (cget_ok_iff _ _ _ _).mpr ⟨by simp only [complexIm]; omega, hre, him ▸ h (2 * i + 1) (by omega) (by omega)⟩
  exact comb_impulse (get (by omega) h0 rfl) fun i hi0 hi => get hi (h (2 * i) (by omega) (by omega)) rfl

/-! ### The command -/

/-- Settles O47: Z is 1 everywhere, so the first bin is 1 + 0, the last 1 - 0, and each between the split of two ones. -/
theorem realImpulseHasAConstantSpectrum : Obligations.RealImpulseHasAConstantSpectrum := by
  intro k s r hs hr hin hout ho h0 hz
  have hlen := hr.length_eq
  have hpos := hr.length_pos
  have hb : s.arg 0 + r.fftLenRFFT ≤ Config.dmemWords := (inRange_iff _).mp hin
  have hcomb := comb_realImpulse hr hb h0 hz
  have hb2 : s.arg 0 + 2 * r.cfft.fftLen ≤ Config.dmemWords := hlen ▸ hb
  have hf := hcomb.filled hb2
  rw [← hlen] at hf
  have hready : RfftForwardReady r (s.arg 0) (s.arg 1) s.dmem :=
    ⟨hin, hout, ho, bufferWritten_of_filled (b := timeBuffer r (s.arg 0)) hf⟩
  obtain ⟨z, m, z0, hcore, hexec, -, hz0, hdc, hny, hbins, -⟩ := rfftForwardCompletes k s r hs hr hready
  have hone : ∀ i < r.fftLenRFFT / 2, cget z (s.arg 0) i = .ok complexOne :=
    fun i hi => hcomb.cfftCore hr.cfft_wf hb2 hcore (by omega)
  cases hz0.symm.trans (hone 0 (by omega))
  obtain ⟨hadd, hsub⟩ := oneH_zero isZeroHalf_zeroH
  refine ⟨m, hexec, fun j hj => ?_⟩
  obtain rfl | rfl | ⟨hj0, hjM⟩ : j = 0 ∨ j = r.fftLenRFFT / 2 ∨ (0 < j ∧ j < r.fftLenRFFT / 2) := by omega
  · rw [hdc, show complexOne.re = oneH from rfl, show complexOne.im = zeroH from rfl, hadd]
  · rw [hny, show complexOne.re = oneH from rfl, show complexOne.im = zeroH from rfl, hsub]
  · obtain ⟨a, b, ha, hb', hsplit⟩ := hbins j hj0 hjM
    cases ha.symm.trans (hone j hjM)
    cases hb'.symm.trans (hone _ (by omega))
    rw [hsplit, splitForward_complexOne (w := twiddleView r.rfftTwidModifier j) (isFinite_twiddle _)]
    rfl

end Sys2Proof.Machine
end

section
/-! Initialisation of an MFCC instance (49_mfcc_extractor.md R272, R273), log compression (R279), and what each step of
`MFCC` leaves when it answers (R276 to R280, 47_mel_filterbank.md R252, 48_dct_core.md R261). -/

namespace Sys2Proof.Machine

/-! ### Initialisation (R272, R273) -/

/-- The instance that `MFCC_INIT` makes of the eight argument registers, its backend the one a build of the given kind
makes. -/
def makeMfcc (be : MfccBackend) (s : State) : MfccInstance where
  fftLen := s.arg 0
  nbMelFilters := s.arg 1
  nbDctOutputs := s.arg 2
  dctCoefs := s.arg 3
  filterPos := s.arg 4
  filterLengths := s.arg 5
  filterCoefs := s.arg 6
  windowCoefs := s.arg 7
  backend := makeBackend be (s.arg 0)

theorem makeMfccSlot_of_mem {be : MfccBackend} {s : State} (h : s.arg 0 ∈ backendLengths be) :
    makeMfccSlot be s = some (.mfcc (makeMfcc be s)) := if_pos ((mfccSupported_iff be _).mpr h)

theorem makeMfccSlot_of_not_mem {be : MfccBackend} {s : State} (h : s.arg 0 ∉ backendLengths be) :
    makeMfccSlot be s = none := if_neg fun hs => h ((mfccSupported_iff be _).mp hs)

/-- Settles O25: the two ends of an initialisation command. -/
theorem mfccInitialisationCompletes : Obligations.MfccInitialisationCompletes := by
  intro k s hk
  rw [exec_of_isInit s rfl, show madeSlot (.mfccInit k) s = makeMfccSlot Config.mfccBackend s from rfl]
  split
  case isTrue h =>
    rw [makeMfccSlot_of_mem h]
    exact finishInit_some s _ hk
  case isFalse h =>
    rw [makeMfccSlot_of_not_mem h]
    exact finishInit_none s hk

/-! ### Log compression (R279) -/

theorem halfIsNaN_of_halfLt {x y : Half} (h : num.hLt x y = true) : num.hIsNaN x = false := by
  change (!isNaN formatH x.toNat && _ && _) = true at h
  rw [Bool.and_assoc, Bool.and_eq_true, Bool.not_eq_true'] at h
  exact h.1

theorem logCompress_of_lt {e : Half} (h : num.hLt e Config.logFloor = true) :
    logCompress e = num.hOfA (num.aLog (num.aOfH Config.logFloor)) := by
  simp only [logCompress, halfIsNaN_of_halfLt h, h, Bool.not_false, Bool.and_self, reduceIte]

theorem logCompress_of_nan {e : Half} (h : num.hIsNaN e = true) : logCompress e = num.hOfA (num.aLog 0x7FC00000#32) := by
  have hw : num.aOfH e = 0x7FC00000#32 := (accOfHalf_eq_quietNaN_iff e).mp h
  simp only [logCompress, h, Bool.not_true, Bool.false_and, Bool.false_eq_true, reduceIte, hw]

/-- Settles O49: every energy below the floor is the floor, every NaN widens to one pattern, and four values are
computed. -/
theorem logarithmHasItsFloor : Obligations.LogarithmHasItsFloor := by
  refine ⟨fun e h => ?_, fun e h => ?_, by decide +kernel, by decide +kernel⟩
  · rw [logCompress_of_lt h]
    decide +kernel
  · rw [logCompress_of_nan h]
    decide +kernel

/-! ### A loop whose iterations each leave something of their own -/

/-- If every answered iteration takes the invariant a step on, leaves what is its own and spares what the ones before it
left, then at the end all of that is there. -/
theorem forUpTo_each {α : Type} (inv P : Nat → α → Prop) {n : Nat} {f : Nat → α → Except Fault α} {a c : α}
    (h : forUpTo n f a = .ok c) (h0 : inv 0 a)
    (hs : ∀ i < n, ∀ b d, f i b = .ok d → inv i b → inv (i + 1) d ∧ P i d ∧ ∀ k < i, P k b → P k d) :
    inv n c ∧ ∀ k < n, P k c := by
  refine forUpTo_ok (fun i b => inv i b ∧ ∀ k < i, P k b) h ⟨h0, fun k hk => absurd hk (Nat.not_lt_zero k)⟩ ?_
  intro i hi b d hd ⟨hinv, hP⟩
  obtain ⟨hinv', hown, hspare⟩ := hs i hi b d hd hinv
  refine ⟨hinv', fun k hk => ?_⟩
  obtain hlt | rfl := Nat.lt_succ_iff_lt_or_eq.mp hk
  · exact hspare k hlt (hP k hlt)
  · exact hown

theorem memWrite_elementAt {m m' : Memory} {b i : Nat} {v : Half} (h : memWrite m (realElement b i) v = .ok m') :
    elementAt m' (b + i) = some v ∧ ∀ k, k ≠ i → elementAt m' (b + k) = elementAt m (b + k) := by
  obtain ⟨-, rfl⟩ := (memWrite_ok_iff _ _ _ _).mp h
  exact ⟨elementAt_setElement_same _ _ _, fun k hk => elementAt_setElement_other _ _ (by simp only [realElement]; omega)⟩

theorem memWrite_region {m m' : Memory} {b i n : Nat} {v : Half} (h : memWrite m (realElement b i) v = .ok m')
    (hi : i < n) : Within (Region b n) m m' :=
  (memWrite_within h).weaken fun _ ha => by simp only [ha, realElement, Region]; omega

/-! ### Step 1: the window (R276) -/

section
variable {be : MfccBackend} {n scr i k : Nat} {v y : Half} {m m' : Memory}

theorem storeSample_stands (h : storeSample (makeBackend be n) scr i y m = .ok m') :
    sampleStands be m' scr i y ∧ (k ≠ i → sampleStands be m scr k v → sampleStands be m' scr k v) := by
  cases be with
  | real =>
    obtain ⟨hi, hk⟩ := memWrite_elementAt h
    exact ⟨hi, fun hne hv => (hk k hne).trans hv⟩
  | complex =>
    obtain ⟨-, hre, him⟩ := (cget_ok_iff _ _ _ _).mp (cget_cput (j := k) h).1
    refine ⟨⟨hre, him⟩, fun hne hv => ?_⟩
    have away : ∀ a, ComplexAt scr k a → elementAt m' a = elementAt m a := fun a ha =>
      (cput_within h).elementAt fun hi => hne (complexAt_index_unique ha hi)
    exact ⟨(away _ (Or.inl rfl)).trans hv.1, (away _ (Or.inr rfl)).trans hv.2⟩

end

/-- Sample i of the input in m times its window value stands in c where the backend takes it (R276). -/
def WindowedAt (be : MfccBackend) (f : MfccInstance) (inp scr : Nat) (m : Memory) (i : Nat) (c : Memory) : Prop :=
  ∃ x w, elementAt m (inp + i) = some x ∧ elementAt m (f.windowCoefs + i) = some w ∧
    sampleStands be c scr i (num.hMul x w)

/-- Every windowed sample stands in the scratch, when samples and window lie outside it. -/
theorem windowStep_ok {be : MfccBackend} {f : MfccInstance} {inp scr : Nat} {m m' : Memory} (hb : f.BuiltFor be)
    (h : windowStep f inp scr m = .ok m') (hx : ∀ a, Region inp f.fftLen a → ¬ Region scr (2 * f.fftLen) a)
    (hw : ∀ a, Region f.windowCoefs f.fftLen a → ¬ Region scr (2 * f.fftLen) a) :
    ∀ i < f.fftLen, WindowedAt be f inp scr m i m' := by
  refine (forUpTo_each (fun _ c => Within (Region scr (2 * f.fftLen)) m c) (WindowedAt be f inp scr m) h
    (Within.refl _ _) ?_).2
  intro i hi c d hd hc
  simp only [bind_ok_iff, memRead_ok_iff] at hd
  obtain ⟨x, ⟨-, ex⟩, w, ⟨-, ew⟩, hs⟩ := hd
  have hstore := storeSample_within hs hi
  rw [hb.2] at hs
  rw [hc.elementAt (hx _ (by simp only [Region, realElement]; omega))] at ex
  rw [hc.elementAt (hw _ (by simp only [Region, realElement]; omega))] at ew
  refine ⟨hc.trans hstore, ⟨x, w, ex, ew, (storeSample_stands (k := i) (v := x) hs).1⟩, ?_⟩
  rintro k hk ⟨x', w', ex', ew', hv⟩
  exact ⟨x', w', ex', ew', (storeSample_stands hs).2 hk.ne hv⟩

/-! ### Step 3: the magnitudes (R278) -/

/-- Settles O48: bin i takes two elements at or past 2i of the spectrum's place, and bins 0 .. i-1 were written below
them. -/
theorem magnitudesAreThoseOfTheGivenSpectrum : Obligations.MagnitudesAreThoseOfTheGivenSpectrum := by
  intro sp f spectrum scr m m' hplace h k hk
  refine (forUpTo_each (fun i c => Within (Region scr i) m c)
    (fun k c => ∃ z, cget m spectrum k = .ok z ∧ elementAt c (scr + k) = some (binMagnitude sp z))
    h (Within.refl _ _) ?_).2 k (Nat.lt_succ_of_le hk)
  intro i hi c d hd hc
  obtain ⟨z, hz, hwrite⟩ := (bind_ok_iff _ _ _).mp hd
  have hread : cget c spectrum i = cget m spectrum i := hc.cget_eq fun a ha => by
    simp only [ComplexAt, complexRe, complexIm] at ha
    simp only [Region]
    omega
  obtain ⟨hown, hspare⟩ := memWrite_elementAt hwrite
  refine ⟨(hc.weaken fun a ha => ⟨ha.1, Nat.lt_succ_of_lt ha.2⟩).trans (memWrite_region hwrite (Nat.lt_succ_self i)),
    ⟨z, hread ▸ hz, hown⟩, ?_⟩
  rintro k hk ⟨z', hz', hv⟩
  exact ⟨z', hz', (hspare k hk.ne).trans hv⟩

end Sys2Proof.Machine
end

section
/-! The tables that `MFCC` reads, and what its filterbank and projection leave: both depend on the tables and on the
elements that they sum, wherever these stand (47_mel_filterbank.md R251, R252, 48_dct_core.md R261). -/

namespace Sys2Proof.Machine

/-! ### Reads that agree -/

theorem memRead_congr {m n : Memory} {a : Nat} (h : elementAt n a = elementAt m a) : memRead n a = memRead m a := by
  rw [memRead, memRead, h]

theorem memReadNat_congr {m n : Memory} {a : Nat} (h : elementAt n a = elementAt m a) :
    memReadNat n a = memReadNat m a := by
  rw [memReadNat, memReadNat, memRead_congr h]

theorem naturalAt_of_memReadNat {m : Memory} {a k : Nat} (h : memReadNat m a = .ok k) : naturalAt m a = k := by
  obtain ⟨-, v, hv, rfl⟩ := (memReadNat_ok_iff _ _ _).mp h
  rw [naturalAt, hv]

theorem memReadNat_written {m : Memory} {a k : Nat} (h : memReadNat m a = .ok k) : written m a = true := by
  obtain ⟨-, v, hv, -⟩ := (memReadNat_ok_iff _ _ _).mp h
  exact (written_iff m a).mpr ⟨v, hv⟩

/-! ### The running sum of the filter lengths (47_mel_filterbank.md R251) -/

theorem filterOffset_congr {f : MfccInstance} {m n : Memory} {k : Nat}
    (h : ∀ i < k, elementAt n (filterEntry f.filterLengths i) = elementAt m (filterEntry f.filterLengths i)) :
    filterOffset f n k = filterOffset f m k := by
  induction k with
  | zero => rfl
  | succ k ih =>
    rw [filterOffset, filterOffset, ih fun i hi => h i (Nat.lt_succ_of_lt hi), naturalAt_congr (h k (Nat.lt_succ_self k))]

theorem filterOffset_le_total {f : MfccInstance} {i : Nat} (m : Memory) (hi : i < f.nbMelFilters) :
    filterOffset f m i + naturalAt m (filterEntry f.filterLengths i) ≤ filterOffset f m f.nbMelFilters :=
  filterOffset_mono f m (Nat.succ_le_of_lt hi)

/-- Every place of the arena below the sum is that of one weight of one filter. -/
theorem exists_filter_of_lt_filterOffset {f : MfccInstance} {m : Memory} {k x : Nat} (h : x < filterOffset f m k) :
    ∃ i < k, ∃ j < naturalAt m (filterEntry f.filterLengths i), x = filterOffset f m i + j := by
  induction k with
  | zero => exact absurd h (Nat.not_lt_zero x)
  | succ k ih =>
    by_cases hx : x < filterOffset f m k
    · obtain ⟨i, hi, hj⟩ := ih hx
      exact ⟨i, Nat.lt_succ_of_lt hi, hj⟩
    · simp only [filterOffset] at h
      exact ⟨k, Nat.lt_succ_self k, x - filterOffset f m k, by omega, by omega⟩

/-! ### Memories with the same tables -/

/-- Two memories hold the same elements in the five tables. -/
def SameTables (f : MfccInstance) (m n : Memory) : Prop :=
  ∀ b ∈ mfccTables f (filterOffset f m f.nbMelFilters), sameIn b m n

/-- No element of the five tables lies in w. -/
def TablesOff (w : Nat → Prop) (f : MfccInstance) (m : Memory) : Prop :=
  ∀ b ∈ mfccTables f (filterOffset f m f.nbMelFilters), ∀ a, Region b.base b.length a → ¬ w a

theorem Within.sameTables {w : Nat → Prop} {f : MfccInstance} {m n : Memory} (h : Within w m n)
    (ht : TablesOff w f m) : SameTables f m n := fun b hb => h.sameIn (ht b hb)

section
variable {f : MfccInstance} {m n : Memory}

theorem SameTables.elementAt_eq (h : SameTables f m n) {b : Buffer}
    (hb : b ∈ mfccTables f (filterOffset f m f.nbMelFilters)) {i : Nat} (hi : i < b.length) :
    elementAt n (b.base + i) = elementAt m (b.base + i) :=
  h b hb _ ((inBuffer_iff b _).mpr ⟨Nat.le_add_right _ _, by omega⟩)

theorem SameTables.window (h : SameTables f m n) {i : Nat} (hi : i < f.fftLen) :
    elementAt n (f.windowCoefs + i) = elementAt m (f.windowCoefs + i) :=
  h.elementAt_eq (b := ⟨f.windowCoefs, f.fftLen⟩) (by simp [mfccTables]) hi

theorem SameTables.filterPos (h : SameTables f m n) {i : Nat} (hi : i < f.nbMelFilters) :
    elementAt n (filterEntry f.filterPos i) = elementAt m (filterEntry f.filterPos i) :=
  h.elementAt_eq (b := ⟨f.filterPos, f.nbMelFilters⟩) (by simp [mfccTables]) hi

theorem SameTables.filterLength (h : SameTables f m n) {i : Nat} (hi : i < f.nbMelFilters) :
    elementAt n (filterEntry f.filterLengths i) = elementAt m (filterEntry f.filterLengths i) :=
  h.elementAt_eq (b := ⟨f.filterLengths, f.nbMelFilters⟩) (by simp [mfccTables]) hi

theorem SameTables.filterOffset_eq (h : SameTables f m n) {i : Nat} (hi : i ≤ f.nbMelFilters) :
    filterOffset f n i = filterOffset f m i := filterOffset_congr fun _ hj => h.filterLength (hj.trans_le hi)

theorem SameTables.filterCoefficient (h : SameTables f m n) {i j : Nat} (hi : i < f.nbMelFilters)
    (hj : j < naturalAt m (filterEntry f.filterLengths i)) :
    elementAt n (filterCoefficient f.filterCoefs (filterOffset f m i) j) =
      elementAt m (filterCoefficient f.filterCoefs (filterOffset f m i) j) := by
  rw [Machine.filterCoefficient, Nat.add_assoc]
  have := filterOffset_le_total m hi
  exact h.elementAt_eq (b := ⟨f.filterCoefs, filterOffset f m f.nbMelFilters⟩) (by simp [mfccTables])
    (show _ < filterOffset f m f.nbMelFilters by omega)

theorem dct_index_lt {d k j i : Nat} (hj : j < d) (hi : i < k) : j * k + i < d * k :=
  calc j * k + i < (j + 1) * k := by rw [Nat.succ_mul]; omega
    _ ≤ d * k := Nat.mul_le_mul_right k hj

theorem SameTables.dctCoefficient (h : SameTables f m n) {i j : Nat} (hj : j < f.nbDctOutputs)
    (hi : i < f.nbMelFilters) :
    elementAt n (dctCoefficient f.dctCoefs f.nbMelFilters j i) =
      elementAt m (dctCoefficient f.dctCoefs f.nbMelFilters j i) := by
  rw [Machine.dctCoefficient, Nat.add_assoc]
  exact h.elementAt_eq (b := ⟨f.dctCoefs, f.nbDctOutputs * f.nbMelFilters⟩) (by simp [mfccTables])
    (dct_index_lt hj hi)

theorem SameTables.symm (h : SameTables f m n) : SameTables f n m := by
  intro b hb a ha
  rw [h.filterOffset_eq le_rfl] at hb
  exact (h b hb a ha).symm

theorem SameTables.tablesOff {w : Nat → Prop} (h : SameTables f m n) (ht : TablesOff w f m) : TablesOff w f n := by
  rwa [TablesOff, h.filterOffset_eq le_rfl]

/-! ### One energy (47_mel_filterbank.md R252) -/

/-- The offsets of bins 0 .. N/2 among the magnitudes. -/
def MfccInstance.Bins (f : MfccInstance) : Nat → Prop := fun k => k ≤ f.fftLen / 2

variable {mag mag' i : Nat} {e : Half × Nat}

/-- What an energy that answered had read, and that its filter stayed inside the bins (R252, R253). -/
theorem melEnergy_reads {off : Nat} (h : melEnergy f mag i off m = .ok e) :
    written m (filterEntry f.filterPos i) = true ∧ written m (filterEntry f.filterLengths i) = true ∧
      naturalAt m (filterEntry f.filterLengths i) = e.2 ∧
      naturalAt m (filterEntry f.filterPos i) + naturalAt m (filterEntry f.filterLengths i) ≤ f.fftLen / 2 + 1 ∧
      ∀ j < naturalAt m (filterEntry f.filterLengths i), written m (filterCoefficient f.filterCoefs off j) = true := by
  obtain ⟨pos, acc, hpos, hlen, hle, hsum, -⟩ := (melEnergy_ok_iff _ _ _ _ _ _).mp h
  have hlen' := naturalAt_of_memReadNat hlen
  refine ⟨memReadNat_written hpos, memReadNat_written hlen, hlen', ?_, fun j hj => ?_⟩
  · rwa [naturalAt_of_memReadNat hpos, hlen']
  · obtain ⟨b, d, -, hd⟩ := forUpTo_performed hsum (hlen' ▸ hj)
    simp only [bind_ok_iff] at hd
    obtain ⟨x, -, w, hw, -⟩ := hd
    exact memRead_written hw

/-- The energy of a filter is the same over the same magnitudes with the same tables, wherever the magnitudes stand. -/
theorem melEnergy_of_same (h : SameTables f m n) (hmag : Mirrors f.Bins mag m mag' n) (hi : i < f.nbMelFilters)
    (he : melEnergy f mag i (filterOffset f m i) m = .ok e) :
    melEnergy f mag' i (filterOffset f n i) n = .ok e := by
  obtain ⟨pos, acc, hpos, hlen, hle, hsum, hval⟩ := (melEnergy_ok_iff _ _ _ _ _ _).mp he
  have hlen' := naturalAt_of_memReadNat hlen
  rw [h.filterOffset_eq hi.le]
  refine (melEnergy_ok_iff _ _ _ _ _ _).mpr ⟨pos, acc, (memReadNat_congr (h.filterPos hi)).trans hpos,
    (memReadNat_congr (h.filterLength hi)).trans hlen, hle, ?_, hval⟩
  rw [← hsum]
  refine forUpTo_congr _ fun j hj acc => ?_
  rw [realElement, realElement, hmag (pos + j) (show pos + j ≤ f.fftLen / 2 by omega),
    memRead_congr (h.filterCoefficient hi (hlen'.symm ▸ hj))]

/-! ### One output (48_dct_core.md R261) -/

/-- The offsets of the log-energies. -/
def MfccInstance.Filters (f : MfccInstance) : Nat → Prop := fun i => i < f.nbMelFilters

variable {le le' j : Nat}

theorem dctSum_of_same (h : SameTables f m n) (hle : Mirrors f.Filters le m le' n) (hj : j < f.nbDctOutputs) :
    dctSum f le' j n = dctSum f le j m := by
  refine forUpTo_congr _ fun i hi acc => ?_
  rw [realElement, realElement, hle i hi, memRead_congr (h.dctCoefficient hj hi)]

theorem dctSum_reads {acc : Accum} (h : dctSum f le j m = .ok acc) (hi : i < f.nbMelFilters) :
    written m (dctCoefficient f.dctCoefs f.nbMelFilters j i) = true := by
  obtain ⟨b, d, -, hd⟩ := forUpTo_performed h hi
  obtain ⟨c, hc, -⟩ := (bind_ok_iff _ _ _).mp hd
  exact memRead_written hc

theorem dctSum_of_no_filter (h : f.nbMelFilters = 0) : dctSum f le j m = .ok zeroA := by
  rw [dctSum, h, forUpTo_zero]

end

/-! ### Steps 4 and 5: the log-energies (49_mfcc_extractor.md R279, R280) -/

/-- The logarithm of the energy of filter i over the magnitudes in m stands in c. -/
def LogEnergyAt (f : MfccInstance) (scr : Nat) (m : Memory) (i : Nat) (c : Memory) : Prop :=
  ∃ e, melEnergy f scr i (filterOffset f m i) m = .ok e ∧ elementAt c (scr + f.fftLen + i) = some (logCompress e.1)

theorem Within.mirrors {v w : Nat → Prop} {m n : Memory} (h : Within w m n) {b : Nat} (hv : ∀ j, v j → ¬ w (b + j)) :
    Mirrors v b m b n := fun j hj => h.memRead_eq (hv j hj)

theorem Mirrors.symm {w : Nat → Prop} {b b' : Nat} {m n : Memory} (h : Mirrors w b m b' n) : Mirrors w b' n b m :=
  fun j hj => (h j hj).symm

/-- The log-energies are those of the magnitudes and the tables that the loop was given. -/
theorem melLoop_ok {f : MfccInstance} {scr : Nat} {m : Memory} {acc : Memory × Nat} (h2 : 2 ≤ f.fftLen)
    (ht : TablesOff (Region (scr + f.fftLen) f.nbMelFilters) f m) (h : melLoop f scr m = .ok acc) :
    ∀ i < f.nbMelFilters, LogEnergyAt f scr m i acc.1 := by
  refine (forUpTo_each
    (fun i c => Within (Region (scr + f.fftLen) f.nbMelFilters) m c.1 ∧ c.2 = filterOffset f m i)
    (fun i c => LogEnergyAt f scr m i c.1) h ⟨Within.refl _ _, rfl⟩ ?_).2
  rintro i hi ⟨c, off⟩ d hd ⟨hw, rfl⟩
  simp only [bind_ok_iff] at hd
  obtain ⟨e, he, c', hwrite, hd⟩ := hd
  cases hd
  have hsame := hw.sameTables ht
  have hmag : Mirrors f.Bins scr m scr c := hw.mirrors fun k (hk : k ≤ f.fftLen / 2) hr => by
    have := hr.1
    omega
  rw [← hsame.filterOffset_eq hi.le] at he
  have he' := melEnergy_of_same hsame.symm hmag.symm hi he
  obtain ⟨-, -, hlen, -, -⟩ := melEnergy_reads he'
  obtain ⟨hown, hspare⟩ := memWrite_elementAt hwrite
  refine ⟨⟨hw.trans (memWrite_region hwrite hi), by rw [filterOffset, hlen]⟩, ⟨e, he', hown⟩, ?_⟩
  rintro k hk ⟨e', hk', hv⟩
  exact ⟨e', hk', (hspare k hk.ne).trans hv⟩

/-! ### Step 6: the projection (48_dct_core.md R261) -/

/-- Output j of the log-energies in m stands in c. -/
def OutputAt (f : MfccInstance) (le out : Nat) (m : Memory) (j : Nat) (c : Memory) : Prop :=
  ∃ acc, dctSum f le j m = .ok acc ∧ elementAt c (out + j) = some (num.hOfA acc)

/-- The outputs are those of the log-energies and the table that the projection was given. -/
theorem dctProject_ok {f : MfccInstance} {le out : Nat} {m m' : Memory}
    (ht : TablesOff (Region out f.nbDctOutputs) f m)
    (hle : ∀ i < f.nbMelFilters, ¬ Region out f.nbDctOutputs (le + i)) (h : dctProject f le out m = .ok m') :
    ∀ j < f.nbDctOutputs, OutputAt f le out m j m' := by
  refine (forUpTo_each (fun _ c => Within (Region out f.nbDctOutputs) m c) (OutputAt f le out m) h
    (Within.refl _ _) ?_).2
  intro j hj c d hd hw
  obtain ⟨acc, hsum, hwrite⟩ := (bind_ok_iff _ _ _).mp hd
  rw [dctSum_of_same (hw.sameTables ht) (hw.mirrors hle) hj] at hsum
  obtain ⟨hown, hspare⟩ := memWrite_elementAt hwrite
  refine ⟨hw.trans (memWrite_region hwrite hj), ⟨acc, hsum, hown⟩, ?_⟩
  rintro k hk ⟨acc', hk', hv⟩
  exact ⟨acc', hk', (hspare k hk.ne).trans hv⟩

end Sys2Proof.Machine
end

section
/-! The run of `MFCC` (49_mfcc_extractor.md R275): what its checks say of the places of its buffers, and an account of
what its six steps leave, from which its preconditions and its results are read off (R276 to R284). -/

namespace Sys2Proof.Machine

/-! ### The checks (R275) -/

/-- The places of the buffers of an `MFCC` are as 20_memory.md R70 asks: `MfccReady` but for what must be written and
where the filters lie. -/
structure MfccPlaced (f : MfccInstance) (inp out scr : Nat) (m : Memory) : Prop where
  filters : f.nbMelFilters ≤ f.fftLen
  output : inRange (mfccOutput f out) = true
  scratch : inRange (mfccScratch f scr) = true
  apart : overlap (mfccScratch f scr) (mfccOutput f out) = false
  sources : ∀ b ∈ mfccSources f inp m, inRange b = true ∧ overlap b (mfccScratch f scr) = false ∧
    overlap b (mfccOutput f out) = false

theorem filterTotal_ok {f : MfccInstance} {m : Memory} {t : Nat} (h : filterTotal f m = .ok t) :
    t = filterOffset f m f.nbMelFilters := by
  refine forUpTo_ok (fun i t => t = filterOffset f m i) h rfl fun i hi b d hd hb => ?_
  obtain ⟨len, hlen, hd⟩ := (bind_ok_iff _ _ _).mp hd
  cases hd
  rw [filterOffset, hb, naturalAt_of_memReadNat hlen]

theorem checkTable_ok_iff (f : MfccInstance) (out scr : Nat) (t : Buffer) :
    checkTable f out scr t = .ok () ↔
      inRange t = true ∧ overlap t (mfccScratch f scr) = false ∧ overlap t (mfccOutput f out) = false := by
  simp only [checkTable, ite_error_eq_ok_iff, Bool.not_eq_false, Bool.or_eq_true, not_or, Bool.not_eq_true, and_true]

theorem checkTables_ok_iff (f : MfccInstance) (out scr : Nat) (ts : List Buffer) :
    checkTables f out scr ts = .ok () ↔
      ∀ t ∈ ts, inRange t = true ∧ overlap t (mfccScratch f scr) = false ∧ overlap t (mfccOutput f out) = false := by
  refine ⟨fun h => ?_, checkTables_ok⟩
  induction ts with
  | nil => exact fun t ht => absurd ht List.not_mem_nil
  | cons t ts ih =>
    obtain ⟨u, ht, hts⟩ := (bind_ok_iff _ _ _).mp h
    exact List.forall_mem_cons.mpr ⟨(checkTable_ok_iff f out scr t).mp ht, ih hts⟩

theorem mfccRun_placed {sp : MfccSpectrum} {f : MfccInstance} {inp out scr : Nat} {m m' : Memory}
    (h : mfccRun sp f inp out scr m = .ok m') : MfccPlaced f inp out scr m := by
  simp only [mfccRun, ite_error_eq_ok_iff, bind_ok_iff, not_or, Bool.not_eq_false, Bool.or_eq_true, Bool.not_eq_true,
    Nat.not_lt] at h
  obtain ⟨hfilters, ⟨hin, hout, hscr⟩, ⟨⟨hsi, hso⟩, hio⟩, t, htotal, u, htables, -⟩ := h
  rw [filterTotal_ok htotal] at htables
  exact ⟨hfilters, hout, hscr, hso, List.forall_mem_cons.mpr
    ⟨⟨hin, overlap_comm (mfccScratch f scr) _ ▸ hsi, hio⟩, (checkTables_ok_iff f out scr _).mp htables⟩⟩

/-! ### An account of the six steps -/

/-- The element addresses that an `MFCC` may write: its scratch and its output. -/
def MfccTouches (f : MfccInstance) (out scr : Nat) : Nat → Prop :=
  fun a => Region scr (2 * f.fftLen + 2) a ∨ Region out f.nbDctOutputs a

/-- What the six steps that ran from m to m' leave: y are the windowed samples, z the spectrum, and in m' stand its
magnitudes, the log-energies over them and the outputs made of these, beside tables that nothing touched. -/
structure MfccAccount (be : MfccBackend) (sp : MfccSpectrum) (f : MfccInstance) (inp out scr : Nat) (m y z m' : Memory) :
    Prop where
  prepared : Within (Region scr (2 * f.fftLen + 2)) m y
  windowed : ∀ i < f.fftLen, WindowedAt be f inp scr m i y
  transformed : transformStep f scr y = .ok z
  tables : SameTables f m m'
  magnitudes : ∀ k ≤ f.fftLen / 2, ∃ c, cget z (spectrumBase f scr) k = .ok c ∧
    elementAt m' (scr + k) = some (binMagnitude sp c)
  logEnergies : ∀ i < f.nbMelFilters, LogEnergyAt f scr m' i m'
  outputs : ∀ j < f.nbDctOutputs, OutputAt f (scr + f.fftLen) out m' j m'

section
variable {be : MfccBackend} {sp : MfccSpectrum} {f : MfccInstance} {inp out scr : Nat} {m y z m' : Memory}

theorem MfccPlaced.source_off (h : MfccPlaced f inp out scr m) {b : Buffer} (hb : b ∈ mfccSources f inp m) {a : Nat}
    (ha : Region b.base b.length a) : ¬ MfccTouches f out scr a := by
  obtain ⟨-, hs, ho⟩ := h.sources b hb
  exact not_or.mpr ⟨overlap_false_disjoint hs ha, overlap_false_disjoint ho ha⟩

theorem MfccPlaced.tablesOff (h : MfccPlaced f inp out scr m) : TablesOff (MfccTouches f out scr) f m :=
  fun _ hb _ ha => h.source_off (List.mem_cons_of_mem _ hb) ha

theorem TablesOff.weaken {v w : Nat → Prop} (h : TablesOff w f m) (hv : ∀ a, v a → w a) : TablesOff v f m :=
  fun b hb a ha hva => h b hb a ha (hv a hva)

theorem Within.tablesOff {w : Nat → Prop} (h : Within w m m') (ht : TablesOff w f m) : TablesOff w f m' :=
  (h.sameTables ht).tablesOff ht

theorem MfccPlaced.not_output (h : MfccPlaced f inp out scr m) {k : Nat} (hk : k < 2 * f.fftLen + 2) :
    ¬ Region out f.nbDctOutputs (scr + k) :=
  overlap_false_disjoint h.apart ⟨Nat.le_add_right scr k, Nat.add_lt_add_left hk scr⟩

theorem MfccPlaced.logEnergy_not_output (h : MfccPlaced f inp out scr m) {i : Nat} (hi : i < f.nbMelFilters) :
    ¬ Region out f.nbDctOutputs (scr + f.fftLen + i) := by
  have := h.filters
  rw [Nat.add_assoc]
  exact h.not_output (by omega)

/-- Steps 4 to 6 write past the magnitudes or outside the scratch. -/
theorem MfccPlaced.magnitude_spared (h : MfccPlaced f inp out scr m) (h2 : 2 ≤ f.fftLen) {k : Nat}
    (hk : k ≤ f.fftLen / 2) :
    ¬ (Region (scr + f.fftLen) f.nbMelFilters (scr + k) ∨ Region out f.nbDctOutputs (scr + k)) := by
  refine not_or.mpr ⟨fun hr => ?_, h.not_output (by omega)⟩
  have := hr.1
  omega

theorem region_touches {b n a : Nat} (h1 : scr ≤ b) (h2 : b + n ≤ scr + (2 * f.fftLen + 2)) (ha : Region b n a) :
    MfccTouches f out scr a := by
  obtain ⟨hlo, hhi⟩ := ha
  exact Or.inl ⟨by omega, by omega⟩

theorem MfccInstance.BuiltFor.spectrum_place (hb : f.BuiltFor be) (scr : Nat) :
    spectrumBase f scr = scr ∨ scr + (f.fftLen / 2 + 1) ≤ spectrumBase f scr := by
  have := hb.length_pos
  unfold spectrumBase
  cases f.backend with
  | real r => exact Or.inr (by dsimp only; omega)
  | complex c => exact Or.inl rfl

/-- The account holds of every run that answers on buffers so placed: each step leaves alone what the steps before it
left and what the steps after it read. -/
theorem mfccSteps_account (hb : f.BuiltFor be) (hp : MfccPlaced f inp out scr m)
    (h : mfccSteps sp f inp out scr m = .ok m') : ∃ y z, MfccAccount be sp f inp out scr m y z m' := by
  simp only [mfccSteps, bind_ok_iff] at h
  obtain ⟨y, hwindow, z, htransform, q, hmagnitude, ⟨g, total⟩, hmel, hdct⟩ := h
  have hlen := hb.length_pos
  have hF := hp.filters
  have wy : Within (Region scr (2 * f.fftLen)) m y := windowStep_within hwindow
  have wmel : Within (Region (scr + f.fftLen) f.nbMelFilters) q g := melLoop_within hmel
  have wdct : Within (Region out f.nbDctOutputs) g m' := dctProject_within hdct
  have wlast : Within (fun a => Region (scr + f.fftLen) f.nbMelFilters a ∨ Region out f.nbDctOutputs a) q m' :=
    (wmel.weaken fun _ => Or.inl).trans (wdct.weaken fun _ => Or.inr)
  -- No step touches a table: those of q, of g and of m' are those of m.
  have melTouches : ∀ a, Region (scr + f.fftLen) f.nbMelFilters a → MfccTouches f out scr a :=
    fun _ => region_touches (by omega) (by omega)
  have tq : Within (MfccTouches f out scr) m q :=
    ((wy.weaken fun _ => region_touches le_rfl (by omega)).trans
      ((transformStep_within hb htransform).weaken fun _ => Or.inl)).trans
      ((magnitudeStep_within hmagnitude).weaken fun _ => region_touches le_rfl (by omega))
  have tg : Within (MfccTouches f out scr) q g := wmel.weaken melTouches
  have tm : Within (MfccTouches f out scr) g m' := wdct.weaken fun _ => Or.inr
  have offq := tq.tablesOff hp.tablesOff
  have offg := tg.tablesOff offq
  refine ⟨y, z, wy.weaken fun _ ⟨hlo, hhi⟩ => ⟨hlo, by omega⟩, windowStep_ok hb hwindow ?_ ?_, htransform,
    ((tq.trans tg).trans tm).sameTables hp.tablesOff, fun k hk => ?_, fun i hi => ?_, fun j hj => ?_⟩
  · exact fun a ha hs => hp.source_off (b := mfccInput f inp) (by simp [mfccSources]) ha
      (region_touches le_rfl (by omega) hs)
  · exact fun a ha hs => hp.source_off (b := ⟨f.windowCoefs, f.fftLen⟩) (by simp [mfccSources, mfccTables]) ha
      (region_touches le_rfl (by omega) hs)
  · obtain ⟨c, hc, hv⟩ := magnitudesAreThoseOfTheGivenSpectrum sp f _ scr z q (hb.spectrum_place scr) hmagnitude k hk
    exact ⟨c, hc, (wlast.elementAt (hp.magnitude_spared hlen hk)).trans hv⟩
  · obtain ⟨e, he, hv⟩ := melLoop_ok hlen (offq.weaken melTouches) hmel i hi
    exact ⟨e, melEnergy_of_same ((tg.trans tm).sameTables offq) (wlast.mirrors fun _ => hp.magnitude_spared hlen) hi he,
      (wdct.elementAt (hp.logEnergy_not_output hi)).trans hv⟩
  · obtain ⟨acc, hsum, hv⟩ :=
      dctProject_ok (offg.weaken fun _ => Or.inr) (fun _ => hp.logEnergy_not_output) hdct j hj
    exact ⟨acc, (dctSum_of_same (tm.sameTables offg) (wdct.mirrors fun _ => hp.logEnergy_not_output) hj).trans hsum, hv⟩

theorem mfccRun_account (hb : f.BuiltFor be) (h : mfccRun sp f inp out scr m = .ok m') :
    ∃ y z, MfccAccount be sp f inp out scr m y z m' :=
  mfccSteps_account hb (mfccRun_placed h) (mfccRun_ok h).2

/-! ### Only when ready (R275) -/

theorem SameTables.bufferWritten (h : SameTables f m m') {b : Buffer}
    (hb : b ∈ mfccTables f (filterOffset f m f.nbMelFilters)) (hw : ∀ i < b.length, written m' (b.base + i) = true) :
    Machine.bufferWritten m b := by
  intro a ha
  obtain ⟨hlo, hhi⟩ := (inBuffer_iff b a).mp ha
  obtain ⟨i, rfl⟩ := Nat.exists_eq_add_of_le hlo
  have hi : i < b.length := by omega
  rw [written, ← h.elementAt_eq hb hi]
  exact hw i hi

theorem MfccAccount.input_written (h : MfccAccount be sp f inp out scr m y z m') :
    bufferWritten m (mfccInput f inp) := by
  intro a ha
  obtain ⟨hlo, hhi⟩ : inp ≤ a ∧ a < inp + f.fftLen := (inBuffer_iff _ a).mp ha
  obtain ⟨i, rfl⟩ := Nat.exists_eq_add_of_le hlo
  obtain ⟨x, w, hx, -, -⟩ := h.windowed i (by omega)
  exact (written_iff m _).mpr ⟨x, hx⟩

/-- What an `MFCC` that ran had read of its tables it had found written, and that is all of them. -/
theorem MfccAccount.table_written (h : MfccAccount be sp f inp out scr m y z m') {b : Buffer}
    (hb : b ∈ mfccTables f (filterOffset f m f.nbMelFilters)) : bufferWritten m b := by
  refine h.tables.bufferWritten hb ?_
  rw [← h.tables.filterOffset_eq le_rfl] at hb
  simp only [mfccTables, List.mem_cons, List.not_mem_nil, or_false] at hb
  obtain rfl | rfl | rfl | rfl | rfl := hb <;> intro i hi
  · obtain ⟨x, w, -, hw, -⟩ := h.windowed i hi
    exact (written_iff _ _).mpr ⟨w, (h.tables.window hi).trans hw⟩
  · obtain ⟨e, he, -⟩ := h.logEnergies i hi
    exact (melEnergy_reads he).1
  · obtain ⟨e, he, -⟩ := h.logEnergies i hi
    exact (melEnergy_reads he).2.1
  · obtain ⟨k, hk, j, hj, rfl⟩ := exists_filter_of_lt_filterOffset hi
    obtain ⟨e, he, -⟩ := h.logEnergies k hk
    obtain ⟨-, -, -, -, hcoefs⟩ := melEnergy_reads he
    rw [← Nat.add_assoc]
    exact hcoefs j hj
  · have hF : 0 < f.nbMelFilters := Nat.pos_of_mul_pos_left (Nat.zero_lt_of_lt hi)
    obtain ⟨acc, hsum, -⟩ := h.outputs (i / f.nbMelFilters) (Nat.div_lt_of_lt_mul (Nat.mul_comm _ _ ▸ hi))
    have hread := dctSum_reads hsum (Nat.mod_lt i hF)
    rwa [dctCoefficient, Nat.add_assoc, Nat.div_add_mod'] at hread

theorem MfccAccount.filter_in_bins (h : MfccAccount be sp f inp out scr m y z m') {i : Nat} (hi : i < f.nbMelFilters) :
    naturalAt m (filterEntry f.filterPos i) + naturalAt m (filterEntry f.filterLengths i) ≤ f.fftLen / 2 + 1 := by
  obtain ⟨e, he, -⟩ := h.logEnergies i hi
  obtain ⟨-, -, -, hle, -⟩ := melEnergy_reads he
  rwa [naturalAt_congr (h.tables.filterPos hi), naturalAt_congr (h.tables.filterLength hi)] at hle

theorem mfccRun_ready (hb : f.BuiltFor be) (h : mfccRun sp f inp out scr m = .ok m') :
    MfccReady f inp out scr m := by
  have hp := mfccRun_placed h
  obtain ⟨y, z, hacc⟩ := mfccRun_account hb h
  refine ⟨hp.filters, hp.output, hp.scratch, hp.apart, fun b hb => ?_, fun i hi => hacc.filter_in_bins hi⟩
  obtain ⟨hr, hs, ho⟩ := hp.sources b hb
  refine ⟨hr, ?_, hs, ho⟩
  obtain rfl | hb := List.mem_cons.mp hb
  · exact hacc.input_written
  · exact hacc.table_written hb

end

/-- Settles O31: the checks place the buffers, and the account shows what was read. -/
theorem mfccCompletesOnlyWhenReady : Obligations.MfccCompletesOnlyWhenReady := by
  intro be k s t f hs hb h
  rw [exec_mfcc hs] at h
  obtain ⟨m, hm, -⟩ := (commit_next_iff _ _ _).mp h
  exact mfccRun_ready hb hm

/-! ### Completion (R275 to R281) -/

/-- Settles O35: the command completes, and its account is what the statement asks. -/
theorem mfccCompletes : Obligations.MfccCompletes := by
  intro be k s f hs hb hready
  obtain ⟨m, hm, -⟩ := mfccRun_completes (sp := Config.mfccSpectrum) hb hready
  obtain ⟨y, z, hacc⟩ := mfccRun_account hb hm
  refine ⟨y, z, m, ?_, ?_, ?_, hacc.windowed, hacc.transformed, hacc.magnitudes, hacc.logEnergies, hacc.outputs⟩
  · rw [exec_mfcc hs, hm]
    rfl
  · exact Within.unchangedOutside_pair (B := mfccScratch f (s.arg 2)) (C := mfccOutput f (s.arg 1))
      (mfccRun_within hb hm)
  · exact Within.unchangedOutside (B := mfccScratch f (s.arg 2)) hacc.prepared

/-- Settles O36: the sum of no terms is +0, and so is its rounding. -/
theorem mfccWithoutFiltersWritesZeros : Obligations.MfccWithoutFiltersWritesZeros := by
  intro be k s f hs hb hready hF
  obtain ⟨y, z, m, hexec, -, -, -, -, -, -, houtputs⟩ := mfccCompletes be k s f hs hb hready
  refine ⟨m, hexec, fun j hj => ?_⟩
  obtain ⟨acc, hsum, hv⟩ := houtputs j hj
  cases (dctSum_of_no_filter hF).symm.trans hsum
  rw [hv]
  decide +kernel

end Sys2Proof.Machine
end

section
/-! What the outputs of `MFCC` depend on (49_mfcc_extractor.md R282): two runs on the same samples and tables have the
same windowed samples, hence the same spectrum, magnitudes, log-energies and outputs, wherever their buffers stand. -/

namespace Sys2Proof.Machine

theorem memRead_eq_of_elementAt_eq {m n : Memory} {a c : Nat} (ha : a < Config.dmemWords) (hc : c < Config.dmemWords)
    (h : elementAt n c = elementAt m a) : memRead n c = memRead m a := by
  rw [memRead, memRead, if_pos ha, if_pos hc, h]

theorem SameTables.trans {f : MfccInstance} {m n p : Memory} (h : SameTables f m n) (h' : SameTables f n p) :
    SameTables f m p :=
  fun b hb a ha => (h' b (by rwa [h.filterOffset_eq le_rfl]) a ha).trans (h b hb a ha)

/-! ### The spectrum of the same windowed samples (R277) -/

theorem Mirrors.cget_offsets {c : ComplexInstance} {b b' i : Nat} {m n : Memory} (h : Mirrors c.Offsets b m b' n)
    (hi : i < c.fftLen) : Machine.cget n b' i = Machine.cget m b i :=
  (h.weaken (ComplexInstance.offsets_of_parts (is := [i]) (by simpa using hi))).cget List.mem_cons_self

/-- Forward real transforms of the same samples leave the same bins, wherever their buffers stand. -/
theorem rfftForward_cget_eq {r : RealInstance} {inp inp' out out' k : Nat} {m m' n n' : Memory} (hr : r.Wf)
    (ho : overlap (timeBuffer r inp) (spectrumBuffer r out) = false)
    (ho' : overlap (timeBuffer r inp') (spectrumBuffer r out') = false) (hmir : Mirrors r.cfft.Offsets inp m inp' n)
    (h : rfftForward r inp out m = .ok m') (h' : rfftForward r inp' out' n = .ok n') (hk : k ≤ r.fftLenRFFT / 2) :
    cget n' out' k = cget m' out k := by
  obtain ⟨z, z0, hcore, -, hz0, hdc, hny, hbins⟩ := rfftForward_ok hr ho h
  obtain ⟨u, u0, hcore', -, hu0, hdc', hny', hbins'⟩ := rfftForward_ok hr ho' h'
  obtain ⟨u', hu', hmir'⟩ := cfftCore_mirrors hr.cfft_wf hcore ((cfftCore_ok_iff _ _ _ _ _ _).mp hcore').1 hmir
  cases hcore'.symm.trans hu'
  have hlen := hr.length_eq
  have hpos := hr.length_pos
  have same : ∀ i < r.fftLenRFFT / 2, cget u inp' i = cget z inp i := fun i hi => hmir'.cget_offsets (by omega)
  rw [same 0 (by omega)] at hu0
  cases hz0.symm.trans hu0
  obtain rfl | rfl | ⟨hk0, hkM⟩ : k = 0 ∨ k = r.fftLenRFFT / 2 ∨ (0 < k ∧ k < r.fftLenRFFT / 2) := by omega
  · rw [hdc, hdc']
  · rw [hny, hny']
  · obtain ⟨a, b, ha, hb, hsplit⟩ := hbins k hk0 hkM
    obtain ⟨a', b', ha', hb', hsplit'⟩ := hbins' k hk0 hkM
    rw [same k hkM] at ha'
    rw [same _ (by omega)] at hb'
    cases ha.symm.trans ha'
    cases hb.symm.trans hb'
    rw [hsplit, hsplit']

/-- Two memories hold the same n windowed samples, each at its own place. -/
def SameSamples (be : MfccBackend) (n scr scr' : Nat) (y y' : Memory) : Prop :=
  ∀ i < n, ∃ v, sampleStands be y scr i v ∧ sampleStands be y' scr' i v

theorem SameSamples.mirrors_real {r : RealInstance} {scr scr' : Nat} {y y' : Memory} (hr : r.Wf)
    (hs : scr + r.fftLenRFFT ≤ Config.dmemWords) (hs' : scr' + r.fftLenRFFT ≤ Config.dmemWords)
    (h : SameSamples .real r.fftLenRFFT scr scr' y y') : Mirrors r.cfft.Offsets scr y scr' y' := by
  rw [hr.length_eq] at hs hs' h
  refine mirrors_offsets_of_elementAt hs hs' fun i hi => ?_
  obtain ⟨v, hv, hv'⟩ := h i hi
  exact hv'.trans hv.symm

theorem SameSamples.mirrors_complex {c : ComplexInstance} {scr scr' : Nat} {y y' : Memory}
    (hs : scr + 2 * c.fftLen ≤ Config.dmemWords) (hs' : scr' + 2 * c.fftLen ≤ Config.dmemWords)
    (h : SameSamples .complex c.fftLen scr scr' y y') : Mirrors c.Offsets scr y scr' y' := by
  refine mirrors_offsets_of_cget fun i hi => ?_
  obtain ⟨v, ⟨hre, him⟩, hre', him'⟩ := h i hi
  exact ⟨⟨v, zeroH⟩, (cget_ok_iff _ _ _ _).mpr ⟨by simp only [complexIm]; omega, hre, him⟩,
    (cget_ok_iff _ _ _ _).mpr ⟨by simp only [complexIm]; omega, hre', him'⟩⟩

/-- Step 2 on the same windowed samples leaves the same bins 0 .. N/2, with either backend. -/
theorem transformStep_cget_eq {be : MfccBackend} {f : MfccInstance} {scr scr' k : Nat} {y y' z z' : Memory}
    (hb : f.BuiltFor be) (hs : inRange (mfccScratch f scr) = true) (hs' : inRange (mfccScratch f scr') = true)
    (hsame : SameSamples be f.fftLen scr scr' y y') (h : transformStep f scr y = .ok z)
    (h' : transformStep f scr' y' = .ok z') (hk : k ≤ f.fftLen / 2) :
    cget z' (spectrumBase f scr') k = cget z (spectrumBase f scr) k := by
  have hlen := hb.length_pos
  replace hs : scr + (2 * f.fftLen + 2) ≤ Config.dmemWords := (inRange_iff _).mp hs
  replace hs' : scr' + (2 * f.fftLen + 2) ≤ Config.dmemWords := (inRange_iff _).mp hs'
  obtain ⟨hmem, hbackend⟩ := hb
  cases be with
  | real =>
    have hr : (makeRfft f.fftLen).Wf := ⟨hmem, rfl⟩
    simp only [transformStep, spectrumBase, hbackend, makeBackend] at h h' ⊢
    have apart (b : Nat) :
        overlap (timeBuffer (makeRfft f.fftLen) b) (spectrumBuffer (makeRfft f.fftLen) (b + f.fftLen)) = false :=
      (not_overlap_iff _ _).mpr fun ⟨_, _, _, hlt⟩ => Nat.lt_irrefl _ hlt
    exact rfftForward_cget_eq hr (apart scr) (apart scr')
      (SameSamples.mirrors_real hr (show scr + f.fftLen ≤ _ by omega) (show scr' + f.fftLen ≤ _ by omega) hsame) h h' hk
  | complex =>
    have hc : (makeCfft .general f.fftLen).Wf := ⟨hmem, rfl⟩
    simp only [transformStep, spectrumBase, hbackend, makeBackend] at h h' ⊢
    have hmir := SameSamples.mirrors_complex (c := makeCfft .general f.fftLen) (show scr + 2 * f.fftLen ≤ _ by omega)
      (show scr' + 2 * f.fftLen ≤ _ by omega) hsame
    obtain ⟨u, hu, hmir'⟩ := cfftCore_mirrors hc h ((cfftCore_ok_iff _ _ _ _ _ _).mp h').1 hmir
    cases h'.symm.trans hu
    exact hmir'.cget_offsets (show k < f.fftLen by omega)

/-! ### Two runs (R282) -/

section
variable {be : MfccBackend} {sp : MfccSpectrum} {f : MfccInstance} {inp inp' out out' scr scr' : Nat}
  {m y z m' n u v n' : Memory} (h : MfccAccount be sp f inp out scr m y z m')
  (h' : MfccAccount be sp f inp' out' scr' n u v n')
include h h'

theorem MfccAccount.sameTables (ht : SameTables f m n) : SameTables f m' n' :=
  (h.tables.symm.trans ht).trans h'.tables

theorem MfccAccount.sameSamples (ht : SameTables f m n)
    (hin : ∀ i < f.fftLen, elementAt n (inp' + i) = elementAt m (inp + i)) : SameSamples be f.fftLen scr scr' y u := by
  intro i hi
  obtain ⟨x, w, hx, hw, hv⟩ := h.windowed i hi
  obtain ⟨x', w', hx', hw', hv'⟩ := h'.windowed i hi
  cases hx'.symm.trans ((hin i hi).trans hx)
  cases hw'.symm.trans ((ht.window hi).trans hw)
  exact ⟨_, hv, hv'⟩

theorem MfccAccount.mirrors_magnitudes (hb : f.BuiltFor be) (hs : inRange (mfccScratch f scr) = true)
    (hs' : inRange (mfccScratch f scr') = true) (hsame : SameSamples be f.fftLen scr scr' y u) :
    Mirrors f.Bins scr m' scr' n' := by
  have hr : scr + (2 * f.fftLen + 2) ≤ Config.dmemWords := (inRange_iff _).mp hs
  have hr' : scr' + (2 * f.fftLen + 2) ≤ Config.dmemWords := (inRange_iff _).mp hs'
  intro k (hk : k ≤ f.fftLen / 2)
  obtain ⟨c, hc, hv⟩ := h.magnitudes k hk
  obtain ⟨c', hc', hv'⟩ := h'.magnitudes k hk
  rw [transformStep_cget_eq hb hs hs' hsame h.transformed h'.transformed hk] at hc'
  cases hc.symm.trans hc'
  exact memRead_eq_of_elementAt_eq (by omega) (by omega) (hv'.trans hv.symm)

theorem MfccAccount.mirrors_logEnergies (hs : inRange (mfccScratch f scr) = true)
    (hs' : inRange (mfccScratch f scr') = true) (hF : f.nbMelFilters ≤ f.fftLen) (ht : SameTables f m' n')
    (hmag : Mirrors f.Bins scr m' scr' n') : Mirrors f.Filters (scr + f.fftLen) m' (scr' + f.fftLen) n' := by
  have hr : scr + (2 * f.fftLen + 2) ≤ Config.dmemWords := (inRange_iff _).mp hs
  have hr' : scr' + (2 * f.fftLen + 2) ≤ Config.dmemWords := (inRange_iff _).mp hs'
  intro i (hi : i < f.nbMelFilters)
  obtain ⟨e, he, hv⟩ := h.logEnergies i hi
  obtain ⟨e', he', hv'⟩ := h'.logEnergies i hi
  cases he'.symm.trans (melEnergy_of_same ht hmag hi he)
  exact memRead_eq_of_elementAt_eq (by omega) (by omega) (hv'.trans hv.symm)

theorem MfccAccount.outputs_eq (ht : SameTables f m' n')
    (hle : Mirrors f.Filters (scr + f.fftLen) m' (scr' + f.fftLen) n') {j : Nat} (hj : j < f.nbDctOutputs) :
    elementAt n' (out' + j) = elementAt m' (out + j) := by
  obtain ⟨acc, hsum, hv⟩ := h.outputs j hj
  obtain ⟨acc', hsum', hv'⟩ := h'.outputs j hj
  rw [dctSum_of_same ht hle hj] at hsum'
  cases hsum.symm.trans hsum'
  exact hv'.trans hv.symm

end

/-- Settles O39: step by step, what the two runs leave is the same. -/
theorem mfccOutputsDependOnlyOnInstanceInputAndTables : Obligations.MfccOutputsDependOnlyOnInstanceInputAndTables := by
  intro be k k' s s' t t' f hs hs' hb hin htables h h'
  rw [exec_mfcc hs] at h
  rw [exec_mfcc hs'] at h'
  obtain ⟨m', hm, rfl⟩ := (commit_next_iff _ _ _).mp h
  obtain ⟨n', hn, rfl⟩ := (commit_next_iff _ _ _).mp h'
  have hp := mfccRun_placed hm
  have hp' := mfccRun_placed hn
  obtain ⟨y, z, hacc⟩ := mfccRun_account hb hm
  obtain ⟨u, v, hacc'⟩ := mfccRun_account hb hn
  have ht : SameTables f m' n' := hacc.sameTables hacc' htables
  have hsamples := hacc.sameSamples hacc' htables hin
  have hmag := hacc.mirrors_magnitudes hacc' hb hp.scratch hp'.scratch hsamples
  have hle := hacc.mirrors_logEnergies hacc' hp.scratch hp'.scratch hp.filters ht hmag
  exact fun j hj => hacc.outputs_eq hacc' ht hle hj

end Sys2Proof.Machine
end

section
/-! The one reported error and the violations (60_exceptions.md): what an initialisation command leaves alone (R292, R293),
when it raises `ArgumentError` (R291), the idle block (R311), and a misshapen host access (R296 row V12). -/

namespace Sys2Proof.Machine

/-! ### The waiting block, and an access of the wrong shape (R311; R296 row V12) -/

/-- Settles O7, from the first case of `step`. -/
theorem idleBlockHoldsItsState : Obligations.IdleBlockHoldsItsState := by
  intro s hnil
  rw [step, hnil]

/-- Settles O10: the shape of an access is looked at before anything else. -/
theorem misshapenHostAccessIsAViolation : Obligations.MisshapenHostAccessIsAViolation := by
  refine fun s rest offset width v x => ⟨fun h => ?_, fun h => ?_⟩
  · have hbad : ¬ registerAccessOk offset width = true := by
      rw [registerAccessOk_iff]
      omega
    exact ⟨fun hp => (step_of_pending hp).trans (if_neg hbad), fun hp => (step_of_pending hp).trans (if_neg hbad)⟩
  · have hbad : ¬ dataAccessOk offset width = true := by
      rw [dataAccessOk_iff]
      omega
    exact ⟨fun hp => (step_of_pending hp).trans (if_neg hbad), fun hp => (step_of_pending hp).trans (if_neg hbad)⟩

/-! ### What an initialisation command makes, and when it makes nothing (R291) -/

theorem eq_none_iff_not {p : Prop} {made : Option Slot} {r : Slot} (hs : p → made = some r) (hn : ¬ p → made = none) :
    made = none ↔ ¬ p :=
  ⟨fun h hp => Option.some_ne_none r ((hs hp).symm.trans h), hn⟩

theorem madeSlot_eq_none_iff (i : Instr) (s : State) : madeSlot i s = none ↔ s.arg 0 ∉ initLengths i := by
  cases i with
  | cfftInit | cfftR2Init | cfftR4Init => exact eq_none_iff_not (makeCfftSlot_of_mem _) (makeCfftSlot_of_not_mem _)
  | rfftInit => exact eq_none_iff_not makeRfftSlot_of_mem makeRfftSlot_of_not_mem
  | mfccInit => exact eq_none_iff_not makeMfccSlot_of_mem makeMfccSlot_of_not_mem
  | cfft | cfftR2 | cfftR4 | rfft | mfcc => exact iff_of_true rfl List.not_mem_nil

theorem madeSlot_ne_invalid {i : Instr} {s : State} {r : Slot} (h : madeSlot i s = some r) : r ≠ .invalid := by
  rintro rfl
  cases i with
  | cfftInit | cfftR2Init | cfftR4Init | rfftInit | mfccInit =>
    obtain ⟨-, hr⟩ := Option.ite_none_right_eq_some.mp h
    cases hr
  | cfft | cfftR2 | cfftR4 | rfft | mfcc => cases h

/-! ### The frame of an initialisation command, and the one reported error (R291 to R293) -/

/-- Settles O26: both ends of an initialisation command are a slot and `STATUS` stored, and what it makes is never
`INVALID`. -/
theorem initialisationChangesOnlyItsSlotAndStatus : Obligations.InitialisationChangesOnlyItsSlotAndStatus := by
  intro i s t hi h
  rw [exec_of_isInit s hi] at h
  obtain ⟨hk, ⟨r, hr, rfl⟩ | ⟨-, rfl⟩⟩ := (finishInit_next_iff _ _ _ _).mp h
  · exact ⟨rfl, rfl, rfl, rfl, fun j hj => slotAt_setSlot_other s _ r hj,
      Or.inl ⟨rfl, r, madeSlot_ne_invalid hr, slotAt_setSlot_same s _ r hk⟩⟩
  · exact ⟨rfl, rfl, rfl, rfl, fun j hj => slotAt_setSlot_other s _ .invalid hj,
      Or.inr ⟨rfl, slotAt_setSlot_same s _ .invalid hk⟩⟩

/-- Settles O27: an initialisation command fails where it makes nothing, and an execute command stores memory only. -/
theorem argumentErrorExactlyOnUnsupportedLengths : Obligations.ArgumentErrorExactlyOnUnsupportedLengths := by
  refine fun i s hwf => ⟨fun hi => ?_, fun hi t h => ?_⟩
  · have hk : i.slot.toNat < Config.nInst := of_decide_eq_true hwf
    rw [exec_of_isInit s hi, ← madeSlot_eq_none_iff]
    cases madeSlot i s with
    | some r => exact ⟨_, finishInit_some s r hk, rfl, iff_of_false (show statusSuccess ≠ 1#32 by decide) nofun⟩
    | none => exact ⟨_, finishInit_none s hk, rfl, iff_of_true rfl rfl⟩
  · obtain ⟨hst, -⟩ := exec_status_slots_of_not_isInit hi h
    exact hst

end Sys2Proof.Machine
end
